-- ==== Sys2Proof/Word.lean ====
section
/-! DEFINITION. The word types of the engine and the two small name sets every layer shares: the filter families and
the block geometries (00_scope.md R9 R12 R16, 30_encoding.md R71 R72). -/

namespace Sys2Proof

/-- A 32-bit register or bus address (00_scope.md R9 R10). -/
abbrev Word := BitVec 32

/-- One byte of pixel memory, an unsigned pixel in [0, 255] (20_memory.md R49). -/
abbrev Byte := BitVec 8

/-- One filter tap as the ROM stores it: 16 bits, two's complement (10_state.md R41 (a)). -/
abbrev Tap := BitVec 16

/-- A sub-pixel phase, 0 to 7, in eighths of a pixel (00_scope.md R15, 30_encoding.md R74). -/
abbrev Phase := BitVec 3

/-- The two filter families (30_encoding.md R72). -/
inductive Family where
  | sixtap
  | bilin
  deriving DecidableEq, Repr

/-- The four block geometries, width first (00_scope.md R12, 30_encoding.md R71). -/
inductive Geometry where
  | g4x4
  | g8x4
  | g8x8
  | g16x16
  deriving DecidableEq, Repr

end Sys2Proof
end

