-- ==== Sys2Proof/Config.lean ====
section
/-! DEFINITION. What a build and a platform fix (00_scope.md R6 to R9 R14): the type of those parameters, the values
the spec gives as defaults, and an opaque constant for every one it leaves open. -/

namespace Sys2Proof

/-- The legal values of `SIXTAP_EXTEND` (00_scope.md R6). -/
inductive Support where
  | e3
  | e4
  | e5
  deriving DecidableEq, Repr

/-- `E`, the six-tap family's support radius (00_scope.md R6). -/
def Support.radius : Support → Nat
  | .e3 => 3
  | .e4 => 4
  | .e5 => 5

/-- Row 0 of a legal six-tap table: weight 128 at the centre index `E - 1`, 0 elsewhere (10_state.md R41 (c), R40). -/
def identityRow (e : Support) : List Tap :=
  (List.range (2 * e.radius)).map fun k => if k = e.radius - 1 then 128 else 0

/-- The constraints of 10_state.md R41 on `SIXTAP_COEF`: 8 rows of `2 * E` taps, each row summing to 128, row 0 the
identity.  The 16-bit width is in the type. -/
def legalTable (e : Support) (table : List (List Tap)) : Bool :=
  table.length == 8
    && table.all (fun row => row.length == 2 * e.radius && (row.map BitVec.toInt).sum == 128)
    && table.head? == some (identityRow e)

/-- A six-tap table of the default build together with the evidence that it meets R41.  The default field values only
show that such a table exists (00_scope.md R7, 10_state.md R41). -/
structure SixtapRom where
  taps : List (List Tap) := List.replicate 8 (identityRow .e3)
  legal : legalTable .e3 taps = true := by decide
  deriving DecidableEq, Repr, Inhabited

/-- The two kinds of engine access (20_memory.md R58). -/
inductive AccessKind where
  | read
  | write
  deriving DecidableEq, Repr

/-- A run of bus addresses, both ends included, and which kinds of engine access complete there. -/
structure Region where
  lo : Word
  hi : Word
  reads : Bool
  writes : Bool
  deriving DecidableEq, Repr

/-- The parameters of one machine (00_scope.md R6 to R9, R14, 10_state.md R23, 20_memory.md R54 R58 R66).
`regions` is the platform's predicate written as a finite list of regions; assumption log 18. -/
structure Build where
  /-- `SIXTAP_EXTEND` (R6). -/
  extend : Support
  /-- `SIXTAP_COEF` (R7): one list of taps per phase. -/
  coef6 : List (List Tap)
  /-- `AVG_PRESENT` (R8). -/
  avgPresent : Bool
  /-- `SIXTAP_VARIANT` (R23). -/
  variant : BitVec 8
  /-- `ENGINE_BASE` divided by 0x1000 (R54). -/
  basePage : BitVec 20
  /-- The regions where `ADMIT` holds, the engine's own block apart (R58). -/
  regions : List Region
  /-- `HOST_COHERENT` (R66). -/
  hostCoherent : Bool
  deriving DecidableEq, Repr

/-- A build the spec allows: its six-tap table meets R41. -/
def Build.legal (b : Build) : Bool := legalTable b.extend b.coef6

/-- Open (00_scope.md R7): the six-tap table of the machine that `State.reset` describes.  Nothing is known of it but
that it meets R41.  Assumption log 2. -/
opaque Config.sixtapRom : SixtapRom

/-- Open (20_memory.md R54): the 4 KiB page of the register block.  Assumption log 2. -/
opaque Config.enginePage : BitVec 20

/-- Open (20_memory.md R58): where `ADMIT` holds.  Assumption log 2. -/
opaque Config.admitRegions : List Region

/-- Open (20_memory.md R66): `HOST_COHERENT`.  Assumption log 2. -/
opaque Config.hostCoherent : Bool

/-- Free values: the bytes a host reads from pixel memory on a platform whose host view is not coherent
(20_memory.md R66, 93_implementation_defined.md S10).  Assumption log 9 and 10. -/
opaque Config.freeByte : Nat → Byte

/-- The default of `AVG_PRESENT` (00_scope.md R8). -/
def Config.avgPresent : Bool := true

/-- The machine of `State.reset`: the spec's defaults, and the open constants above for the rest (00_scope.md's
table of parameters). -/
def Config.build : Build where
  extend := .e3
  coef6 := Config.sixtapRom.taps
  avgPresent := Config.avgPresent
  variant := 0
  basePage := Config.enginePage
  regions := Config.admitRegions
  hostCoherent := Config.hostCoherent

end Sys2Proof
end

