-- ==== Sys2Proof/Syntax.lean ====
section
/-! DEFINITION. The thirteen legal commands, one constructor per row of spec/opcode_table.json (30_encoding.md R78). -/

namespace Sys2Proof

/-- A legal command word's meaning (30_encoding.md R76 R78): the row and, for a prediction, its horizontal and vertical
phases.  The operands come from the latched registers, so a command carries no others (30_encoding.md R74). -/
inductive Instr where
  /-- 41_sixtap.md R101. -/
  | sixtap4x4 (xph yph : Phase)
  /-- 41_sixtap.md R102. -/
  | sixtap8x4 (xph yph : Phase)
  /-- 41_sixtap.md R103. -/
  | sixtap8x8 (xph yph : Phase)
  /-- 41_sixtap.md R104. -/
  | sixtap16x16 (xph yph : Phase)
  /-- 41_sixtap.md R105. -/
  | sixtapAvg8x8 (xph yph : Phase)
  /-- 41_sixtap.md R106. -/
  | sixtapAvg16x16 (xph yph : Phase)
  /-- 42_bilinear.md R108. -/
  | bilin4x4 (xph yph : Phase)
  /-- 42_bilinear.md R109. -/
  | bilin8x4 (xph yph : Phase)
  /-- 42_bilinear.md R110. -/
  | bilin8x8 (xph yph : Phase)
  /-- 42_bilinear.md R111. -/
  | bilin16x16 (xph yph : Phase)
  /-- 42_bilinear.md R112. -/
  | bilinAvg8x8 (xph yph : Phase)
  /-- 42_bilinear.md R113. -/
  | bilinAvg16x16 (xph yph : Phase)
  /-- 45_control.md R121. -/
  | nop
  deriving DecidableEq, Repr

end Sys2Proof
end

