-- ==== Sys2Proof/WellFormed.lean ====
section
/-! DEFINITION. Which commands a build has (30_encoding.md R76): every one, but the averaging rows only when
`AVG_PRESENT = 1`. A phase outside 0 to 7 and a fifth geometry cannot be written (R71, R74), so nothing is checked there. -/

namespace Sys2Proof

/-- The averaging rows of the opcode map (30_encoding.md R73 R78). -/
def Instr.isAveraging : Instr → Bool
  | .sixtapAvg8x8 _ _ => true
  | .sixtapAvg16x16 _ _ => true
  | .bilinAvg8x8 _ _ => true
  | .bilinAvg16x16 _ _ => true
  | .sixtap4x4 _ _ => false
  | .sixtap8x4 _ _ => false
  | .sixtap8x8 _ _ => false
  | .sixtap16x16 _ _ => false
  | .bilin4x4 _ _ => false
  | .bilin8x4 _ _ => false
  | .bilin8x8 _ _ => false
  | .bilin16x16 _ _ => false
  | .nop => false

/-- The one check on a command: an averaging row needs `AVG_PRESENT = 1` (00_scope.md R8). -/
def wellFormed (avgPresent : Bool) (i : Instr) : Bool := !i.isAveraging || avgPresent

end Sys2Proof
end

