-- ==== Sys2Proof/Decode.lean ====
section
/-! DEFINITION. The command word (30_encoding.md R69 to R80): its fields, the total decoder, the encoder, the opcode
map as rows of mask and match, and the assembler with its pseudo-instructions (R81, R82). -/

namespace Sys2Proof

/-! ### Fields (R69) -/

/-- `SZ = w[1:0]`. -/
def fieldSz (w : Word) : BitVec 2 := w.extractLsb' 0 2

/-- `FAM = w[2]`. -/
def fieldFam (w : Word) : Bool := w.getLsbD 2

/-- `AVG = w[3]`. -/
def fieldAvg (w : Word) : Bool := w.getLsbD 3

/-- `XPH = w[6:4]` (R74). -/
def fieldXph (w : Word) : Phase := w.extractLsb' 4 3

/-- `YPH = w[9:7]` (R74). -/
def fieldYph (w : Word) : Phase := w.extractLsb' 7 3

/-- `RSV = w[27:10]` (R75). -/
def fieldRsv (w : Word) : BitVec 18 := w.extractLsb' 10 18

/-- `OPC = w[31:28]` (R70). -/
def fieldOpc (w : Word) : BitVec 4 := w.extractLsb' 28 4

/-- The family a `FAM` bit selects (R72). -/
def familyOf (bit : Bool) : Family := if bit then .bilin else .sixtap

/-- The geometry an `SZ` field selects (R71). -/
def geometryOf (sz : BitVec 2) : Geometry :=
  if sz = 0 then .g4x4 else if sz = 1 then .g8x4 else if sz = 2 then .g8x8 else .g16x16

/-! ### The decoder (R76) -/

/-- Why a word is no command (R79). -/
inductive Illegal where
  /-- `OPC` is not 0b0001 and the word is not 0 (R79 (a), (b)). -/
  | reservedOpc
  /-- `RSV` is not 0 (R79 (c)). -/
  | reservedBits
  /-- Averaging with geometry 4x4 or 8x4 (R79 (d)). -/
  | averagingSize
  /-- Averaging in a build without it (R79 (e)). -/
  | averagingAbsent
  deriving DecidableEq, Repr

/-- What the decoder answers for a word. -/
inductive Decoded where
  | legal (i : Instr)
  | illegal (why : Illegal)
  deriving DecidableEq, Repr

/-- The row of the opcode map with these fields, if the map has one (R78, R73). -/
def predictRow : Family → Bool → Geometry → Option (Phase → Phase → Instr)
  | .sixtap, false, .g4x4 => some .sixtap4x4
  | .sixtap, false, .g8x4 => some .sixtap8x4
  | .sixtap, false, .g8x8 => some .sixtap8x8
  | .sixtap, false, .g16x16 => some .sixtap16x16
  | .sixtap, true, .g8x8 => some .sixtapAvg8x8
  | .sixtap, true, .g16x16 => some .sixtapAvg16x16
  | .bilin, false, .g4x4 => some .bilin4x4
  | .bilin, false, .g8x4 => some .bilin8x4
  | .bilin, false, .g8x8 => some .bilin8x8
  | .bilin, false, .g16x16 => some .bilin16x16
  | .bilin, true, .g8x8 => some .bilinAvg8x8
  | .bilin, true, .g16x16 => some .bilinAvg16x16
  | .sixtap, true, .g4x4 => none
  | .sixtap, true, .g8x4 => none
  | .bilin, true, .g4x4 => none
  | .bilin, true, .g8x4 => none

/-- `decode(w)` of R76, with the reason for each refusal. -/
def decodeWord (avgPresent : Bool) (w : Word) : Decoded :=
  if w = 0 then .legal .nop
  else if fieldOpc w ≠ 1 then .illegal .reservedOpc
  else if fieldRsv w ≠ 0 then .illegal .reservedBits
  else
    match predictRow (familyOf (fieldFam w)) (fieldAvg w) (geometryOf (fieldSz w)) with
    | none => .illegal .averagingSize
    | some row =>
      if fieldAvg w && !avgPresent then .illegal .averagingAbsent
      else .legal (row (fieldXph w) (fieldYph w))

/-- The four bytes of a register word, little-endian (20_memory.md R53). -/
def bytesOfWord (w : Word) : List Byte :=
  [w.extractLsb' 0 8, w.extractLsb' 8 8, w.extractLsb' 16 8, w.extractLsb' 24 8]

/-- The register word whose bytes, lowest address first, open the list (20_memory.md R53); nothing when fewer than four
are there, since a command is one whole word (30_encoding.md R80). -/
def wordOfBytes : List Byte → Option (Word × List Byte)
  | b0 :: b1 :: b2 :: b3 :: rest => some (b3 ++ b2 ++ b1 ++ b0, rest)
  | _ => none

/-- Decode the command word that opens a list of bytes, and what is left of the list. -/
def decodeBytes (avgPresent : Bool) (bs : List Byte) : Option (Decoded × List Byte) :=
  (wordOfBytes bs).map fun p => (decodeWord avgPresent p.1, p.2)

/-- The instruction the decoder reads from a word numbered as spec/opcode_table.json numbers it, in the default build
(`AVG_PRESENT = 1`). -/
def decodeTableWord (nbits w : Nat) : Option Instr :=
  match decodeBytes Config.avgPresent (bytesOfWord (BitVec.ofNat 32 (w % 2 ^ nbits))) with
  | some (.legal i, _) => some i
  | some (.illegal _, _) => none
  | none => none

/-! ### The encoder (R78) -/

/-- `match | (XPH << 4) | (YPH << 7)` (R78). -/
def commandWord (row : Word) (xph yph : Phase) : Word :=
  row ||| (xph.setWidth 32 <<< 4) ||| (yph.setWidth 32 <<< 7)

/-- The command word of a command (R78, R77). -/
def encode : Instr → Word
  | .sixtap4x4 x y => commandWord 0x10000000 x y
  | .sixtap8x4 x y => commandWord 0x10000001 x y
  | .sixtap8x8 x y => commandWord 0x10000002 x y
  | .sixtap16x16 x y => commandWord 0x10000003 x y
  | .sixtapAvg8x8 x y => commandWord 0x1000000A x y
  | .sixtapAvg16x16 x y => commandWord 0x1000000B x y
  | .bilin4x4 x y => commandWord 0x10000004 x y
  | .bilin8x4 x y => commandWord 0x10000005 x y
  | .bilin8x8 x y => commandWord 0x10000006 x y
  | .bilin16x16 x y => commandWord 0x10000007 x y
  | .bilinAvg8x8 x y => commandWord 0x1000000E x y
  | .bilinAvg16x16 x y => commandWord 0x1000000F x y
  | .nop => 0x00000000

/-! ### The opcode map as a table (R78) -/

/-- A row of the opcode map. -/
structure OpcodeRow where
  mnemonic : String
  mask : Word
  pattern : Word
  averaging : Bool
  deriving DecidableEq, Repr

/-- Whether a word belongs to a row: the bits under the mask are the row's match value. -/
def OpcodeRow.matches (row : OpcodeRow) (w : Word) : Bool := w &&& row.mask == row.pattern

/-- The thirteen rows of R78, in the opcode table's order. -/
def opcodeRows : List OpcodeRow :=
  [⟨"sixtap.4x4", 0xFFFFFC0F, 0x10000000, false⟩,
   ⟨"sixtap.8x4", 0xFFFFFC0F, 0x10000001, false⟩,
   ⟨"sixtap.8x8", 0xFFFFFC0F, 0x10000002, false⟩,
   ⟨"sixtap.16x16", 0xFFFFFC0F, 0x10000003, false⟩,
   ⟨"sixtap.avg.8x8", 0xFFFFFC0F, 0x1000000A, true⟩,
   ⟨"sixtap.avg.16x16", 0xFFFFFC0F, 0x1000000B, true⟩] ++
  [⟨"bilin.4x4", 0xFFFFFC0F, 0x10000004, false⟩,
   ⟨"bilin.8x4", 0xFFFFFC0F, 0x10000005, false⟩,
   ⟨"bilin.8x8", 0xFFFFFC0F, 0x10000006, false⟩,
   ⟨"bilin.16x16", 0xFFFFFC0F, 0x10000007, false⟩,
   ⟨"bilin.avg.8x8", 0xFFFFFC0F, 0x1000000E, true⟩,
   ⟨"bilin.avg.16x16", 0xFFFFFC0F, 0x1000000F, true⟩,
   ⟨"nop", 0xFFFFFFFF, 0x00000000, false⟩]

/-! ### The assembler (R81, R82) -/

/-- The mnemonic of a command, as the opcode table spells it. -/
def Instr.mnemonic : Instr → String
  | .sixtap4x4 _ _ => "sixtap.4x4"
  | .sixtap8x4 _ _ => "sixtap.8x4"
  | .sixtap8x8 _ _ => "sixtap.8x8"
  | .sixtap16x16 _ _ => "sixtap.16x16"
  | .sixtapAvg8x8 _ _ => "sixtap.avg.8x8"
  | .sixtapAvg16x16 _ _ => "sixtap.avg.16x16"
  | .bilin4x4 _ _ => "bilin.4x4"
  | .bilin8x4 _ _ => "bilin.8x4"
  | .bilin8x8 _ _ => "bilin.8x8"
  | .bilin16x16 _ _ => "bilin.16x16"
  | .bilinAvg8x8 _ _ => "bilin.avg.8x8"
  | .bilinAvg16x16 _ _ => "bilin.avg.16x16"
  | .nop => "nop"

/-- The two phases a command carries, if it carries any. -/
def Instr.phases : Instr → Option (Phase × Phase)
  | .sixtap4x4 x y => some (x, y)
  | .sixtap8x4 x y => some (x, y)
  | .sixtap8x8 x y => some (x, y)
  | .sixtap16x16 x y => some (x, y)
  | .sixtapAvg8x8 x y => some (x, y)
  | .sixtapAvg16x16 x y => some (x, y)
  | .bilin4x4 x y => some (x, y)
  | .bilin8x4 x y => some (x, y)
  | .bilin8x8 x y => some (x, y)
  | .bilin16x16 x y => some (x, y)
  | .bilinAvg8x8 x y => some (x, y)
  | .bilinAvg16x16 x y => some (x, y)
  | .nop => none

/-- A command as the assembler prints it: mnemonic, then `xph, yph` in decimal (R81). -/
def Instr.text (i : Instr) : String :=
  match i.phases with
  | some (x, y) => i.mnemonic ++ " " ++ toString x.toNat ++ ", " ++ toString y.toNat
  | none => i.mnemonic

/-- One line of assembler input after its text has been split into parts: a command (R81) or a pseudo-instruction
(R82).  Sizes and phases are the numbers written, not yet checked. -/
inductive AsmLine where
  | command (fam : Family) (averaging : Bool) (width height xph yph : Nat)
  | nop
  | copy (width height : Nat)
  | avgcopy (width height : Nat)
  | hfilt (fam : Family) (width height xph : Nat)
  | vfilt (fam : Family) (width height yph : Nat)
  deriving DecidableEq, Repr

/-- The geometry written `<W>x<H>`; nothing for one that is not in R81's list. -/
def geometryNamed (width height : Nat) : Option Geometry :=
  if width = 4 ∧ height = 4 then some .g4x4
  else if width = 8 ∧ height = 4 then some .g8x4
  else if width = 8 ∧ height = 8 then some .g8x8
  else if width = 16 ∧ height = 16 then some .g16x16
  else none

/-- The phase written as a decimal integer; nothing outside 0 to 7 (R81). -/
def phaseNamed (n : Nat) : Option Phase := if n < 8 then some (BitVec.ofNat 3 n) else none

/-- The command with these parts; nothing where the assembler refuses the line (R81). -/
def commandNamed (fam : Family) (averaging : Bool) (width height xph yph : Nat) : Option Instr := do
  let g ← geometryNamed width height
  let x ← phaseNamed xph
  let y ← phaseNamed yph
  let row ← predictRow fam averaging g
  return row x y

/-- The command a line stands for, each pseudo-instruction replaced by its expansion (R82); nothing where the assembler
refuses the line. -/
def AsmLine.instr : AsmLine → Option Instr
  | .command fam averaging w h x y => commandNamed fam averaging w h x y
  | .nop => some .nop
  | .copy w h => commandNamed .bilin false w h 0 0
  | .avgcopy w h => commandNamed .bilin true w h 0 0
  | .hfilt fam w h x => commandNamed fam false w h x 0
  | .vfilt fam w h y => commandNamed fam false w h 0 y

/-- The word the assembler emits for a line (R81, R82). -/
def assemble (line : AsmLine) : Option Word := line.instr.map encode

end Sys2Proof
end

