-- ==== Sys2Proof/Machine/State.lean ====
section
/-! DEFINITION. The state of the machine as plain data: the engine's registers and hidden state (10_state.md), pixel
memory, and the pending steps of the agents outside the engine (00_scope.md R13). -/

namespace Sys2Proof.Machine

/-- `CTRL` (10_state.md R24).  The reserved bits read as zero and ignore writes, so they are not stored (R21). -/
structure Ctrl where
  ieDone : Bool
  ieErr : Bool
  deriving DecidableEq, Repr

/-- `STATUS` (10_state.md R25 to R27).  The reserved bits are not stored (R21). -/
structure Status where
  busy : Bool
  done : Bool
  err : Bool
  errCode : BitVec 4
  deriving DecidableEq, Repr

/-- The operation latch `L` and the progress index `L.K` (10_state.md R32, R33).  `L.W` and `L.H` are the width and
height of `geom`. -/
structure Latch where
  /-- `L.CMD`, which a read of `CMD` returns (R28). -/
  cmd : Word
  /-- `L.SB`. -/
  sb : Word
  /-- `L.SS`, read as two's complement. -/
  ss : Word
  /-- `L.DB`. -/
  db : Word
  /-- `L.DS`, read as two's complement. -/
  ds : Word
  /-- `L.FAM`. -/
  fam : Family
  /-- `L.AVG`. -/
  avg : Bool
  /-- `L.W` and `L.H`. -/
  geom : Geometry
  /-- `L.XPH`. -/
  xph : Phase
  /-- `L.YPH`. -/
  yph : Phase
  /-- `L.K`: how many accesses of the operation have been performed. -/
  k : Nat
  deriving DecidableEq, Repr

/-- One step of a host program (30_encoding.md R83).  Assumption log 20. -/
inductive HostStep where
  /-- A load of `width` bits at an offset of the register block (45_control.md R114); `rd` when `width = 32`. -/
  | rd (off : BitVec 12) (width : Nat)
  /-- A store of `width` bits at an offset of the register block (45_control.md R115); `wr` when `width = 32`. -/
  | wr (off : BitVec 12) (width : Nat) (value : Word)
  /-- Read `STATUS` until `BUSY = 0` (R83, 45_control.md R130). -/
  | poll
  /-- A byte load from pixel memory. -/
  | memRb (addr : Word)
  /-- A byte store to pixel memory. -/
  | memWb (addr : Word) (value : Byte)
  deriving DecidableEq, Repr

/-- Who takes the next step (00_scope.md R13). -/
inductive Turn where
  /-- The host takes the next step of its program. -/
  | host
  /-- The engine sequencer takes its enabled step, if it has one (45_control.md R124, R125). -/
  | engine
  /-- The platform resets the engine (70_reset_and_hazards.md R153). -/
  | reset
  /-- The platform makes the `n`-th host memory write that the engine could not see yet visible to it
  (20_memory.md R66). -/
  | publish (n : Nat)
  /-- The platform's maintenance of a range of pixel memory, both ends included: the host sees what the engine has
  written there (20_memory.md R66). -/
  | maintain (lo hi : Word)
  deriving DecidableEq, Repr

/-- What bears on the host's view of pixel memory on a platform where that view is not coherent (20_memory.md R66). -/
inductive ViewEvent where
  /-- The platform's maintenance of a range, both ends included. -/
  | maintained (lo hi : Word)
  /-- The engine wrote a byte. -/
  | written (addr : Word)
  deriving DecidableEq, Repr

/-- What the bus answers the host's access. -/
inductive Response where
  /-- A register read's value (45_control.md R114). -/
  | data (value : Word)
  /-- A pixel memory read's byte. -/
  | byte (value : Byte)
  /-- A write was taken. -/
  | written
  /-- The error response of 60_exceptions.md R137. -/
  | busError
  deriving DecidableEq, Repr

/-- The errors the engine records (60_exceptions.md R132). -/
inductive EngineError where
  /-- Code 1, R133. -/
  | illegalCommand
  /-- Code 2, R134. -/
  | commandWhileBusy
  /-- Code 3, R135, with the address of the failing access. -/
  | busError (addr : Word)
  deriving DecidableEq, Repr

/-- Why a step has no successor. -/
inductive Fault where
  /-- Raised by the engine's turn in a state whose latch claims more accesses than the operation has: neither the access
  step nor the completion step is enabled (45_control.md R124, R125).  No run from reset reaches such a state.
  Safe: the machine stops where the spec has no step.  Assumption log 13. -/
  | stuckSequencer
  deriving DecidableEq, Repr

/-- Why an instruction has no meaning. -/
inductive Refusal where
  /-- Raised by an arm of `exec` whose instruction has no meaning in this model.  Safe: the run stops. -/
  | notModelled (mnemonic : String)
  deriving DecidableEq, Repr

/-- The whole machine. -/
@[ext]
structure State where
  /-- The parameters of the build and the platform (00_scope.md R14); no step changes them.  Assumption log 1. -/
  build : Build
  /-- `CTRL` (10_state.md R24). -/
  ctrl : Ctrl
  /-- `STATUS` (10_state.md R25). -/
  status : Status
  /-- `SRC_BASE` (10_state.md R29). -/
  srcBase : Word
  /-- `SRC_STRIDE` (10_state.md R29). -/
  srcStride : Word
  /-- `DST_BASE` (10_state.md R29). -/
  dstBase : Word
  /-- `DST_STRIDE` (10_state.md R29). -/
  dstStride : Word
  /-- `ERRADDR` (10_state.md R30). -/
  errAddr : Word
  /-- `L` (10_state.md R32, R33). -/
  latch : Latch
  /-- `S`, the footprint bytes read so far, in the order of the footprint (10_state.md R35). -/
  samples : List Byte
  /-- `I`, the intermediate buffer, row by row (10_state.md R34). -/
  inter : List Byte
  /-- `D`, the destination bytes an averaging operation has read so far, row by row (45_control.md R124). -/
  dest : List Byte
  /-- Pixel memory as the engine sees it (20_memory.md R48, R49): rising addresses, unlisted bytes are 0. -/
  mem : List Host.Cell
  /-- Host writes to pixel memory that the engine cannot see yet (20_memory.md R66).  Assumption log 9. -/
  unseen : List (Word × Byte)
  /-- What has happened to the host's view of pixel memory, latest first, where that view is not coherent
  (20_memory.md R66).  Assumption log 9. -/
  view : List ViewEvent
  /-- The bus's answer to the host's latest access.  Assumption log 8. -/
  response : Option Response
  /-- The host program still to run.  Assumption log 3. -/
  host : List HostStep
  /-- Whose turns come next; with none listed the engine moves while it is busy, then the host.  Assumption log 3. -/
  turns : List Turn
  /-- How many free values have been drawn.  Assumption log 10. -/
  freeCount : Nat
  deriving DecidableEq, Repr

/-- `CTRL` after reset (10_state.md R24). -/
def Ctrl.reset : Ctrl := ⟨false, false⟩

/-- `STATUS` after reset (10_state.md R25). -/
def Status.reset : Status := ⟨false, false, false, 0⟩

/-- The latch after reset: `L.CMD = 0` (10_state.md R32); the rest is unspecified and unobservable, and the model names
a value.  Assumption log 5. -/
def Latch.reset : Latch := ⟨0, 0, 0, 0, 0, .sixtap, false, .g4x4, 0, 0, 0⟩

/-- The machine of a build right after reset (10_state.md R47), with pixel memory unwritten and nothing pending. -/
def State.resetOf (b : Build) : State where
  build := b
  ctrl := Ctrl.reset
  status := Status.reset
  srcBase := 0
  srcStride := 0
  dstBase := 0
  dstStride := 0
  errAddr := 0
  latch := Latch.reset
  samples := []
  inter := []
  dest := []
  mem := []
  unseen := []
  view := []
  response := none
  host := []
  turns := []
  freeCount := 0

/-- The machine right after reset, in the spec's default build with its open parameters open.  Assumption log 2. -/
def State.reset : State := State.resetOf Config.build

end Sys2Proof.Machine
end

