-- ==== Sys2Proof/Machine/Flags.lean ====
section
/-! DEFINITION. The control and status bits: the words software reads, every rule that writes a bit of `STATUS`
(10_state.md R25 to R27), and the interrupt line.  No arithmetic result sets a flag (10_state.md R37). -/

namespace Sys2Proof.Machine

/-- `CTRL` as software reads it: IE_DONE in bit 0, IE_ERR in bit 1, the rest zero (10_state.md R24). -/
def Ctrl.word (c : Ctrl) : Word :=
  (0 : BitVec 30) ++ BitVec.ofBool c.ieErr ++ BitVec.ofBool c.ieDone

/-- `CTRL` after a write of `v`: `v & 3` (45_control.md R116). -/
def Ctrl.ofWord (v : Word) : Ctrl := ⟨v.getLsbD 0, v.getLsbD 1⟩

/-- `STATUS` as software reads it: BUSY, DONE, ERR in bits 0 to 2, ERRCODE in bits 7 to 4, the rest zero
(10_state.md R25). -/
def Status.word (st : Status) : Word :=
  (0 : BitVec 24) ++ st.errCode ++ (0 : BitVec 1) ++ BitVec.ofBool st.err ++ BitVec.ofBool st.done
    ++ BitVec.ofBool st.busy

/-- `STATUS` after the acceptance of a command (45_control.md R120). -/
def Status.accepted : Status := ⟨true, false, false, 0⟩

/-- `STATUS` after the end of an operation: BUSY 0 and DONE 1, the error fields as they were (45_control.md R125). -/
def Status.ended (st : Status) : Status := { st with busy := false, done := true }

/-- `STATUS` after an error with this code is recorded; a later code replaces an earlier one (10_state.md R27). -/
def Status.recorded (st : Status) (code : BitVec 4) : Status := { st with err := true, errCode := code }

/-- `STATUS` after a host write of `v`: bit 1 clears DONE, bit 2 clears ERR and ERRCODE, nothing else is written
(45_control.md R117). -/
def Status.cleared (st : Status) (v : Word) : Status where
  busy := st.busy
  done := st.done && !v.getLsbD 1
  err := st.err && !v.getLsbD 2
  errCode := if v.getLsbD 2 then 0 else st.errCode

/-- The interrupt line, a function of the state (10_state.md R36, 60_exceptions.md R139). -/
def irq (s : State) : Bool := (s.ctrl.ieDone && s.status.done) || (s.ctrl.ieErr && s.status.err)

end Sys2Proof.Machine
end

