-- ==== Sys2Proof/Machine/Operands.lean ====
section
/-! DEFINITION. What a command and a register access name: geometry and taps, block addresses, the footprint, the
access sequence of an operation, and the register map. -/

namespace Sys2Proof.Machine

/-! ### Geometry and taps -/

/-- `W` of a geometry (30_encoding.md R71). -/
def blockWidth : Geometry → Nat
  | .g4x4 => 4
  | .g8x4 => 8
  | .g8x8 => 8
  | .g16x16 => 16

/-- `H` of a geometry (30_encoding.md R71). -/
def blockHeight : Geometry → Nat
  | .g4x4 => 4
  | .g8x4 => 4
  | .g8x8 => 8
  | .g16x16 => 16

/-- `T`, the taps of a family: `2 * SIXTAP_EXTEND` or 2 (30_encoding.md R72). -/
def tapCount (b : Build) : Family → Nat
  | .sixtap => 2 * b.extend.radius
  | .bilin => 2

/-- `c`, the index of the tap aligned with the output: `E - 1` or 0 (10_state.md R40, R44). -/
def centre (b : Build) : Family → Nat
  | .sixtap => b.extend.radius - 1
  | .bilin => 0

/-- `SIXTAP_COEF[p][k]` as the ROM stores it (10_state.md R38); assumption log 21 for a table that breaks R41. -/
def sixtapCoef (b : Build) (p k : Nat) : Tap := (b.coef6.getD p []).getD k 0

/-- `BILIN_COEF[p][k] = (128 - 16 * p, 16 * p)[k]` (10_state.md R43). -/
def bilinCoef (p k : Nat) : Int := if k = 0 then 128 - 16 * p else if k = 1 then 16 * p else 0

/-- `TAPS(fam, p)[k]` (10_state.md R38). -/
def tap (b : Build) (fam : Family) (p : Phase) (k : Nat) : Int :=
  match fam with
  | .sixtap => (sixtapCoef b p.toNat k).toInt
  | .bilin => bilinCoef p.toNat k

/-! ### Addresses -/

/-- `s32(v)` (00_scope.md R11). -/
def s32 (v : Word) : Int := v.toInt

/-- `addr(B, S, r, c) = (B + r * S + c) mod 2^32` on mathematical integers (20_memory.md R51, R50). -/
def blockAddr (base : Word) (stride r c : Int) : Word := BitVec.ofInt 32 (base.toNat + r * stride + c)

/-- `ENGINE_BASE` (20_memory.md R54). -/
def engineBase (b : Build) : Word := b.basePage ++ (0 : BitVec 12)

/-- Whether a bus address lies in the register block `[ENGINE_BASE, ENGINE_BASE + 0xFFF]` (20_memory.md R54). -/
def inBlock (b : Build) (a : Word) : Bool :=
  (engineBase b).toNat ≤ a.toNat && a.toNat ≤ (engineBase b).toNat + 0xFFF

/-- `ADMIT(a, kind)`: the platform's regions, and never the engine's own block (20_memory.md R58). -/
def admitted (b : Build) (a : Word) (kind : AccessKind) : Bool :=
  !inBlock b a && b.regions.any fun g =>
    g.lo.toNat ≤ a.toNat && a.toNat ≤ g.hi.toNat
      && (match kind with | .read => g.reads | .write => g.writes)

/-! ### The access sequence of an operation (20_memory.md R60) -/

/-- One memory access of an operation. -/
inductive Access where
  /-- Phase A: read the source byte at `(r, col)`. -/
  | readSrc (r col : Int)
  /-- Phase B, averaging: read the destination byte at `(y, x)`. -/
  | readDst (y x : Nat)
  /-- Phase B: write the destination byte at `(y, x)`. -/
  | writeDst (y x : Nat)
  deriving DecidableEq, Repr

/-- The address of an access, from the latched bases and strides (20_memory.md R51). -/
def accessAddr (l : Latch) : Access → Word
  | .readSrc r col => blockAddr l.sb (s32 l.ss) r col
  | .readDst y x => blockAddr l.db (s32 l.ds) y x
  | .writeDst y x => blockAddr l.db (s32 l.ds) y x

/-- The kind of an access. -/
def accessKind : Access → AccessKind
  | .readSrc _ _ => .read
  | .readDst _ _ => .read
  | .writeDst _ _ => .write

/-- Rows of the footprint, `H + T - 1` (20_memory.md R56), which is also the height `HI` of the intermediate buffer
(40_filter_datapath.md R90). -/
def footRows (b : Build) (l : Latch) : Nat := blockHeight l.geom + tapCount b l.fam - 1

/-- Columns of the footprint, `W + T - 1` (20_memory.md R56). -/
def footCols (b : Build) (l : Latch) : Nat := blockWidth l.geom + tapCount b l.fam - 1

/-- The integers `lo, lo + 1, ...`, `n` of them. -/
def intRange (lo : Int) (n : Nat) : List Int := (List.range n).map fun i : Nat => lo + i

/-- Phase A: the footprint, row by row, from `-c` on (20_memory.md R60). -/
def phaseA (b : Build) (l : Latch) : List Access :=
  (intRange (-(centre b l.fam : Int)) (footRows b l)).flatMap fun r =>
    (intRange (-(centre b l.fam : Int)) (footCols b l)).map fun col => .readSrc r col

/-- The accesses of phase B at one destination position (20_memory.md R60). -/
def positionAccesses (averaging : Bool) (y x : Nat) : List Access :=
  if averaging then [.readDst y x, .writeDst y x] else [.writeDst y x]

/-- Phase B: the destination, row by row (20_memory.md R60). -/
def phaseB (l : Latch) : List Access :=
  (List.range (blockHeight l.geom)).flatMap fun y =>
    (List.range (blockWidth l.geom)).flatMap fun x => positionAccesses l.avg y x

/-- The accesses of an operation, in order (20_memory.md R60). -/
def accessSequence (b : Build) (l : Latch) : List Access := phaseA b l ++ phaseB l

/-- `N_acc = (H + T - 1) * (W + T - 1) + W * H * (1 + L.AVG)` (20_memory.md R60). -/
def accessCount (b : Build) (l : Latch) : Nat :=
  footRows b l * footCols b l + blockWidth l.geom * blockHeight l.geom * (if l.avg then 2 else 1)

/-! ### The register map (10_state.md R18) -/

/-- What an offset of the register block names. -/
inductive Reg where
  | id
  | config
  | ctrl
  | status
  | cmd
  | srcBase
  | srcStride
  | dstBase
  | dstStride
  | errAddr
  /-- Word `k` of phase `p` of the six-tap window (10_state.md R46). -/
  | coef6 (p k : Nat)
  /-- Word `k` of phase `p` of the bilinear window (10_state.md R46). -/
  | coefB (p k : Nat)
  /-- No register (10_state.md R20). -/
  | unnamed
  deriving DecidableEq, Repr

/-- The register a 4-byte aligned offset names (10_state.md R18, R46). -/
def regAt (off : BitVec 12) : Reg :=
  let o := off.toNat
  if o = 0x000 then .id
  else if o = 0x004 then .config
  else if o = 0x008 then .ctrl
  else if o = 0x00C then .status
  else if o = 0x010 then .cmd
  else if o = 0x014 then .srcBase
  else if o = 0x018 then .srcStride
  else if o = 0x01C then .dstBase
  else if o = 0x020 then .dstStride
  else if o = 0x024 then .errAddr
  else if 0x100 ≤ o ∧ o ≤ 0x2FC then .coef6 ((o - 0x100) / 0x40) ((o - 0x100) % 0x40 / 4)
  else if 0x300 ≤ o ∧ o ≤ 0x33C then .coefB ((o - 0x300) / 8) ((o - 0x300) % 8 / 4)
  else .unnamed

/-- `CONFIG` (10_state.md R23): TAPS6, AVG, VARIANT, TAPSB. -/
def configWord (b : Build) : Word :=
  (0 : BitVec 12) ++ (2 : BitVec 4) ++ b.variant ++ (0 : BitVec 3) ++ BitVec.ofBool b.avgPresent
    ++ BitVec.ofNat 4 (2 * b.extend.radius)

/-- A word of the six-tap window: the tap, sign-extended, for `k < T6`, else 0 (10_state.md R46). -/
def coef6Word (b : Build) (p k : Nat) : Word :=
  if k < 2 * b.extend.radius then (sixtapCoef b p k).signExtend 32 else 0

/-- A word of the bilinear window (10_state.md R46). -/
def coefBWord (p k : Nat) : Word := BitVec.ofInt 32 (bilinCoef p k)

end Sys2Proof.Machine
end

