-- ==== Sys2Proof/Machine/Ops.lean ====
section
/-! DEFINITION. The named operations over memory and registers: pixel memory in its canonical form, the recording of an
error and its acknowledgement, the bus's answer, free values and reset. -/

namespace Sys2Proof.Machine

/-! ### Pixel memory (20_memory.md R49, R52) -/

/-- What a byte of pixel memory that is not listed holds.  DESIGN CHOICE, unsafe: assumption log 7. -/
def unlistedByte : Byte := 0

/-- The byte listed at an address, or the unlisted one. -/
def lookupCell : List Host.Cell → Nat → Byte
  | [], _ => unlistedByte
  | (a, v) :: rest, n => if a = n then v else lookupCell rest n

/-- Put a byte at an address and keep the canonical form: rising addresses, no entry that an absent one would equal. -/
def storeCell : List Host.Cell → Nat → Byte → List Host.Cell
  | [], n, w => if w = unlistedByte then [] else [(n, w)]
  | (a, v) :: rest, n, w =>
    if n < a then (if w = unlistedByte then (a, v) :: rest else (n, w) :: (a, v) :: rest)
    else if n = a then (if w = unlistedByte then rest else (n, w) :: rest)
    else (a, v) :: storeCell rest n w

/-- The canonical form from a least address on: addresses rise and fit 32 bits, and no entry is the unlisted byte. -/
def cellsWf : Nat → List Host.Cell → Bool
  | _, [] => true
  | lo, (a, v) :: rest => lo ≤ a && a < 2 ^ 32 && v != unlistedByte && cellsWf (a + 1) rest

/-- Pixel memory is in its canonical form. -/
def memoryWf (m : List Host.Cell) : Bool := cellsWf 0 m

/-- `MemRead(a, 1)` (20_memory.md R52). -/
def memRead (m : List Host.Cell) (a : Word) : Byte := lookupCell m a.toNat

/-- `MemWrite(a, 1, v)` (20_memory.md R52). -/
def memWrite (m : List Host.Cell) (a : Word) (v : Byte) : List Host.Cell := storeCell m a.toNat v

/-! ### Errors (60_exceptions.md R132 to R135, R143, R145) -/

/-- `ERRCODE` of an error (60_exceptions.md R132). -/
def errorCode : EngineError → BitVec 4
  | .illegalCommand => 1
  | .commandWhileBusy => 2
  | .busError _ => 3

/-- Record an error: `ERR` and `ERRCODE` always; a bus error also records its address and ends the operation
(60_exceptions.md R133 to R135).  Nothing else is saved and nothing transfers control (R143).  `L.K` stays at the failing
access; assumption log 12. -/
def raise (e : EngineError) (s : State) : State :=
  match e with
  | .illegalCommand => { s with status := s.status.recorded (errorCode e) }
  | .commandWhileBusy => { s with status := s.status.recorded (errorCode e) }
  | .busError a => { s with errAddr := a, status := (s.status.recorded (errorCode e)).ended }

/-- The host's acknowledgement, which is all the return from an error there is: a write of `v` to `STATUS`
(60_exceptions.md R145, 45_control.md R117). -/
def acknowledge (v : Word) (s : State) : State := { s with status := s.status.cleared v }

/-! ### The bus's answer, free values, reset -/

/-- Answer the host's access. -/
def respond (r : Response) (s : State) : State := { s with response := some r }

/-- A free byte and the state in which it has been drawn.  Assumption log 9 and 10. -/
def drawByte (s : State) : Byte × State := (Config.freeByte s.freeCount, { s with freeCount := s.freeCount + 1 })

/-- Reset: every piece of engine state takes its reset value, an operation in flight is abandoned where it stands, and
pixel memory is untouched (70_reset_and_hazards.md R153, R155).  What is outside the engine goes on. -/
def resetEngine (s : State) : State :=
  { State.resetOf s.build with
    mem := s.mem
    unseen := s.unseen
    view := s.view
    response := s.response
    host := s.host
    turns := s.turns
    freeCount := s.freeCount }

/-! ### A host view that is not coherent (20_memory.md R66) -/

/-- The platform makes the `n`-th pending host write visible to the engine (20_memory.md R66).  Earlier pending writes to
the same byte go with it, so that the engine never sees one host's writes to a byte out of order (R64 (e)).
Assumption log 9.  The write is not noted in `view`, even if it stands for another engine instance's (60_exceptions.md
R151): a host load of a byte maintained earlier then reads it.  DESIGN CHOICE, unsafe: assumption log 15. -/
def publish (n : Nat) (s : State) : State :=
  match s.unseen[n]? with
  | some (a, v) =>
    { s with
      mem := memWrite s.mem a v
      unseen := (s.unseen.take n).filter (fun w => w.1 != a) ++ s.unseen.drop (n + 1) }
  | none => s

/-- The platform maintains a range of pixel memory: from here on the host sees the engine's writes so far there
(20_memory.md R66, R64 (d)).  Assumption log 9. -/
def maintain (lo hi : Word) (s : State) : State := { s with view := .maintained lo hi :: s.view }

/-- The host's view after the engine has written a byte: on a coherent platform there is nothing to note. -/
def noteWritten (b : Build) (a : Word) (view : List ViewEvent) : List ViewEvent :=
  if b.hostCoherent then view else .written a :: view

/-- Whether the latest event at an address is maintenance: nothing the engine has written there since can be missing
from the host's view. -/
def maintainedAt : List ViewEvent → Word → Bool
  | [], _ => false
  | .maintained lo hi :: rest, a => (lo.toNat ≤ a.toNat && a.toNat ≤ hi.toNat) || maintainedAt rest a
  | .written a' :: rest, a => a != a' && maintainedAt rest a

/-- Whether a host load of a byte reads pixel memory: always on a coherent platform, else after maintenance
(20_memory.md R66, R64 (d)) and with no write of the host's own to that byte still pending. -/
def hostSees (s : State) (a : Word) : Bool :=
  s.build.hostCoherent || (maintainedAt s.view a && s.unseen.all fun w => w.1 != a)

end Sys2Proof.Machine
end

