-- ==== Sys2Proof/Machine/Control.lean ====
section
/-! DEFINITION. Command issue (45_control.md R119 to R123) and register reads (R114).  `nop` has its meaning here. -/

namespace Sys2Proof.Machine

/-- Acceptance of a legal command word `w` (45_control.md R120): the latch takes the word, what it decodes to and the
operand registers, `L.K` is 0, BUSY rises and DONE, ERR and ERRCODE are cleared.  The buffers of the new operation hold
nothing yet; assumption log 6. -/
def accept (fam : Family) (averaging : Bool) (geom : Geometry) (xph yph : Phase) (w : Word) (s : State) : State :=
  { s with
    latch :=
      { cmd := w, sb := s.srcBase, ss := s.srcStride, db := s.dstBase, ds := s.dstStride
        fam := fam, avg := averaging, geom := geom, xph := xph, yph := yph, k := 0 }
    status := Status.accepted
    samples := []
    inter := []
    dest := [] }

/-- A prediction command written to `CMD` (45_control.md R119): code 2 while busy, code 1 for an averaging command in a
build without it (41_sixtap.md R105), else acceptance. -/
def issue (fam : Family) (averaging : Bool) (geom : Geometry) (xph yph : Phase) (w : Word) (s : State) :
    Host.Outcome State Fault Refusal :=
  if s.status.busy then .next (raise .commandWhileBusy s)
  else if averaging && !s.build.avgPresent then .next (raise .illegalCommand s)
  else .next (accept fam averaging geom xph yph w s)

/-- An illegal word written to `CMD`: the busy test comes first (45_control.md R119, R122, R123, 60_exceptions.md
R141). -/
def issueIllegal (s : State) : State :=
  if s.status.busy then raise .commandWhileBusy s else raise .illegalCommand s

/-- `nop`: nothing, whether or not an operation runs (45_control.md R121). -/
def execNop (s : State) : Host.Outcome State Fault Refusal := .next s

/-- The value of a register (10_state.md R20 to R30, R46). -/
def readReg (s : State) : Reg → Word
  | .id => 0x53504946
  | .config => configWord s.build
  | .ctrl => s.ctrl.word
  | .status => s.status.word
  | .cmd => s.latch.cmd
  | .srcBase => s.srcBase
  | .srcStride => s.srcStride
  | .dstBase => s.dstBase
  | .dstStride => s.dstStride
  | .errAddr => s.errAddr
  | .coef6 p k => coef6Word s.build p k
  | .coefB p k => coefBWord p k
  | .unnamed => 0

/-- Whether the bus refuses a register access: not 32 bits wide, or not 4-byte aligned (20_memory.md R55). -/
def badAccess (off : BitVec 12) (width : Nat) : Bool := width != 32 || off.toNat % 4 != 0

/-- `HostRead(o, width)` (45_control.md R114). -/
def hostRead (off : BitVec 12) (width : Nat) (s : State) : Response :=
  if badAccess off width then .busError else .data (readReg s (regAt off))

end Sys2Proof.Machine
end

