-- ==== Sys2Proof/Machine/Bilinear.lean ====
section
/-! DEFINITION. The bilinear commands (42_bilinear.md R107 to R113).  A command's own step is its issue, which latches
the family, the variant, the geometry and the phases; the accesses of `BilinOp(W, H, AVG)` are the engine's next steps,
one each (R107, 45_control.md R120, R124; assumption log 14). -/

namespace Sys2Proof.Machine

/-- `bilin.4x4`: `BilinOp(4, 4, 0)` (42_bilinear.md R108). -/
def execBilin4x4 (xph yph : Phase) (s : State) : Host.Outcome State Fault Refusal :=
  issue .bilin false .g4x4 xph yph (encode (.bilin4x4 xph yph)) s

/-- `bilin.8x4`: `BilinOp(8, 4, 0)` (42_bilinear.md R109). -/
def execBilin8x4 (xph yph : Phase) (s : State) : Host.Outcome State Fault Refusal :=
  issue .bilin false .g8x4 xph yph (encode (.bilin8x4 xph yph)) s

/-- `bilin.8x8`: `BilinOp(8, 8, 0)` (42_bilinear.md R110). -/
def execBilin8x8 (xph yph : Phase) (s : State) : Host.Outcome State Fault Refusal :=
  issue .bilin false .g8x8 xph yph (encode (.bilin8x8 xph yph)) s

/-- `bilin.16x16`: `BilinOp(16, 16, 0)` (42_bilinear.md R111). -/
def execBilin16x16 (xph yph : Phase) (s : State) : Host.Outcome State Fault Refusal :=
  issue .bilin false .g16x16 xph yph (encode (.bilin16x16 xph yph)) s

/-- `bilin.avg.8x8`: `BilinOp(8, 8, 1)` (42_bilinear.md R112). -/
def execBilinAvg8x8 (xph yph : Phase) (s : State) : Host.Outcome State Fault Refusal :=
  issue .bilin true .g8x8 xph yph (encode (.bilinAvg8x8 xph yph)) s

/-- `bilin.avg.16x16`: `BilinOp(16, 16, 1)` (42_bilinear.md R113). -/
def execBilinAvg16x16 (xph yph : Phase) (s : State) : Host.Outcome State Fault Refusal :=
  issue .bilin true .g16x16 xph yph (encode (.bilinAvg16x16 xph yph)) s

end Sys2Proof.Machine
end

