-- ==== Sys2Proof/Machine/Sixtap.lean ====
section
/-! DEFINITION. The six-tap commands (41_sixtap.md R100 to R106).  A command's own step is its issue, which latches the
family, the variant, the geometry and the phases; the accesses of `SixtapOp(W, H, AVG)` are the engine's next steps, one
each (R100, 45_control.md R120, R124; assumption log 14). -/

namespace Sys2Proof.Machine

/-- `sixtap.4x4`: `SixtapOp(4, 4, 0)` (41_sixtap.md R101). -/
def execSixtap4x4 (xph yph : Phase) (s : State) : Host.Outcome State Fault Refusal :=
  issue .sixtap false .g4x4 xph yph (encode (.sixtap4x4 xph yph)) s

/-- `sixtap.8x4`: `SixtapOp(8, 4, 0)` (41_sixtap.md R102). -/
def execSixtap8x4 (xph yph : Phase) (s : State) : Host.Outcome State Fault Refusal :=
  issue .sixtap false .g8x4 xph yph (encode (.sixtap8x4 xph yph)) s

/-- `sixtap.8x8`: `SixtapOp(8, 8, 0)` (41_sixtap.md R103). -/
def execSixtap8x8 (xph yph : Phase) (s : State) : Host.Outcome State Fault Refusal :=
  issue .sixtap false .g8x8 xph yph (encode (.sixtap8x8 xph yph)) s

/-- `sixtap.16x16`: `SixtapOp(16, 16, 0)` (41_sixtap.md R104). -/
def execSixtap16x16 (xph yph : Phase) (s : State) : Host.Outcome State Fault Refusal :=
  issue .sixtap false .g16x16 xph yph (encode (.sixtap16x16 xph yph)) s

/-- `sixtap.avg.8x8`: `SixtapOp(8, 8, 1)` (41_sixtap.md R105). -/
def execSixtapAvg8x8 (xph yph : Phase) (s : State) : Host.Outcome State Fault Refusal :=
  issue .sixtap true .g8x8 xph yph (encode (.sixtapAvg8x8 xph yph)) s

/-- `sixtap.avg.16x16`: `SixtapOp(16, 16, 1)` (41_sixtap.md R106). -/
def execSixtapAvg16x16 (xph yph : Phase) (s : State) : Host.Outcome State Fault Refusal :=
  issue .sixtap true .g16x16 xph yph (encode (.sixtapAvg16x16 xph yph)) s

end Sys2Proof.Machine
end

