-- ==== Sys2Proof/Machine/Dispatch.lean ====
section
/-! DEFINITION. The meaning of every command: one arm per constructor of `Instr`. -/

namespace Sys2Proof.Machine

/-- What the write of a legal command word to `CMD` does (45_control.md R119 to R123). -/
def exec (i : Instr) (s : State) : Host.Outcome State Fault Refusal :=
  match i with
  | .sixtap4x4 xph yph => Sys2Proof.Machine.execSixtap4x4 xph yph s
  | .sixtap8x4 xph yph => Sys2Proof.Machine.execSixtap8x4 xph yph s
  | .sixtap8x8 xph yph => Sys2Proof.Machine.execSixtap8x8 xph yph s
  | .sixtap16x16 xph yph => Sys2Proof.Machine.execSixtap16x16 xph yph s
  | .sixtapAvg8x8 xph yph => Sys2Proof.Machine.execSixtapAvg8x8 xph yph s
  | .sixtapAvg16x16 xph yph => Sys2Proof.Machine.execSixtapAvg16x16 xph yph s
  | .bilin4x4 xph yph => Sys2Proof.Machine.execBilin4x4 xph yph s
  | .bilin8x4 xph yph => Sys2Proof.Machine.execBilin8x4 xph yph s
  | .bilin8x8 xph yph => Sys2Proof.Machine.execBilin8x8 xph yph s
  | .bilin16x16 xph yph => Sys2Proof.Machine.execBilin16x16 xph yph s
  | .bilinAvg8x8 xph yph => Sys2Proof.Machine.execBilinAvg8x8 xph yph s
  | .bilinAvg16x16 xph yph => Sys2Proof.Machine.execBilinAvg16x16 xph yph s
  | .nop => Sys2Proof.Machine.execNop s

end Sys2Proof.Machine
end

