-- ==== Sys2Proof/Machine/Filter.lean ====
section
/-! DEFINITION. The filter datapath (40_filter_datapath.md): rounding, clamping, the two passes and the averaging step,
on mathematical integers (R86), with 8-bit storage between the passes (10_state.md R34). -/

namespace Sys2Proof.Machine

/-- `Round7(acc) = (acc + 64) >>a 7` (40_filter_datapath.md R84). -/
def round7 (acc : Int) : Int := (acc + 64) >>> (7 : Nat)

/-- `Clamp8(v)` (40_filter_datapath.md R85). -/
def clamp8 (v : Int) : Int := min (max v 0) 255

/-- `sum over k in 0 .. n-1 of f k`. -/
def sumTo : Nat → (Nat → Int) → Int
  | 0, _ => 0
  | n + 1, f => sumTo n f + f n

/-- What a pass does to an accumulated sum: round, and clamp in the six-tap family only (40_filter_datapath.md R88, R89,
R92, R93). -/
def stage (fam : Family) (acc : Int) : Int :=
  match fam with
  | .sixtap => clamp8 (round7 acc)
  | .bilin => round7 acc

/-- An 8-bit store of an intermediate or output value (10_state.md R34); exact, since every such value is in [0, 255]
(40_filter_datapath.md R88, R89, R98). -/
def toByte (v : Int) : Byte := BitVec.ofInt 8 v

/-- The footprint byte `S[r][col]` (10_state.md R35), from the bytes read in the footprint's order. -/
def sampleAt (b : Build) (l : Latch) (samples : List Byte) (r col : Int) : Int :=
  (samples.getD ((r + centre b l.fam).toNat * footCols b l + (col + centre b l.fam).toNat) 0).toNat

/-- The horizontal pass's value at `(i, j)`: intermediate row `i` is source row `i - c` (40_filter_datapath.md R87). -/
def hValue (b : Build) (fam : Family) (p : Phase) (src : Int → Int → Int) (i j : Nat) : Int :=
  stage fam (sumTo (tapCount b fam) fun k =>
    tap b fam p k * src (i - centre b fam) (j + k - centre b fam))

/-- `HPass(fam, p, S)`: the whole intermediate buffer, row by row (40_filter_datapath.md R87, R90). -/
def hPass (b : Build) (l : Latch) (samples : List Byte) : List Byte :=
  (List.range (footRows b l)).flatMap fun i =>
    (List.range (blockWidth l.geom)).map fun j =>
      toByte (hValue b l.fam l.xph (sampleAt b l samples) i j)

/-- The intermediate buffer's entry `I[i][j]` (10_state.md R34). -/
def interAt (l : Latch) (inter : List Byte) (i j : Nat) : Int :=
  (inter.getD (i * blockWidth l.geom + j) 0).toNat

/-- The vertical pass's value at `(y, x)`, from the intermediate rows `y` to `y + T - 1` (40_filter_datapath.md R91). -/
def vValue (b : Build) (fam : Family) (q : Phase) (buf : Nat → Nat → Int) (y x : Nat) : Int :=
  stage fam (sumTo (tapCount b fam) fun k => tap b fam q k * buf (y + k) x)

/-- `AVG(v, d) = (v + d + 1) >> 1` (40_filter_datapath.md R94). -/
def average (v d : Int) : Int := (v + d + 1) >>> (1 : Nat)

/-- `P[y][x]` of the operation in flight, from its intermediate buffer (40_filter_datapath.md R95). -/
def filtered (s : State) (y x : Nat) : Int :=
  vValue s.build s.latch.fam s.latch.yph (interAt s.latch s.inter) y x

/-- The existing destination byte `D[y][x]` this operation has read (40_filter_datapath.md R95). -/
def destAt (s : State) (y x : Nat) : Int := (s.dest.getD (y * blockWidth s.latch.geom + x) 0).toNat

/-- `O[y][x]`, the byte the operation in flight writes at `(y, x)` (40_filter_datapath.md R95). -/
def outputByte (s : State) (y x : Nat) : Byte :=
  toByte (if s.latch.avg then average (filtered s y x) (destAt s y x) else filtered s y x)

end Sys2Proof.Machine
end

