-- ==== Sys2Proof/Machine/Engine.lean ====
section
/-! DEFINITION. The engine sequencer's steps (45_control.md R124, R125): one memory access a step, then completion. -/

namespace Sys2Proof.Machine

/-- Record a footprint byte in `S`.  The one that completes the footprint lets the horizontal pass fill `I`
(20_memory.md R60).  Assumption log 6. -/
def recordSample (v : Byte) (s : State) : State :=
  { s with
    samples := s.samples ++ [v]
    inter :=
      if (s.samples ++ [v]).length = footRows s.build s.latch * footCols s.build s.latch then
        hPass s.build s.latch (s.samples ++ [v])
      else s.inter }

/-- Record an existing destination byte in `D` (45_control.md R124). -/
def recordDest (v : Byte) (s : State) : State := { s with dest := s.dest ++ [v] }

/-- Write an output byte (20_memory.md R60); a host whose view is not coherent need not see it yet (R66). -/
def storeOutput (a : Word) (v : Byte) (s : State) : State :=
  { s with mem := memWrite s.mem a v, view := noteWritten s.build a s.view }

/-- `L.K <- L.K + 1` (45_control.md R124). -/
def countAccess (s : State) : State := { s with latch := { s.latch with k := s.latch.k + 1 } }

/-- An admitted access: a read is recorded, a write stores `O[y][x]` (45_control.md R124, 20_memory.md R60). -/
def performAccess (a : Access) (s : State) : State :=
  match a with
  | .readSrc _ _ => countAccess (recordSample (memRead s.mem (accessAddr s.latch a)) s)
  | .readDst _ _ => countAccess (recordDest (memRead s.mem (accessAddr s.latch a)) s)
  | .writeDst y x => countAccess (storeOutput (accessAddr s.latch a) (outputByte s y x) s)

/-- The access step (45_control.md R124): an access the platform does not admit is a bus error, has no effect on memory
and ends the operation (60_exceptions.md R135, 20_memory.md R58). -/
def accessStep (a : Access) (s : State) : State :=
  if admitted s.build (accessAddr s.latch a) (accessKind a) then performAccess a s
  else raise (.busError (accessAddr s.latch a)) s

/-- The completion step (45_control.md R125). -/
def completionStep (s : State) : State := { s with status := s.status.ended }

/-- The engine's turn: idle it has no step; busy it performs access number `L.K`, or completes when all are done
(45_control.md R124, R125). -/
def engineStep (s : State) : Host.Outcome State Fault Refusal :=
  if s.status.busy then
    match (accessSequence s.build s.latch)[s.latch.k]? with
    | some a => .next (accessStep a s)
    | none =>
      if s.latch.k = accessCount s.build s.latch then .next (completionStep s) else .fault .stuckSequencer
  else .next s

end Sys2Proof.Machine
end

