-- ==== Sys2Proof/Machine/Bus.lean ====
section
/-! DEFINITION. The agents' turns: the host's register and memory accesses (45_control.md R115 to R119, R127,
30_encoding.md R83), the engine's step, reset, and which of them comes next. -/

namespace Sys2Proof.Machine

/-- A write of `v` to `CMD`: a legal command runs its meaning, an illegal word records its error (45_control.md
R119). -/
def writeCmd (v : Word) (s : State) : Host.Outcome State Fault Refusal :=
  match decodeWord s.build.avgPresent v with
  | .legal i => exec i s
  | .illegal _ => .next (issueIllegal s)

/-- A write of `v` to a register (45_control.md R115 to R119); a write to a read-only register, a coefficient window or
an unnamed offset is ignored (R127). -/
def writeReg (r : Reg) (v : Word) (s : State) : Host.Outcome State Fault Refusal :=
  match r with
  | .ctrl => .next { s with ctrl := Ctrl.ofWord v }
  | .status => .next (acknowledge v s)
  | .cmd => writeCmd v s
  | .srcBase => .next { s with srcBase := v }
  | .srcStride => .next { s with srcStride := v }
  | .dstBase => .next { s with dstBase := v }
  | .dstStride => .next { s with dstStride := v }
  | .id => .next s
  | .config => .next s
  | .errAddr => .next s
  | .coef6 _ _ => .next s
  | .coefB _ _ => .next s
  | .unnamed => .next s

/-- `HostWrite(o, width, v)` (45_control.md R115). -/
def hostWrite (off : BitVec 12) (width : Nat) (v : Word) (s : State) : Host.Outcome State Fault Refusal :=
  if badAccess off width then .next (respond .busError s) else writeReg (regAt off) v (respond .written s)

/-- A host byte load from pixel memory (30_encoding.md R83).  A byte access in the register block gets an error response
(20_memory.md R55); on a platform whose host view is not coherent the byte is free until maintenance (R66).
Assumption log 9 and 19. -/
def hostMemRead (a : Word) (s : State) : State :=
  if inBlock s.build a then respond .busError s
  else if hostSees s a then respond (.byte (memRead s.mem a)) s
  else respond (.byte (drawByte s).1) (drawByte s).2

/-- A host byte store to pixel memory (30_encoding.md R83).  On a platform whose host view is not coherent the engine
sees it only once the platform publishes it (20_memory.md R66).  Assumption log 9 and 19. -/
def hostMemWrite (a : Word) (v : Byte) (s : State) : State :=
  if inBlock s.build a then respond .busError s
  else if s.build.hostCoherent then respond .written { s with mem := memWrite s.mem a v }
  else respond .written { s with unseen := s.unseen ++ [(a, v)] }

/-- One iteration of `poll`: read `STATUS`, and stay while `BUSY = 1` (30_encoding.md R83). -/
def pollStep (s : State) : State :=
  if s.status.busy then respond (.data s.status.word) { s with host := .poll :: s.host }
  else respond (.data s.status.word) s

/-- One step of the host's program. -/
def hostStep (h : HostStep) (s : State) : Host.Outcome State Fault Refusal :=
  match h with
  | .rd off width => .next (respond (hostRead off width s) s)
  | .wr off width v => hostWrite off width v s
  | .poll => .next (pollStep s)
  | .memRb a => .next (hostMemRead a s)
  | .memWb a v => .next (hostMemWrite a v s)

/-- The host's turn: the next step of its program, if there is one. -/
def hostTurn (s : State) : Host.Outcome State Fault Refusal :=
  match s.host with
  | [] => .next s
  | h :: rest => hostStep h { s with host := rest }

/-- One agent's turn (00_scope.md R13). -/
def takeTurn (t : Turn) (s : State) : Host.Outcome State Fault Refusal :=
  match t with
  | .host => hostTurn s
  | .engine => engineStep s
  | .reset => .next (resetEngine s)
  | .publish n => .next (publish n s)
  | .maintain lo hi => .next (maintain lo hi s)

/-- The next step: the first listed turn; with none listed, the engine while it is busy (the fairness of 45_control.md
R124), else the host.  Assumption log 3. -/
def advance (s : State) : Host.Outcome State Fault Refusal :=
  match s.turns with
  | t :: rest => takeTurn t { s with turns := rest }
  | [] => if s.status.busy then engineStep s else hostTurn s

/-- The offset of `CMD` (10_state.md R18). -/
def cmdOffset : BitVec 12 := 0x010

/-- `wrcmd <command>` (30_encoding.md R83). -/
def wrcmd (i : Instr) : HostStep := .wr cmdOffset 32 (encode i)

/-- Put the write of a command word first among what the host does, and give the host the next turn. -/
def placeCommand (w : Word) (s : State) : State :=
  { s with host := .wr cmdOffset 32 w :: s.host, turns := .host :: s.turns }

end Sys2Proof.Machine
end

