-- ==== Sys2Proof/Machine/Step.lean ====
section
/-! DEFINITION. One step of the machine, and the placing of a command word where the next step takes it. -/

namespace Sys2Proof.Machine

/-- One step of the machine (00_scope.md R13). -/
def step (s : State) : Host.Outcome State Fault Refusal := advance s

/-- The state in which the next step writes the command word `w` to `CMD`: that is where the engine takes a command from
(20_memory.md R67).  Assumption log 4. -/
def State.withFetchWord (s : State) (nbits w : Nat) : State := placeCommand (BitVec.ofNat 32 (w % 2 ^ nbits)) s

end Sys2Proof.Machine
end

