-- ==== Sys2Proof/Safety.lean ====
section
/-! DEFINITION. The terms claims are stated in: which states a run can be in, and what a whole operation does to pixel
memory when it is read as one function (45_control.md R131, 60_exceptions.md R144). -/

namespace Sys2Proof.Machine

/-! ### Legal states -/

/-- `STATUS` as the engine leaves it: `ERRCODE` is one of 0 to 3 and is 0 exactly when `ERR` is 0; a busy engine shows no
`DONE`, and of the codes at most 2 (10_state.md R26 R27, 60_exceptions.md R136 R142). -/
def statusLegal (st : Status) : Bool :=
  (st.err == (st.errCode != 0)) && decide (st.errCode.toNat ≤ 3)
    && (!st.busy || (!st.done && (st.errCode == 0 || st.errCode == 2)))

/-- The latch that acceptance of the word `w` takes in the state `s`: the operand registers, and the fields of `w`
(10_state.md R32, 45_control.md R120). -/
def latchOf (s : State) (w : Word) : Latch where
  cmd := w
  sb := s.srcBase
  ss := s.srcStride
  db := s.dstBase
  ds := s.dstStride
  fam := familyOf (fieldFam w)
  avg := fieldAvg w
  geom := geometryOf (fieldSz w)
  xph := fieldXph w
  yph := fieldYph w
  k := 0

/-- The word is a prediction command of this build (30_encoding.md R76). -/
def isPredict (avgPresent : Bool) (w : Word) : Bool :=
  match decodeWord avgPresent w with
  | .legal .nop => false
  | .legal _ => true
  | .illegal _ => false

/-- `L.CMD` is 0 or a command that was legal, and while an operation runs the latched fields are what `L.CMD` decodes
to (10_state.md R28, R32). -/
def latchLegal (s : State) : Bool :=
  (s.latch.cmd == 0 || isPredict s.build.avgPresent s.latch.cmd)
    && (!s.status.busy ||
      (isPredict s.build.avgPresent s.latch.cmd
        && s.latch.fam == familyOf (fieldFam s.latch.cmd)
        && s.latch.avg == fieldAvg s.latch.cmd
        && s.latch.geom == geometryOf (fieldSz s.latch.cmd)
        && s.latch.xph == fieldXph s.latch.cmd
        && s.latch.yph == fieldYph s.latch.cmd))

/-- How many accesses phase A has (20_memory.md R56, R60). -/
def footCount (b : Build) (l : Latch) : Nat := footRows b l * footCols b l

/-- While an operation runs, `L.K` is at most `N_acc` and each buffer holds exactly what the accesses done so far have
put there (10_state.md R33 to R35; when a buffer is filled is the model's choice, assumption log 6). -/
def progressLegal (s : State) : Bool :=
  !s.status.busy ||
    (decide (s.latch.k ≤ accessCount s.build s.latch)
      && s.samples.length == min s.latch.k (footCount s.build s.latch)
      && s.inter.length ==
          (if s.latch.k < footCount s.build s.latch then 0 else footRows s.build s.latch * blockWidth s.latch.geom)
      && s.dest.length == (if s.latch.avg then (s.latch.k - footCount s.build s.latch + 1) / 2 else 0))

/-- What every reachable state satisfies.  The canonical form of memory is assumption log 7's choice, the filling of the
buffers assumption log 6's. -/
def machineLegal (s : State) : Bool :=
  s.build.legal && memoryWf s.mem && statusLegal s.status && latchLegal s && progressLegal s

/-- No agent but the engine has a step pending. -/
def quiet (s : State) : Bool := s.host.isEmpty && s.turns.isEmpty

/-- Every access of the operation is admitted (45_control.md R129). -/
def allAdmitted (b : Build) (l : Latch) : Bool :=
  (accessSequence b l).all fun a => admitted b (accessAddr l a) (accessKind a)

/-! ### A whole operation as one function -/

/-- The source byte of position `(r, col)` in a pixel memory (20_memory.md R51). -/
def sourceByte (m : List Host.Cell) (l : Latch) (r col : Int) : Int :=
  (memRead m (blockAddr l.sb (s32 l.ss) r col)).toNat

/-- `P[y][x]` of `Predict` as a function of the source samples, on mathematical integers with no storage in between
(40_filter_datapath.md R95, R86). -/
def predictPixel (b : Build) (fam : Family) (xph yph : Phase) (src : Int → Int → Int) (y x : Nat) : Int :=
  vValue b fam yph (hValue b fam xph src) y x

/-- The destination positions, row by row (20_memory.md R57, R60). -/
def positions (l : Latch) : List (Nat × Nat) :=
  (List.range (blockHeight l.geom)).flatMap fun y => (List.range (blockWidth l.geom)).map fun x => (y, x)

/-- The address of a destination position (20_memory.md R57). -/
def destAddr (l : Latch) (p : Nat × Nat) : Word := blockAddr l.db (s32 l.ds) p.1 p.2

/-- `O[y][x]`, given the source samples and the byte the destination holds (40_filter_datapath.md R95). -/
def outputOf (b : Build) (l : Latch) (src : Int → Int → Int) (p : Nat × Nat) (old : Byte) : Byte :=
  toByte
    (if l.avg then average (predictPixel b l.fam l.xph l.yph src p.1 p.2) old.toNat
     else predictPixel b l.fam l.xph l.yph src p.1 p.2)

/-- Phase B at one position (20_memory.md R60). -/
def storePosition (b : Build) (l : Latch) (src : Int → Int → Int) (m : List Host.Cell) (p : Nat × Nat) :
    List Host.Cell :=
  memWrite m (destAddr l p) (outputOf b l src p (memRead m (destAddr l p)))

/-- How many destination positions are written once `n` accesses are done. -/
def positionsDone (b : Build) (l : Latch) (n : Nat) : Nat := (n - footCount b l) / (if l.avg then 2 else 1)

/-- Pixel memory after the first `j` destination positions of an operation that found `m` there. -/
def memoryAtPosition (b : Build) (l : Latch) (m : List Host.Cell) (j : Nat) : List Host.Cell :=
  ((positions l).take j).foldl (storePosition b l (sourceByte m l)) m

/-- Pixel memory after the first `n` accesses of an operation that found `m` there (60_exceptions.md R144). -/
def memoryAfter (b : Build) (l : Latch) (m : List Host.Cell) (n : Nat) : List Host.Cell :=
  memoryAtPosition b l m (positionsDone b l n)

/-- The host's view after the first `n` accesses of an operation (20_memory.md R66). -/
def viewAfter (b : Build) (l : Latch) (view : List ViewEvent) (n : Nat) : List ViewEvent :=
  ((positions l).take (positionsDone b l n)).foldl (fun v p => noteWritten b (destAddr l p) v) view

/-- Pixel memory after a whole operation that found `m` there (45_control.md R131). -/
def operationMemory (b : Build) (l : Latch) (m : List Host.Cell) : List Host.Cell :=
  (positions l).foldl (storePosition b l (sourceByte m l)) m

/-- The sub-block of geometry `g` at sub-block row `i` and column `j`: bases offset by its position, the rest as it is
(40_filter_datapath.md R99). -/
def subBlock (l : Latch) (g : Geometry) (i j : Nat) : Latch :=
  { l with
    geom := g
    sb := blockAddr l.sb (s32 l.ss) ((i * blockHeight g : Nat) : Int) ((j * blockWidth g : Nat) : Int)
    db := blockAddr l.db (s32 l.ds) ((i * blockHeight g : Nat) : Int) ((j * blockWidth g : Nat) : Int) }

/-- The sub-blocks of geometry `g` that make up a 16x16 block, row by row (40_filter_datapath.md R99). -/
def subBlocks (l : Latch) (g : Geometry) : List Latch :=
  (List.range (16 / blockHeight g)).flatMap fun i => (List.range (16 / blockWidth g)).map fun j => subBlock l g i j

/-! ### What software can see -/

/-- The state with everything no rule lets anyone observe while the engine is idle put to one value: the latch but
`L.CMD`, `L.K`, and the three buffers (10_state.md R32 to R35). -/
def observable (s : State) : State :=
  if s.status.busy then s
  else { s with latch := { Latch.reset with cmd := s.latch.cmd }, samples := [], inter := [], dest := [] }

end Sys2Proof.Machine
end

