-- ==== Sys2Proof/Certificates/Slice0/Obligations.lean ====
section
/-! DEFINITION. The statements about the engine, each from the numbered rules of spec/. Nothing is proved here. -/

open Sys2Proof Sys2Proof.Machine

/-! ### The command word -/

/-- Decoding the word of a command gives the command back, with both phases, for every command the build has
(30_encoding.md R78, R76). -/
def Obligations.DecodeOfEncode : Prop :=
  ∀ (a : Bool) (i : Instr), wellFormed a i = true → decodeWord a (encode i) = .legal i

/-- A word that decodes to a command is that command's word, and the build has the command: no two words are one command
and no bit is ignored (30_encoding.md R75, R76, R78). -/
def Obligations.EncodeOfDecode : Prop :=
  ∀ (a : Bool) (w : Word) (i : Instr), decodeWord a w = .legal i → encode i = w ∧ wellFormed a i = true

/-- The opcode map decides decoding: a word is a command of a row exactly when its bits under the row's mask are the
row's match value, and the row is there in the build; and no word matches two rows (30_encoding.md R78). -/
def Obligations.OpcodeMapDecides : Prop :=
  (∀ (a : Bool) (w : Word), ∀ row ∈ opcodeRows,
    (∃ i, decodeWord a w = .legal i ∧ i.mnemonic = row.mnemonic) ↔
      (row.matches w = true ∧ (row.averaging = true → a = true))) ∧
  (∀ (w : Word), ∀ row ∈ opcodeRows, ∀ row' ∈ opcodeRows,
    row.matches w = true → row'.matches w = true → row = row')

/-- The reserved and illegal words, class by class, and that each is an error that starts nothing when it is written to
an idle engine (30_encoding.md R79, 45_control.md R122; that the bus's answer stands in the field `response` is the model's
choice, assumption log 8). -/
def Obligations.IllegalWordClasses : Prop :=
  (∀ (a : Bool) (w : Word),
    (decodeWord a w = .illegal .reservedOpc ↔ w ≠ 0 ∧ w.toNat / 2 ^ 28 ≠ 1) ∧
    (decodeWord a w = .illegal .reservedBits ↔ w.toNat / 2 ^ 28 = 1 ∧ w.toNat / 2 ^ 10 % 2 ^ 18 ≠ 0) ∧
    (decodeWord a w = .illegal .averagingSize ↔
      w.toNat / 2 ^ 10 = 2 ^ 18 ∧ w.toNat % 16 ∈ [8, 9, 12, 13]) ∧
    (decodeWord a w = .illegal .averagingAbsent ↔
      w.toNat / 2 ^ 10 = 2 ^ 18 ∧ w.toNat % 16 ∈ [10, 11, 14, 15] ∧ a = false)) ∧
  (∀ (s : State) (w : Word) (why : Illegal), decodeWord s.build.avgPresent w = .illegal why →
    s.status.busy = false →
    hostWrite 0x010 32 w s
      = .next { s with response := some .written, status := { s.status with err := true, errCode := 1 } })

/-- Command words written out from the encoding tables decode to their commands (30_encoding.md R69, R81; 41_sixtap.md
and 42_bilinear.md examples). -/
def Obligations.SpecWordsDecode : Prop :=
  decodeWord true 0x10000240 = .legal (.sixtap4x4 4 4) ∧
  decodeWord true 0x100002B1 = .legal (.sixtap8x4 3 5) ∧
  decodeWord true 0x10000022 = .legal (.sixtap8x8 2 0) ∧
  decodeWord true 0x1000032B = .legal (.sixtapAvg16x16 2 6) ∧
  decodeWord true 0x1000039A = .legal (.sixtapAvg8x8 1 7) ∧
  decodeWord true 0x10000386 = .legal (.bilin8x8 0 7) ∧
  decodeWord true 0x1000024F = .legal (.bilinAvg16x16 4 4) ∧
  decodeWord true 0x00000000 = .legal .nop ∧
  decodeWord true 0x1000000C = .illegal .averagingSize ∧
  decodeWord false 0x1000000A = .illegal .averagingAbsent

/-- What the assembler emits for a command line, and which lines it refuses (30_encoding.md R81). -/
def Obligations.AssemblerWords : Prop :=
  (∀ (fam : Family) (averaging : Bool) (w h x y : Nat),
    assemble (.command fam averaging w h x y) =
      if x < 8 ∧ y < 8 ∧ ((w, h) = (8, 8) ∨ (w, h) = (16, 16) ∨ (averaging = false ∧ ((w, h) = (4, 4) ∨ (w, h) = (8, 4))))
      then some (BitVec.ofNat 32 (0x10000000
        + (if (w, h) = (4, 4) then 0 else if (w, h) = (8, 4) then 1 else if (w, h) = (8, 8) then 2 else 3)
        + (if fam = .bilin then 4 else 0) + (if averaging = true then 8 else 0) + 16 * x + 128 * y))
      else none) ∧
  assemble .nop = some 0

/-- The pseudo-instructions stand for the words of their expansions (30_encoding.md R82). -/
def Obligations.PseudoInstructions : Prop :=
  assemble (.copy 4 4) = some 0x10000004 ∧ assemble (.copy 8 4) = some 0x10000005 ∧
  assemble (.copy 8 8) = some 0x10000006 ∧ assemble (.copy 16 16) = some 0x10000007 ∧
  assemble (.avgcopy 8 8) = some 0x1000000E ∧ assemble (.avgcopy 16 16) = some 0x1000000F ∧
  (∀ fam w h x, assemble (.hfilt fam w h x) = assemble (.command fam false w h x 0)) ∧
  (∀ fam w h y, assemble (.vfilt fam w h y) = assemble (.command fam false w h 0 y))

/-! ### Issue -/

/-- A step whose next move is the host's: a store to the register block is that register write, and the store of a legal
command word to `CMD` runs the command's meaning, once the host step and the turn are taken off and the bus has answered
(45_control.md R115, R119; that the host moves then is the model's turn order, assumption log 3, and the bus's answer is
the model's field, assumption log 8). -/
def Obligations.StepRunsCommand : Prop :=
  ∀ (s : State) (off : BitVec 12) (width : Nat) (v : Word) (rest : List HostStep) (turns : List Turn),
    (s.turns = .host :: turns ∨ (s.turns = [] ∧ turns = [] ∧ s.status.busy = false)) →
    s.host = .wr off width v :: rest →
    step s = hostWrite off width v { s with turns := turns, host := rest } ∧
    (∀ i : Instr, off = 0x010 → width = 32 → decodeWord s.build.avgPresent v = .legal i →
      step s = exec i { s with turns := turns, host := rest, response := some .written })

/-- Everything a write of any word to `CMD` does, in the order of the checks: NOP, busy, illegal, accepted
(45_control.md R119, R120, R122).  That acceptance also empties the three buffers is the model's choice, assumption log 6,
and the bus's answer is the model's field, assumption log 8. -/
def Obligations.CommandWriteOrder : Prop :=
  ∀ (s : State) (v : Word),
    hostWrite 0x010 32 v s =
      .next (
        if v = 0 then { s with response := some .written }
        else if s.status.busy = true then
          { s with response := some .written, status := { s.status with err := true, errCode := 2 } }
        else if isPredict s.build.avgPresent v = false then
          { s with response := some .written, status := { s.status with err := true, errCode := 1 } }
        else
          { s with
            response := some .written
            latch :=
              { cmd := v, sb := s.srcBase, ss := s.srcStride, db := s.dstBase, ds := s.dstStride
                fam := if v.getLsbD 2 then .bilin else .sixtap
                avg := v.getLsbD 3
                geom := geometryOf (v.extractLsb' 0 2)
                xph := v.extractLsb' 4 3
                yph := v.extractLsb' 7 3
                k := 0 }
            status := { busy := true, done := false, err := false, errCode := 0 }
            samples := []
            inter := []
            dest := [] })

/-- Every prediction command is accepted by an idle engine whose build has it: the latch and `STATUS` take R120's values,
and every register, the error address and every byte of memory stay.  That the three buffers are emptied then is no part
of R120: it is the model's choice, assumption log 6.  For sixtap.4x4, sixtap.8x4, sixtap.8x8, sixtap.16x16,
sixtap.avg.8x8, sixtap.avg.16x16, bilin.4x4, bilin.8x4, bilin.8x8, bilin.16x16, bilin.avg.8x8 and bilin.avg.16x16. -/
def Obligations.PredictAccepted : Prop :=
  ∀ (i : Instr) (s : State), i ≠ .nop → wellFormed s.build.avgPresent i = true → s.status.busy = false →
    exec i s = .next
      { s with
        latch := latchOf s (encode i)
        status := { busy := true, done := false, err := false, errCode := 0 }
        samples := []
        inter := []
        dest := [] }

/-- `nop` changes nothing, busy or not (45_control.md R121). -/
def Obligations.NopChangesNothing : Prop := ∀ s : State, exec .nop s = .next s

/-- A prediction command written while busy records code 2 and nothing else; an averaging command in a build without it
records code 1 and nothing else (45_control.md R123, 41_sixtap.md R105, R106, 42_bilinear.md R112, R113). -/
def Obligations.CommandTurnedAway : Prop :=
  ∀ (i : Instr) (s : State), i ≠ .nop →
    (s.status.busy = true → exec i s = .next { s with status := { s.status with err := true, errCode := 2 } }) ∧
    (s.status.busy = false → wellFormed s.build.avgPresent i = false →
      exec i s = .next { s with status := { s.status with err := true, errCode := 1 } })

/-- The frame of every command: its own step writes only `STATUS` and, when accepted, the latch and the buffers.  No
register, no error address, no byte of pixel memory and nothing outside the engine changes (45_control.md R120 to
R123; that acceptance writes the buffers is the model's choice, assumption log 6). -/
def Obligations.CommandFrame : Prop :=
  ∀ (i : Instr) (s t : State), exec i s = .next t →
    t.build = s.build ∧ t.ctrl = s.ctrl ∧ t.srcBase = s.srcBase ∧ t.srcStride = s.srcStride ∧
    t.dstBase = s.dstBase ∧ t.dstStride = s.dstStride ∧ t.errAddr = s.errAddr ∧ t.unseen = s.unseen ∧
    t.view = s.view ∧ t.response = s.response ∧ t.host = s.host ∧ t.turns = s.turns ∧ t.freeCount = s.freeCount ∧
    (∀ a : Word, memRead t.mem a = memRead s.mem a) ∧
    (s.status.busy = true →
      t.latch = s.latch ∧ t.samples = s.samples ∧ t.inter = s.inter ∧ t.dest = s.dest ∧
      t.status.busy = true ∧ t.status.done = s.status.done)

/-! ### The access sequence -/

/-- The access sequence of an operation, access by access: the footprint row by row, then the destination row by row,
with a read before each write when averaging; and its length (20_memory.md R60). -/
def Obligations.AccessSequence : Prop :=
  ∀ (b : Build) (l : Latch),
    let T := tapCount b l.fam
    let c : Int := centre b l.fam
    let W := blockWidth l.geom
    let H := blockHeight l.geom
    let F := (H + T - 1) * (W + T - 1)
    (∀ n, n < F → (accessSequence b l)[n]? = some (.readSrc ((n / (W + T - 1) : Nat) - c) ((n % (W + T - 1) : Nat) - c))) ∧
    (∀ n, n < W * H → l.avg = false → (accessSequence b l)[F + n]? = some (.writeDst (n / W) (n % W))) ∧
    (∀ n, n < W * H → l.avg = true →
      (accessSequence b l)[F + 2 * n]? = some (.readDst (n / W) (n % W)) ∧
      (accessSequence b l)[F + 2 * n + 1]? = some (.writeDst (n / W) (n % W))) ∧
    (accessSequence b l).length = F + W * H * (1 + l.avg.toNat)

/-- Each footprint position is read exactly once, each destination position written exactly once, and nothing else is
accessed; the destination is read only when averaging, immediately before the write (20_memory.md R56, R57, R61). -/
def Obligations.EachPositionOnce : Prop :=
  ∀ (b : Build) (l : Latch),
    (accessSequence b l).Nodup ∧
    (∀ r col : Int, .readSrc r col ∈ accessSequence b l ↔
      -(centre b l.fam : Int) ≤ r ∧ r ≤ (blockHeight l.geom + tapCount b l.fam : Int) - 2 - centre b l.fam ∧
      -(centre b l.fam : Int) ≤ col ∧ col ≤ (blockWidth l.geom + tapCount b l.fam : Int) - 2 - centre b l.fam) ∧
    (∀ y x : Nat, .writeDst y x ∈ accessSequence b l ↔ y < blockHeight l.geom ∧ x < blockWidth l.geom) ∧
    (∀ y x : Nat, .readDst y x ∈ accessSequence b l ↔
      l.avg = true ∧ y < blockHeight l.geom ∧ x < blockWidth l.geom) ∧
    (∀ n y x, (accessSequence b l)[n]? = some (.readDst y x) → (accessSequence b l)[n + 1]? = some (.writeDst y x))

/-- Addresses are computed on integers from the latched base and the latched stride read as signed, and reduced modulo
2^32 (20_memory.md R51). -/
def Obligations.BlockAddresses : Prop :=
  ∀ (l : Latch),
    (∀ r col : Int, ((accessAddr l (.readSrc r col)).toNat : Int)
      = (l.sb.toNat + r * (if l.ss.toNat < 2 ^ 31 then (l.ss.toNat : Int) else l.ss.toNat - 2 ^ 32) + col) % 2 ^ 32) ∧
    (∀ y x : Nat, ((accessAddr l (.writeDst y x)).toNat : Int)
      = (l.db.toNat + y * (if l.ds.toNat < 2 ^ 31 then (l.ds.toNat : Int) else l.ds.toNat - 2 ^ 32) + x) % 2 ^ 32) ∧
    (∀ y x : Nat, accessAddr l (.readDst y x) = accessAddr l (.writeDst y x))

/-- `ENGINE_BASE` is a multiple of 0x1000, and `ADMIT` is false for every address of the 4 KiB block there
(20_memory.md R54, R58; the predicate's form is assumption log 18's). -/
def Obligations.OwnBlockNotAdmitted : Prop :=
  ∀ (b : Build), (engineBase b).toNat % 0x1000 = 0 ∧
    ∀ (a : Word) (kind : AccessKind),
      (engineBase b).toNat ≤ a.toNat → a.toNat ≤ (engineBase b).toNat + 0xFFF → admitted b a kind = false

/-! ### The engine's step -/

/-- An admitted access: a footprint read is recorded in `S`, an averaging read in `D`, a write stores `O[y][x]`; `L.K`
grows by one and nothing else changes, but that the read that completes the footprint also fills `I`, and that a write is
noted in the host's view where that view is not coherent (45_control.md R124, 20_memory.md R66; when the buffers are
filled is the model's choice, assumption log 6, and so is the form of the view, assumption log 9). -/
def Obligations.AdmittedAccess : Prop :=
  ∀ (s : State) (a : Access), s.status.busy = true → (accessSequence s.build s.latch)[s.latch.k]? = some a →
    admitted s.build (accessAddr s.latch a) (accessKind a) = true →
    engineStep s = .next (match a with
      | .readSrc _ _ =>
        { s with
          latch := { s.latch with k := s.latch.k + 1 }
          samples := s.samples ++ [memRead s.mem (accessAddr s.latch a)]
          inter :=
            if s.samples.length + 1 = footCount s.build s.latch then
              hPass s.build s.latch (s.samples ++ [memRead s.mem (accessAddr s.latch a)])
            else s.inter }
      | .readDst _ _ =>
        { s with
          latch := { s.latch with k := s.latch.k + 1 }
          dest := s.dest ++ [memRead s.mem (accessAddr s.latch a)] }
      | .writeDst y x =>
        { s with
          latch := { s.latch with k := s.latch.k + 1 }
          mem := memWrite s.mem (accessAddr s.latch a) (outputByte s y x)
          view := noteWritten s.build (accessAddr s.latch a) s.view })

/-- An access that is not admitted has no effect on memory, records code 3 and its address, and ends the operation
(60_exceptions.md R135).  That `L.K` stays at the number of the failing access is the model's inference, assumption
log 12. -/
def Obligations.RefusedAccess : Prop :=
  ∀ (s : State) (a : Access), s.status.busy = true → (accessSequence s.build s.latch)[s.latch.k]? = some a →
    admitted s.build (accessAddr s.latch a) (accessKind a) = false →
    engineStep s = .next
      { s with
        errAddr := accessAddr s.latch a
        status := { busy := false, done := true, err := true, errCode := 3 } }

/-- Completion: when all `N_acc` accesses are done the engine's step lowers BUSY, sets DONE and changes nothing else;
IRQ then stands if `CTRL.IE_DONE = 1` (45_control.md R125). -/
def Obligations.Completion : Prop :=
  ∀ (s : State), s.status.busy = true → s.latch.k = accessCount s.build s.latch →
    engineStep s = .next { s with status := { s.status with busy := false, done := true } } ∧
    (s.ctrl.ieDone = true → irq { s with status := { s.status with busy := false, done := true } } = true)

/-- The frame of the engine's step: the host's registers, the build and everything outside the engine stay; the latched
operands stay; every byte of pixel memory stays but the one a write access stores, which reads back as `O[y][x]`; and
that byte alone leaves the host's view where the view is not coherent (45_control.md R124, 20_memory.md R57, R60, R66; the
form of the view is the model's choice, assumption log 9, and the canonical form of memory, assumption log 7). -/
def Obligations.EngineStepFrame : Prop :=
  ∀ (s t : State), engineStep s = .next t →
    t.build = s.build ∧ t.ctrl = s.ctrl ∧ t.srcBase = s.srcBase ∧ t.srcStride = s.srcStride ∧
    t.dstBase = s.dstBase ∧ t.dstStride = s.dstStride ∧ t.unseen = s.unseen ∧ t.response = s.response ∧
    t.host = s.host ∧ t.turns = s.turns ∧ t.freeCount = s.freeCount ∧
    { t.latch with k := s.latch.k } = s.latch ∧
    (∀ a : Word,
      (∀ y x, (accessSequence s.build s.latch)[s.latch.k]? = some (.writeDst y x) →
        a ≠ accessAddr s.latch (.writeDst y x)) →
      memRead t.mem a = memRead s.mem a ∧ hostSees t a = hostSees s a) ∧
    ((∀ y x, (accessSequence s.build s.latch)[s.latch.k]? ≠ some (.writeDst y x)) → t.view = s.view) ∧
    (∀ y x, s.status.busy = true → (accessSequence s.build s.latch)[s.latch.k]? = some (.writeDst y x) →
      admitted s.build (accessAddr s.latch (.writeDst y x)) .write = true →
      (memoryWf s.mem = true → memRead t.mem (accessAddr s.latch (.writeDst y x)) = outputByte s y x) ∧
      hostSees t (accessAddr s.latch (.writeDst y x)) = s.build.hostCoherent)

/-- The running operation reads its latch and never the live registers: other values in the operand registers and in
`CTRL` change nothing in the engine's step (10_state.md R32). -/
def Obligations.OperationReadsItsLatch : Prop :=
  ∀ (s t : State) (c : Ctrl) (sb ss db ds : Word), engineStep s = .next t →
    engineStep { s with ctrl := c, srcBase := sb, srcStride := ss, dstBase := db, dstStride := ds }
      = .next { t with ctrl := c, srcBase := sb, srcStride := ss, dstBase := db, dstStride := ds }

/-! ### Whole operations -/

/-- A prediction command issued to an idle engine, with every access admitted and no other agent moving, is accepted, and
after its `N_acc` accesses and the completion step pixel memory is `Predict`'s result over what it held at acceptance,
BUSY is 0, DONE is 1 and no error shows; the registers keep their values (40_filter_datapath.md R95, 41_sixtap.md R100 to
R106, 42_bilinear.md R107 to R113, 45_control.md R125, R131; that the engine moves when no turn is listed is the model's
choice, assumption log 3). -/
def Obligations.OperationCompletes : Prop :=
  ∀ (i : Instr) (s : State), i ≠ .nop → wellFormed s.build.avgPresent i = true → s.status.busy = false →
    quiet s = true → allAdmitted s.build (latchOf s (encode i)) = true →
    ∃ t u : State, exec i s = .next t ∧
      Sys2Proof.core.run (accessCount s.build (latchOf s (encode i)) + 1) t = .next u ∧
      u.mem = operationMemory s.build (latchOf s (encode i)) s.mem ∧
      u.status = { busy := false, done := true, err := false, errCode := 0 } ∧
      u.latch.cmd = encode i ∧ u.errAddr = s.errAddr ∧ u.ctrl = s.ctrl ∧ u.srcBase = s.srcBase ∧
      u.srcStride = s.srcStride ∧ u.dstBase = s.dstBase ∧ u.dstStride = s.dstStride ∧ u.build = s.build

/-- A bus error is precise: when access number `n` is the first that is not admitted, accesses 0 to `n - 1` are performed
and no other, code 3 and the failing address are recorded, and the operation has ended; in phase A the destination is
untouched (60_exceptions.md R144, R135; the turn order is assumption log 3's). -/
def Obligations.BusErrorPrecise : Prop :=
  ∀ (i : Instr) (s : State) (n : Nat) (a : Access), i ≠ .nop → wellFormed s.build.avgPresent i = true →
    s.status.busy = false → quiet s = true →
    (accessSequence s.build (latchOf s (encode i)))[n]? = some a →
    admitted s.build (accessAddr (latchOf s (encode i)) a) (accessKind a) = false →
    (∀ a' ∈ (accessSequence s.build (latchOf s (encode i))).take n,
      admitted s.build (accessAddr (latchOf s (encode i)) a') (accessKind a') = true) →
    ∃ t u : State, exec i s = .next t ∧ Sys2Proof.core.run (n + 1) t = .next u ∧
      u.mem = memoryAfter s.build (latchOf s (encode i)) s.mem n ∧
      (n < footCount s.build (latchOf s (encode i)) → u.mem = s.mem) ∧
      u.status = { busy := false, done := true, err := true, errCode := 3 } ∧
      u.errAddr = accessAddr (latchOf s (encode i)) a

/-- A reset that comes after `n` accesses leaves exactly those performed, no completion, and every piece of engine state
at its reset value (70_reset_and_hazards.md R155, R153; the draw of `n` is where the reset stands in the turn list,
assumption log 11, hidden reset values are assumption log 5's, and what reset leaves outside the engine is the model's
choice: the bus's answer, log 8; pending writes and the host's view, log 9; the count of free values, log 10). -/
def Obligations.ResetCutsShort : Prop :=
  ∀ (i : Instr) (s : State) (n : Nat), i ≠ .nop → wellFormed s.build.avgPresent i = true →
    s.status.busy = false → quiet s = true → allAdmitted s.build (latchOf s (encode i)) = true →
    n ≤ accessCount s.build (latchOf s (encode i)) →
    ∃ t : State, exec i s = .next t ∧
      Sys2Proof.core.run (n + 1) { t with turns := List.replicate n .engine ++ [.reset] } = .next
        { State.resetOf s.build with
          mem := memoryAfter s.build (latchOf s (encode i)) s.mem n
          unseen := s.unseen
          view := viewAfter s.build (latchOf s (encode i)) s.view n
          response := s.response
          freeCount := s.freeCount }

/-- With no other agent moving, a running operation ends: after at most its remaining accesses and one more step BUSY is
0 and DONE is 1, whatever the platform admits (45_control.md R124; the turn order is assumption log 3's). -/
def Obligations.OperationEnds : Prop :=
  ∀ (s : State), s.status.busy = true → quiet s = true → s.latch.k ≤ accessCount s.build s.latch →
    ∃ (n : Nat) (u : State), n ≤ accessCount s.build s.latch - s.latch.k + 1 ∧
      Sys2Proof.core.run n s = .next u ∧ u.status.busy = false ∧ u.status.done = true

/-- What a whole operation leaves in pixel memory when no two destination positions share an address: each destination
byte is `O[y][x]` from the source bytes and the destination byte as they were, and every other byte is as it was
(45_control.md R131, 20_memory.md R57; the canonical form of memory in the premise is the model's choice, assumption
log 7). -/
def Obligations.DestinationBytes : Prop :=
  ∀ (b : Build) (l : Latch) (m : List Host.Cell), memoryWf m = true →
    (∀ p ∈ positions l, ∀ q ∈ positions l, destAddr l p = destAddr l q → p = q) →
    (∀ p ∈ positions l, memRead (operationMemory b l m) (destAddr l p)
      = outputOf b l (sourceByte m l) p (memRead m (destAddr l p))) ∧
    (∀ a : Word, (∀ p ∈ positions l, a ≠ destAddr l p) → memRead (operationMemory b l m) a = memRead m a)

/-- A 16x16 operation leaves the same memory as the operations of a smaller geometry on its sub-blocks, one after the
other, with bases offset by the sub-block's position and the same strides and phases, provided no destination byte of one
of them lies in the footprint or the destination of a later one (40_filter_datapath.md R99; the canonical form of memory
in the premise is the model's choice, assumption log 7). -/
def Obligations.SubBlockDecomposition : Prop :=
  ∀ (b : Build) (l : Latch) (g : Geometry) (m : List Host.Cell), memoryWf m = true → l.geom = .g16x16 →
    (subBlocks l g).Pairwise (fun one later => ∀ p ∈ positions one,
      (∀ a ∈ phaseA b later, destAddr one p ≠ accessAddr later a) ∧
      (∀ q ∈ positions later, destAddr one p ≠ destAddr later q)) →
    ∀ a : Word,
      memRead (operationMemory b l m) a
        = memRead ((subBlocks l g).foldl (fun m' l' => operationMemory b l' m') m) a

/-! ### The datapath -/

/-- `Round7(acc)` is `floor((acc + 64) / 128)`, the nearest integer with halves up; for a negative sum floor and
truncation give the same clamped value; the bilinear path has no negative sum (40_filter_datapath.md R84). -/
def Obligations.RoundSeven : Prop :=
  (∀ a : Int, 128 * round7 a ≤ a + 64 ∧ a + 64 < 128 * (round7 a + 1)) ∧
  round7 63 = 0 ∧ round7 64 = 1 ∧ round7 (-64) = 0 ∧ round7 (-65) = -1 ∧
  (∀ a : Int, a < 0 → clamp8 (round7 a) = 0 ∧ clamp8 ((a + 64).tdiv 128) = 0) ∧
  (∀ (b : Build) (p : Phase) (src : Nat → Int), (∀ k, 0 ≤ src k) →
    0 ≤ sumTo (tapCount b .bilin) (fun k => tap b .bilin p k * src k))

/-- Every intermediate and every output value of either family lies in [0, 255], so that 8-bit storage keeps it: by the
clamp in the six-tap family, without one in the bilinear family (40_filter_datapath.md R88, R89, R92, R93). -/
def Obligations.ValuesArePixels : Prop :=
  ∀ (b : Build) (fam : Family) (p q : Phase) (src : Int → Int → Int), (∀ r c, 0 ≤ src r c ∧ src r c ≤ 255) →
    ∀ i j : Nat,
      0 ≤ hValue b fam p src i j ∧ hValue b fam p src i j ≤ 255 ∧
      ((toByte (hValue b fam p src i j)).toNat : Int) = hValue b fam p src i j ∧
      0 ≤ predictPixel b fam p q src i j ∧ predictPixel b fam p q src i j ≤ 255 ∧
      ((toByte (predictPixel b fam p q src i j)).toNat : Int) = predictPixel b fam p q src i j

/-- The accumulator never overflows 32 bits: with 16-bit taps, at most ten of them, and byte samples,
`|acc + 64| < 2^31` (40_filter_datapath.md R86). -/
def Obligations.AccumulatorFits : Prop :=
  ∀ (b : Build) (fam : Family) (p : Phase) (src : Nat → Int), (∀ k, 0 ≤ src k ∧ src k ≤ 255) →
    -(2 ^ 31 : Int) < sumTo (tapCount b fam) (fun k => tap b fam p k * src k) + 64 ∧
    sumTo (tapCount b fam) (fun k => tap b fam p k * src k) + 64 < 2 ^ 31

/-- The averaging step rounds halves up and stays in [0, 255] (40_filter_datapath.md R94). -/
def Obligations.AveragingStep : Prop :=
  (∀ v d : Int, 0 ≤ v → v ≤ 255 → 0 ≤ d → d ≤ 255 →
    0 ≤ average v d ∧ average v d ≤ 255 ∧ v + d ≤ 2 * average v d ∧ 2 * average v d ≤ v + d + 1) ∧
  average 0 0 = 0 ∧ average 0 1 = 1 ∧ average 255 0 = 128 ∧ average 255 255 = 255

/-- At phase (0, 0) the plain variant writes the source pixel and the averaging variant its average with the destination
byte; at (p, 0) the result is the horizontal pass alone and at (0, q) the vertical pass of the unfiltered rows, for both
families and every legal table (40_filter_datapath.md R96). -/
def Obligations.IdentityPhases : Prop :=
  ∀ (b : Build) (fam : Family) (src : Int → Int → Int), b.legal = true → (∀ r c, 0 ≤ src r c ∧ src r c ≤ 255) →
    ∀ y x : Nat,
      predictPixel b fam 0 0 src y x = src y x ∧
      (∀ p : Phase, predictPixel b fam p 0 src y x = hValue b fam p src (y + centre b fam) x) ∧
      (∀ q : Phase, predictPixel b fam 0 q src y x
        = vValue b fam q (fun i j => src ((i : Int) - centre b fam) j) y x) ∧
      (∀ (l : Latch) (old : Byte), l.fam = fam → l.xph = 0 → l.yph = 0 →
        ((outputOf b l src (y, x) old).toNat : Int) = if l.avg then average (src y x) old.toNat else src y x)

/-- A source that is `v` at every position gives `v` at every output, at every phase, in both families, for every legal
table.  40_filter_datapath.md R97 asks for `v` on the footprint only; it follows with `Obligations.WindowLocality`
(R99). -/
def Obligations.FlatStaysFlat : Prop :=
  ∀ (b : Build) (fam : Family) (p q : Phase) (v : Int), b.legal = true → 0 ≤ v → v ≤ 255 →
    ∀ y x : Nat, predictPixel b fam p q (fun _ _ => v) y x = v

/-- An output pixel depends only on the source window of its own position (40_filter_datapath.md R99). -/
def Obligations.WindowLocality : Prop :=
  ∀ (b : Build) (fam : Family) (p q : Phase) (src src' : Int → Int → Int) (y x : Nat),
    (∀ r col : Int,
      (y : Int) - centre b fam ≤ r → r ≤ (y : Int) + tapCount b fam - 1 - centre b fam →
      (x : Int) - centre b fam ≤ col → col ≤ (x : Int) + tapCount b fam - 1 - centre b fam →
      src r col = src' r col) →
    predictPixel b fam p q src y x = predictPixel b fam p q src' y x

/-- Every row of either table sums to 128; the bilinear taps are `128 - 16p` and `16p`, none negative; phase 0 is the
identity (10_state.md R41, R43, R45). -/
def Obligations.TapRows : Prop :=
  ∀ (b : Build), b.legal = true → ∀ p : Phase,
    (∀ fam, sumTo (tapCount b fam) (tap b fam p) = 128) ∧
    (∀ fam k, k < tapCount b fam → tap b fam 0 k = if k = centre b fam then 128 else 0) ∧
    tap b .bilin p 0 = 128 - 16 * (p.toNat : Int) ∧ tap b .bilin p 1 = 16 * (p.toNat : Int) ∧
    0 ≤ tap b .bilin p 0 ∧ 0 ≤ tap b .bilin p 1

/-! ### Register accesses -/

/-- A register read answers the register's value and changes nothing else, busy or not (45_control.md R114, 10_state.md
R19; the answer stands in the model's field `response`, assumption log 8). -/
def Obligations.ReadChangesNothing : Prop :=
  ∀ (s : State) (off : BitVec 12) (width : Nat) (rest : List HostStep) (turns : List Turn),
    s.turns = .host :: turns → s.host = .rd off width :: rest →
    step s = .next { s with turns := turns, host := rest, response := some (hostRead off width s) }

/-- What the named registers read as (10_state.md R18, R22, R24, R25, R28, R29, R30). -/
def Obligations.NamedRegistersRead : Prop :=
  ∀ s : State,
    hostRead 0x000 32 s = .data 0x53504946 ∧
    hostRead 0x008 32 s = .data ((if s.ctrl.ieDone then 1 else 0) + (if s.ctrl.ieErr then 2 else 0)) ∧
    hostRead 0x00C 32 s = .data ((if s.status.busy then 1 else 0) + (if s.status.done then 2 else 0)
      + (if s.status.err then 4 else 0) + (s.status.errCode.setWidth 32 <<< 4)) ∧
    hostRead 0x010 32 s = .data s.latch.cmd ∧
    hostRead 0x014 32 s = .data s.srcBase ∧ hostRead 0x018 32 s = .data s.srcStride ∧
    hostRead 0x01C 32 s = .data s.dstBase ∧ hostRead 0x020 32 s = .data s.dstStride ∧
    hostRead 0x024 32 s = .data s.errAddr

/-- `CONFIG` reports the build (10_state.md R23). -/
def Obligations.ConfigFields : Prop :=
  ∀ s : State, hostRead 0x004 32 s = .data (BitVec.ofNat 32
    (2 * s.build.extend.radius + 16 * s.build.avgPresent.toNat + 2 ^ 8 * s.build.variant.toNat + 2 ^ 16 * 2))

/-- The coefficient windows show both tables; taps at `k >= T6` read 0 (10_state.md R46). -/
def Obligations.CoefficientWindows : Prop :=
  ∀ (s : State) (p : Nat), p < 8 →
    (∀ k, k < 16 → hostRead (BitVec.ofNat 12 (0x100 + 0x40 * p + 4 * k)) 32 s =
      .data (if k < 2 * s.build.extend.radius then
        BitVec.ofInt 32 (((s.build.coef6.getD p []).getD k 0).toInt) else 0)) ∧
    hostRead (BitVec.ofNat 12 (0x300 + 8 * p)) 32 s = .data (BitVec.ofNat 32 (128 - 16 * p)) ∧
    hostRead (BitVec.ofNat 12 (0x304 + 8 * p)) 32 s = .data (BitVec.ofNat 32 (16 * p))

/-- An aligned access to an offset the map does not name reads 0, and its write is ignored (10_state.md R20; that the
bus's answer stands in the field `response` is the model's choice, assumption log 8). -/
def Obligations.UnnamedOffsets : Prop :=
  ∀ (s : State) (off : BitVec 12) (v : Word), off.toNat % 4 = 0 →
    (0x028 ≤ off.toNat ∧ off.toNat ≤ 0x0FC ∨ 0x340 ≤ off.toNat) →
    hostRead off 32 s = .data 0 ∧ hostWrite off 32 v s = .next { s with response := some .written }

/-- An aligned 32-bit write to `ID`, `CONFIG`, `ERRADDR`, a coefficient window or an unmapped offset changes no engine
state and no memory (45_control.md R127).  All that changes is the field `response`, the bus's answer, which is the
model's choice, assumption log 8. -/
def Obligations.IgnoredWrites : Prop :=
  ∀ (s : State) (off : BitVec 12) (v : Word), off.toNat % 4 = 0 →
    (off.toNat < 0x008 ∨ 0x020 < off.toNat) → hostWrite off 32 v s = .next { s with response := some .written }

/-- A register access of the wrong width or alignment gets an error response and changes nothing else
(60_exceptions.md R137, 20_memory.md R55; that the response stands in the field `response` is the model's choice,
assumption log 8). -/
def Obligations.BadAccessRefused : Prop :=
  ∀ (s : State) (off : BitVec 12) (width : Nat) (v : Word), (width ≠ 32 ∨ off.toNat % 4 ≠ 0) →
    hostRead off width s = .busError ∧
    hostWrite off width v s = .next { s with response := some .busError }

/-- A write of `v` to `CTRL` leaves it reading `v & 3` and changes nothing else; IRQ follows at once
(45_control.md R116).  The bus's answer is the model's field, assumption log 8. -/
def Obligations.CtrlWrite : Prop :=
  ∀ (s : State) (v : Word), ∃ c : Ctrl,
    hostWrite 0x008 32 v s = .next { s with ctrl := c, response := some .written } ∧
    hostRead 0x008 32 { s with ctrl := c, response := some .written } = .data (v &&& 0x00000003) ∧
    irq { s with ctrl := c, response := some .written }
      = ((v.getLsbD 0 && s.status.done) || (v.getLsbD 1 && s.status.err))

/-- A write of `v` to `STATUS` clears DONE where bit 1 is set, ERR and ERRCODE where bit 2 is set, and no other bit; it
changes nothing else (45_control.md R117).  The bus's answer is the model's field, assumption log 8. -/
def Obligations.StatusWrite : Prop :=
  ∀ (s : State) (v : Word), ∃ st : Status,
    hostWrite 0x00C 32 v s = .next { s with status := st, response := some .written } ∧
    st.word = s.status.word &&&
      ~~~((if v.getLsbD 1 then 0x00000002#32 else 0) ||| (if v.getLsbD 2 then 0x000000F4#32 else 0))

/-- A write to an operand register stores the value, whatever it is, and changes nothing else, the latch of a running
operation least of all (45_control.md R118, 10_state.md R29).  The bus's answer is the model's field, assumption
log 8. -/
def Obligations.OperandWrite : Prop :=
  ∀ (s : State) (v : Word),
    hostWrite 0x014 32 v s = .next { s with srcBase := v, response := some .written } ∧
    hostWrite 0x018 32 v s = .next { s with srcStride := v, response := some .written } ∧
    hostWrite 0x01C 32 v s = .next { s with dstBase := v, response := some .written } ∧
    hostWrite 0x020 32 v s = .next { s with dstStride := v, response := some .written }

/-- Reserved bits of `CTRL`, `STATUS` and `CONFIG` read as zero in every state (10_state.md R21, R23 to R25). -/
def Obligations.ReservedBitsReadZero : Prop :=
  ∀ s : State,
    (∀ w, hostRead 0x008 32 s = .data w → w &&& 0xFFFFFFFC = 0) ∧
    (∀ w, hostRead 0x00C 32 s = .data w → w &&& 0xFFFFFF08 = 0) ∧
    (∀ w, hostRead 0x004 32 s = .data w → w &&& 0xFFF000E0 = 0)

/-- The interrupt line: its level in every state, that acceptance and the acknowledging write lower it, and that an
enable acts at once (60_exceptions.md R139, R140). -/
def Obligations.InterruptLine : Prop :=
  ∀ s : State,
    (irq s = true ↔ (s.ctrl.ieDone = true ∧ s.status.done = true) ∨ (s.ctrl.ieErr = true ∧ s.status.err = true)) ∧
    (∀ t v, hostWrite 0x00C 32 v s = .next t → v.getLsbD 1 = true → v.getLsbD 2 = true → irq t = false) ∧
    (∀ t i, s.status.busy = false → exec i s = .next t → t.status.busy = true → irq t = false) ∧
    (∀ t v, hostWrite 0x008 32 v s = .next t →
      (irq t = true ↔ (v.getLsbD 0 = true ∧ s.status.done = true) ∨ (v.getLsbD 1 = true ∧ s.status.err = true)))

/-! ### Host access to pixel memory -/

/-- Host bytes.  In the register block: an error response and no change.  On a coherent platform a store is at once in
pixel memory and a load reads it.  On another platform a store waits until the platform publishes it, and a load reads
pixel memory where the host sees it and a free byte where it does not; after the platform's maintenance of a range, a load
of a byte of it reads what the engine has left there, unless a write of the host's own to that byte still waits
(20_memory.md R55, R64 (b) and (d), R66).  The model's choices: what an incoherent platform does, assumption log 9; the
bus's answer, assumption log 8; free bytes, assumption log 10; that another engine instance's published write shows like
the host's own, assumption log 15; the canonical form of memory, assumption log 7; and that every address outside the
block is memory whose reads have no side effect and whose host accesses are never refused, assumption log 19. -/
def Obligations.HostBytes : Prop :=
  ∀ (s : State) (a : Word) (v : Byte),
    (inBlock s.build a = true →
      hostMemRead a s = { s with response := some .busError } ∧
      hostMemWrite a v s = { s with response := some .busError }) ∧
    (inBlock s.build a = false → s.build.hostCoherent = true →
      hostMemRead a s = { s with response := some (.byte (memRead s.mem a)) } ∧
      (∀ a', a' ≠ a → memRead (hostMemWrite a v s).mem a' = memRead s.mem a') ∧
      (memoryWf s.mem = true → memRead (hostMemWrite a v s).mem a = v ∧
        (hostMemRead a (hostMemWrite a v s)).response = some (.byte v))) ∧
    (inBlock s.build a = false → s.build.hostCoherent = false →
      (hostSees s a = false →
        ∃ w, hostMemRead a s = { s with response := some (.byte w), freeCount := s.freeCount + 1 }) ∧
      (hostSees s a = true → hostMemRead a s = { s with response := some (.byte (memRead s.mem a)) }) ∧
      (∀ lo hi : Word, lo.toNat ≤ a.toNat → a.toNat ≤ hi.toNat → (∀ w ∈ s.unseen, w.1 ≠ a) →
        ∃ m, takeTurn (.maintain lo hi) s = .next m ∧ m.mem = s.mem ∧
          hostMemRead a m = { m with response := some (.byte (memRead s.mem a)) }) ∧
      (hostMemWrite a v s).mem = s.mem ∧
      (memoryWf s.mem = true → memRead (publish s.unseen.length (hostMemWrite a v s)).mem a = v))

/-! ### Reset and invariants -/

/-- A reset turn puts every piece of engine state to its reset value, whatever ran, and touches neither pixel memory nor
the build (70_reset_and_hazards.md R153; the turn list is assumption log 3's, the hidden values assumption log 5's,
and what reset leaves outside the engine is the model's choice: logs 3, 8, 9 and 10). -/
def Obligations.ResetTurn : Prop :=
  ∀ (s : State) (turns : List Turn), s.turns = .reset :: turns →
    step s = .next
      { State.resetOf s.build with
        mem := s.mem
        unseen := s.unseen
        view := s.view
        response := s.response
        host := s.host
        turns := turns
        freeCount := s.freeCount }

/-- After reset, in every build: `CTRL`, `STATUS`, `CMD`, the operand registers and `ERRADDR` read 0, `ID` reads its
constant, and IRQ is low (10_state.md R47). -/
def Obligations.ResetValues : Prop :=
  ∀ b : Build,
    hostRead 0x000 32 (State.resetOf b) = .data 0x53504946 ∧
    (∀ off ∈ [(0x008 : BitVec 12), 0x00C, 0x010, 0x014, 0x018, 0x01C, 0x020, 0x024],
      hostRead off 32 (State.resetOf b) = .data 0) ∧
    irq (State.resetOf b) = false

/-- The invariant of the next statement holds right after reset, in every legal build and in the machine of
`State.reset` (10_state.md R47, R41; the empty buffers, the empty memory and its form are the model's choices, assumption
logs 5, 6 and 7). -/
def Obligations.ResetIsLegal : Prop :=
  (∀ b : Build, b.legal = true → machineLegal (State.resetOf b) = true) ∧ machineLegal State.reset = true

/-- Every step keeps the invariant: a legal table, pixel memory in canonical form, legal status bits, a latch that agrees
with the command word it shows, and buffers filled exactly as far as `L.K` says (10_state.md R27, R28, R32, R33,
60_exceptions.md R136, R142; 45_control.md R124 records each byte read in `S` or `D`).  R34 says what `I` is and no rule
when it is filled: that it is empty before the last footprint read and whole after it, and that `S`, `I` and `D` are lists
as long as what is in them, are the model's choice, assumption log 6.  The canonical form of pixel memory is the model's choice, assumption log 7. -/
def Obligations.StepKeepsLegal : Prop :=
  ∀ s t : State, machineLegal s = true → step s = .next t → machineLegal t = true

/-- Every step keeps pixel memory in its canonical form, from every state in which it is (the form is the model's,
assumption log 7). -/
def Obligations.StepKeepsMemoryForm : Prop :=
  ∀ s t : State, memoryWf s.mem = true → step s = .next t → memoryWf t.mem = true

/-- In a legal state a step always answers a next state: the engine never sticks and no host access stops the machine
(45_control.md R124; the legal states are the invariant's, with the model's choices of assumption logs 6 and 7, and the
stop they rule out is assumption log 13's). -/
def Obligations.LegalStatesStep : Prop :=
  ∀ s : State, machineLegal s = true → ∃ t, step s = .next t

/-- No step changes the coefficient ROMs or any other parameter of the build (10_state.md R39, 70_reset_and_hazards.md
R156). -/
def Obligations.BuildNeverChanges : Prop :=
  ∀ s t : State, step s = .next t → t.build = s.build

/-- BUSY rises only by acceptance and falls only by completion, a bus error or reset; DONE rises only when BUSY falls by
completion or a bus error (10_state.md R25, R26). -/
def Obligations.BusyAndDoneWriters : Prop :=
  ∀ s t : State, step s = .next t →
    (s.status.busy = false → t.status.busy = true →
      ∃ v rest, s.host = .wr 0x010 32 v :: rest ∧ isPredict s.build.avgPresent v = true ∧ t.latch.cmd = v ∧
        t.latch.k = 0) ∧
    (s.status.busy = true → t.status.busy = false →
      s.turns.head? = some .reset ∨
      (t.status.done = true ∧
        (s.latch.k = accessCount s.build s.latch ∨
          ∃ a, (accessSequence s.build s.latch)[s.latch.k]? = some a ∧
            admitted s.build (accessAddr s.latch a) (accessKind a) = false))) ∧
    (s.status.done = false → t.status.done = true → s.status.busy = true ∧ t.status.busy = false)

/-- `CMD` reads the word of the most recently accepted operation: what it reads changes only by an acceptance, to the
word accepted, and by reset, to 0 (10_state.md R28). -/
def Obligations.CmdReadsLastAccepted : Prop :=
  ∀ s t : State, step s = .next t →
    t.latch.cmd = s.latch.cmd ∨
    (s.turns.head? = some .reset ∧ t.latch.cmd = 0) ∨
    (s.status.busy = false ∧ t.status.busy = true ∧
      ∃ v rest, s.host = .wr 0x010 32 v :: rest ∧ isPredict s.build.avgPresent v = true ∧ t.latch.cmd = v)

/-- `ERRADDR` is written only by a bus error, to the failing address, and by reset, to 0 (10_state.md R30). -/
def Obligations.ErrAddrWriters : Prop :=
  ∀ s t : State, step s = .next t →
    t.errAddr = s.errAddr ∨
    (s.turns.head? = some .reset ∧ t.errAddr = 0) ∨
    (s.status.busy = true ∧ t.status.errCode = 3 ∧ t.status.err = true ∧
      ∃ a, (accessSequence s.build s.latch)[s.latch.k]? = some a ∧
        admitted s.build (accessAddr s.latch a) (accessKind a) = false ∧ t.errAddr = accessAddr s.latch a)

/-- What an idle engine keeps in its latch but `L.CMD`, in `L.K` and in its buffers can never be told: two states that
differ only there read alike, drive IRQ alike, and step to states that differ only there (10_state.md R32 to R35; which fields stand for the buffers is assumption log
6's choice, and the stop of a state no run reaches is assumption log 13's). -/
def Obligations.HiddenStateUnobservable : Prop :=
  ∀ s s' : State, observable s = observable s' →
    (∀ off width, hostRead off width s = hostRead off width s') ∧ irq s = irq s' ∧
    ((∃ t t', step s = .next t ∧ step s' = .next t' ∧ observable t = observable t') ∨
      (step s = .fault .stuckSequencer ∧ step s' = .fault .stuckSequencer))
end

