-- ==== Sys2Proof/Laws/State.lean ====
section
/-! SUPPORT. What each named update does to each field of the state: one lemma per field, true by definition, so that no
proof unfolds an update. -/

namespace Sys2Proof.Machine

/-! ### respond -/

@[simp] theorem respond_build (r : Response) (s : State) : (respond r s).build = s.build := rfl
@[simp] theorem respond_ctrl (r : Response) (s : State) : (respond r s).ctrl = s.ctrl := rfl
@[simp] theorem respond_status (r : Response) (s : State) : (respond r s).status = s.status := rfl
@[simp] theorem respond_srcBase (r : Response) (s : State) : (respond r s).srcBase = s.srcBase := rfl
@[simp] theorem respond_srcStride (r : Response) (s : State) : (respond r s).srcStride = s.srcStride := rfl
@[simp] theorem respond_dstBase (r : Response) (s : State) : (respond r s).dstBase = s.dstBase := rfl
@[simp] theorem respond_dstStride (r : Response) (s : State) : (respond r s).dstStride = s.dstStride := rfl
@[simp] theorem respond_errAddr (r : Response) (s : State) : (respond r s).errAddr = s.errAddr := rfl
@[simp] theorem respond_latch (r : Response) (s : State) : (respond r s).latch = s.latch := rfl
@[simp] theorem respond_samples (r : Response) (s : State) : (respond r s).samples = s.samples := rfl
@[simp] theorem respond_inter (r : Response) (s : State) : (respond r s).inter = s.inter := rfl
@[simp] theorem respond_dest (r : Response) (s : State) : (respond r s).dest = s.dest := rfl
@[simp] theorem respond_mem (r : Response) (s : State) : (respond r s).mem = s.mem := rfl
@[simp] theorem respond_unseen (r : Response) (s : State) : (respond r s).unseen = s.unseen := rfl
@[simp] theorem respond_view (r : Response) (s : State) : (respond r s).view = s.view := rfl
@[simp] theorem respond_response (r : Response) (s : State) : (respond r s).response = some r := rfl
@[simp] theorem respond_host (r : Response) (s : State) : (respond r s).host = s.host := rfl
@[simp] theorem respond_turns (r : Response) (s : State) : (respond r s).turns = s.turns := rfl
@[simp] theorem respond_freeCount (r : Response) (s : State) : (respond r s).freeCount = s.freeCount := rfl

/-! ### acknowledge -/

@[simp] theorem acknowledge_build (v : Word) (s : State) : (acknowledge v s).build = s.build := rfl
@[simp] theorem acknowledge_ctrl (v : Word) (s : State) : (acknowledge v s).ctrl = s.ctrl := rfl
@[simp] theorem acknowledge_status (v : Word) (s : State) : (acknowledge v s).status = s.status.cleared v := rfl
@[simp] theorem acknowledge_srcBase (v : Word) (s : State) : (acknowledge v s).srcBase = s.srcBase := rfl
@[simp] theorem acknowledge_srcStride (v : Word) (s : State) : (acknowledge v s).srcStride = s.srcStride := rfl
@[simp] theorem acknowledge_dstBase (v : Word) (s : State) : (acknowledge v s).dstBase = s.dstBase := rfl
@[simp] theorem acknowledge_dstStride (v : Word) (s : State) : (acknowledge v s).dstStride = s.dstStride := rfl
@[simp] theorem acknowledge_errAddr (v : Word) (s : State) : (acknowledge v s).errAddr = s.errAddr := rfl
@[simp] theorem acknowledge_latch (v : Word) (s : State) : (acknowledge v s).latch = s.latch := rfl
@[simp] theorem acknowledge_samples (v : Word) (s : State) : (acknowledge v s).samples = s.samples := rfl
@[simp] theorem acknowledge_inter (v : Word) (s : State) : (acknowledge v s).inter = s.inter := rfl
@[simp] theorem acknowledge_dest (v : Word) (s : State) : (acknowledge v s).dest = s.dest := rfl
@[simp] theorem acknowledge_mem (v : Word) (s : State) : (acknowledge v s).mem = s.mem := rfl
@[simp] theorem acknowledge_unseen (v : Word) (s : State) : (acknowledge v s).unseen = s.unseen := rfl
@[simp] theorem acknowledge_view (v : Word) (s : State) : (acknowledge v s).view = s.view := rfl
@[simp] theorem acknowledge_response (v : Word) (s : State) : (acknowledge v s).response = s.response := rfl
@[simp] theorem acknowledge_host (v : Word) (s : State) : (acknowledge v s).host = s.host := rfl
@[simp] theorem acknowledge_turns (v : Word) (s : State) : (acknowledge v s).turns = s.turns := rfl
@[simp] theorem acknowledge_freeCount (v : Word) (s : State) : (acknowledge v s).freeCount = s.freeCount := rfl

/-! ### accept -/

@[simp] theorem accept_build (f : Family) (a : Bool) (g : Geometry) (x y : Phase) (w : Word) (s : State) : (accept f a g x y w s).build = s.build := rfl
@[simp] theorem accept_ctrl (f : Family) (a : Bool) (g : Geometry) (x y : Phase) (w : Word) (s : State) : (accept f a g x y w s).ctrl = s.ctrl := rfl
@[simp] theorem accept_status (f : Family) (a : Bool) (g : Geometry) (x y : Phase) (w : Word) (s : State) : (accept f a g x y w s).status = Status.accepted := rfl
@[simp] theorem accept_srcBase (f : Family) (a : Bool) (g : Geometry) (x y : Phase) (w : Word) (s : State) : (accept f a g x y w s).srcBase = s.srcBase := rfl
@[simp] theorem accept_srcStride (f : Family) (a : Bool) (g : Geometry) (x y : Phase) (w : Word) (s : State) : (accept f a g x y w s).srcStride = s.srcStride := rfl
@[simp] theorem accept_dstBase (f : Family) (a : Bool) (g : Geometry) (x y : Phase) (w : Word) (s : State) : (accept f a g x y w s).dstBase = s.dstBase := rfl
@[simp] theorem accept_dstStride (f : Family) (a : Bool) (g : Geometry) (x y : Phase) (w : Word) (s : State) : (accept f a g x y w s).dstStride = s.dstStride := rfl
@[simp] theorem accept_errAddr (f : Family) (a : Bool) (g : Geometry) (x y : Phase) (w : Word) (s : State) : (accept f a g x y w s).errAddr = s.errAddr := rfl
@[simp] theorem accept_latch (f : Family) (a : Bool) (g : Geometry) (x y : Phase) (w : Word) (s : State) : (accept f a g x y w s).latch = ⟨w, s.srcBase, s.srcStride, s.dstBase, s.dstStride, f, a, g, x, y, 0⟩ := rfl
@[simp] theorem accept_samples (f : Family) (a : Bool) (g : Geometry) (x y : Phase) (w : Word) (s : State) : (accept f a g x y w s).samples = [] := rfl
@[simp] theorem accept_inter (f : Family) (a : Bool) (g : Geometry) (x y : Phase) (w : Word) (s : State) : (accept f a g x y w s).inter = [] := rfl
@[simp] theorem accept_dest (f : Family) (a : Bool) (g : Geometry) (x y : Phase) (w : Word) (s : State) : (accept f a g x y w s).dest = [] := rfl
@[simp] theorem accept_mem (f : Family) (a : Bool) (g : Geometry) (x y : Phase) (w : Word) (s : State) : (accept f a g x y w s).mem = s.mem := rfl
@[simp] theorem accept_unseen (f : Family) (a : Bool) (g : Geometry) (x y : Phase) (w : Word) (s : State) : (accept f a g x y w s).unseen = s.unseen := rfl
@[simp] theorem accept_view (f : Family) (a : Bool) (g : Geometry) (x y : Phase) (w : Word) (s : State) : (accept f a g x y w s).view = s.view := rfl
@[simp] theorem accept_response (f : Family) (a : Bool) (g : Geometry) (x y : Phase) (w : Word) (s : State) : (accept f a g x y w s).response = s.response := rfl
@[simp] theorem accept_host (f : Family) (a : Bool) (g : Geometry) (x y : Phase) (w : Word) (s : State) : (accept f a g x y w s).host = s.host := rfl
@[simp] theorem accept_turns (f : Family) (a : Bool) (g : Geometry) (x y : Phase) (w : Word) (s : State) : (accept f a g x y w s).turns = s.turns := rfl
@[simp] theorem accept_freeCount (f : Family) (a : Bool) (g : Geometry) (x y : Phase) (w : Word) (s : State) : (accept f a g x y w s).freeCount = s.freeCount := rfl

/-! ### resetEngine -/

@[simp] theorem resetEngine_build (s : State) : (resetEngine s).build = s.build := rfl
@[simp] theorem resetEngine_ctrl (s : State) : (resetEngine s).ctrl = Ctrl.reset := rfl
@[simp] theorem resetEngine_status (s : State) : (resetEngine s).status = Status.reset := rfl
@[simp] theorem resetEngine_srcBase (s : State) : (resetEngine s).srcBase = 0 := rfl
@[simp] theorem resetEngine_srcStride (s : State) : (resetEngine s).srcStride = 0 := rfl
@[simp] theorem resetEngine_dstBase (s : State) : (resetEngine s).dstBase = 0 := rfl
@[simp] theorem resetEngine_dstStride (s : State) : (resetEngine s).dstStride = 0 := rfl
@[simp] theorem resetEngine_errAddr (s : State) : (resetEngine s).errAddr = 0 := rfl
@[simp] theorem resetEngine_latch (s : State) : (resetEngine s).latch = Latch.reset := rfl
@[simp] theorem resetEngine_samples (s : State) : (resetEngine s).samples = [] := rfl
@[simp] theorem resetEngine_inter (s : State) : (resetEngine s).inter = [] := rfl
@[simp] theorem resetEngine_dest (s : State) : (resetEngine s).dest = [] := rfl
@[simp] theorem resetEngine_mem (s : State) : (resetEngine s).mem = s.mem := rfl
@[simp] theorem resetEngine_unseen (s : State) : (resetEngine s).unseen = s.unseen := rfl
@[simp] theorem resetEngine_view (s : State) : (resetEngine s).view = s.view := rfl
@[simp] theorem resetEngine_response (s : State) : (resetEngine s).response = s.response := rfl
@[simp] theorem resetEngine_host (s : State) : (resetEngine s).host = s.host := rfl
@[simp] theorem resetEngine_turns (s : State) : (resetEngine s).turns = s.turns := rfl
@[simp] theorem resetEngine_freeCount (s : State) : (resetEngine s).freeCount = s.freeCount := rfl

/-! ### completionStep -/

@[simp] theorem completionStep_build (s : State) : (completionStep s).build = s.build := rfl
@[simp] theorem completionStep_ctrl (s : State) : (completionStep s).ctrl = s.ctrl := rfl
@[simp] theorem completionStep_status (s : State) : (completionStep s).status = s.status.ended := rfl
@[simp] theorem completionStep_srcBase (s : State) : (completionStep s).srcBase = s.srcBase := rfl
@[simp] theorem completionStep_srcStride (s : State) : (completionStep s).srcStride = s.srcStride := rfl
@[simp] theorem completionStep_dstBase (s : State) : (completionStep s).dstBase = s.dstBase := rfl
@[simp] theorem completionStep_dstStride (s : State) : (completionStep s).dstStride = s.dstStride := rfl
@[simp] theorem completionStep_errAddr (s : State) : (completionStep s).errAddr = s.errAddr := rfl
@[simp] theorem completionStep_latch (s : State) : (completionStep s).latch = s.latch := rfl
@[simp] theorem completionStep_samples (s : State) : (completionStep s).samples = s.samples := rfl
@[simp] theorem completionStep_inter (s : State) : (completionStep s).inter = s.inter := rfl
@[simp] theorem completionStep_dest (s : State) : (completionStep s).dest = s.dest := rfl
@[simp] theorem completionStep_mem (s : State) : (completionStep s).mem = s.mem := rfl
@[simp] theorem completionStep_unseen (s : State) : (completionStep s).unseen = s.unseen := rfl
@[simp] theorem completionStep_view (s : State) : (completionStep s).view = s.view := rfl
@[simp] theorem completionStep_response (s : State) : (completionStep s).response = s.response := rfl
@[simp] theorem completionStep_host (s : State) : (completionStep s).host = s.host := rfl
@[simp] theorem completionStep_turns (s : State) : (completionStep s).turns = s.turns := rfl
@[simp] theorem completionStep_freeCount (s : State) : (completionStep s).freeCount = s.freeCount := rfl

/-! ### recordSample -/

@[simp] theorem recordSample_build (v : Byte) (s : State) : (recordSample v s).build = s.build := rfl
@[simp] theorem recordSample_ctrl (v : Byte) (s : State) : (recordSample v s).ctrl = s.ctrl := rfl
@[simp] theorem recordSample_status (v : Byte) (s : State) : (recordSample v s).status = s.status := rfl
@[simp] theorem recordSample_srcBase (v : Byte) (s : State) : (recordSample v s).srcBase = s.srcBase := rfl
@[simp] theorem recordSample_srcStride (v : Byte) (s : State) : (recordSample v s).srcStride = s.srcStride := rfl
@[simp] theorem recordSample_dstBase (v : Byte) (s : State) : (recordSample v s).dstBase = s.dstBase := rfl
@[simp] theorem recordSample_dstStride (v : Byte) (s : State) : (recordSample v s).dstStride = s.dstStride := rfl
@[simp] theorem recordSample_errAddr (v : Byte) (s : State) : (recordSample v s).errAddr = s.errAddr := rfl
@[simp] theorem recordSample_latch (v : Byte) (s : State) : (recordSample v s).latch = s.latch := rfl
@[simp] theorem recordSample_samples (v : Byte) (s : State) : (recordSample v s).samples = s.samples ++ [v] := rfl
@[simp] theorem recordSample_dest (v : Byte) (s : State) : (recordSample v s).dest = s.dest := rfl
@[simp] theorem recordSample_mem (v : Byte) (s : State) : (recordSample v s).mem = s.mem := rfl
@[simp] theorem recordSample_unseen (v : Byte) (s : State) : (recordSample v s).unseen = s.unseen := rfl
@[simp] theorem recordSample_view (v : Byte) (s : State) : (recordSample v s).view = s.view := rfl
@[simp] theorem recordSample_response (v : Byte) (s : State) : (recordSample v s).response = s.response := rfl
@[simp] theorem recordSample_host (v : Byte) (s : State) : (recordSample v s).host = s.host := rfl
@[simp] theorem recordSample_turns (v : Byte) (s : State) : (recordSample v s).turns = s.turns := rfl
@[simp] theorem recordSample_freeCount (v : Byte) (s : State) : (recordSample v s).freeCount = s.freeCount := rfl

/-! ### recordDest -/

@[simp] theorem recordDest_build (v : Byte) (s : State) : (recordDest v s).build = s.build := rfl
@[simp] theorem recordDest_ctrl (v : Byte) (s : State) : (recordDest v s).ctrl = s.ctrl := rfl
@[simp] theorem recordDest_status (v : Byte) (s : State) : (recordDest v s).status = s.status := rfl
@[simp] theorem recordDest_srcBase (v : Byte) (s : State) : (recordDest v s).srcBase = s.srcBase := rfl
@[simp] theorem recordDest_srcStride (v : Byte) (s : State) : (recordDest v s).srcStride = s.srcStride := rfl
@[simp] theorem recordDest_dstBase (v : Byte) (s : State) : (recordDest v s).dstBase = s.dstBase := rfl
@[simp] theorem recordDest_dstStride (v : Byte) (s : State) : (recordDest v s).dstStride = s.dstStride := rfl
@[simp] theorem recordDest_errAddr (v : Byte) (s : State) : (recordDest v s).errAddr = s.errAddr := rfl
@[simp] theorem recordDest_latch (v : Byte) (s : State) : (recordDest v s).latch = s.latch := rfl
@[simp] theorem recordDest_samples (v : Byte) (s : State) : (recordDest v s).samples = s.samples := rfl
@[simp] theorem recordDest_inter (v : Byte) (s : State) : (recordDest v s).inter = s.inter := rfl
@[simp] theorem recordDest_dest (v : Byte) (s : State) : (recordDest v s).dest = s.dest ++ [v] := rfl
@[simp] theorem recordDest_mem (v : Byte) (s : State) : (recordDest v s).mem = s.mem := rfl
@[simp] theorem recordDest_unseen (v : Byte) (s : State) : (recordDest v s).unseen = s.unseen := rfl
@[simp] theorem recordDest_view (v : Byte) (s : State) : (recordDest v s).view = s.view := rfl
@[simp] theorem recordDest_response (v : Byte) (s : State) : (recordDest v s).response = s.response := rfl
@[simp] theorem recordDest_host (v : Byte) (s : State) : (recordDest v s).host = s.host := rfl
@[simp] theorem recordDest_turns (v : Byte) (s : State) : (recordDest v s).turns = s.turns := rfl
@[simp] theorem recordDest_freeCount (v : Byte) (s : State) : (recordDest v s).freeCount = s.freeCount := rfl

/-! ### storeOutput -/

@[simp] theorem storeOutput_build (a : Word) (v : Byte) (s : State) : (storeOutput a v s).build = s.build := rfl
@[simp] theorem storeOutput_ctrl (a : Word) (v : Byte) (s : State) : (storeOutput a v s).ctrl = s.ctrl := rfl
@[simp] theorem storeOutput_status (a : Word) (v : Byte) (s : State) : (storeOutput a v s).status = s.status := rfl
@[simp] theorem storeOutput_srcBase (a : Word) (v : Byte) (s : State) : (storeOutput a v s).srcBase = s.srcBase := rfl
@[simp] theorem storeOutput_srcStride (a : Word) (v : Byte) (s : State) : (storeOutput a v s).srcStride = s.srcStride := rfl
@[simp] theorem storeOutput_dstBase (a : Word) (v : Byte) (s : State) : (storeOutput a v s).dstBase = s.dstBase := rfl
@[simp] theorem storeOutput_dstStride (a : Word) (v : Byte) (s : State) : (storeOutput a v s).dstStride = s.dstStride := rfl
@[simp] theorem storeOutput_errAddr (a : Word) (v : Byte) (s : State) : (storeOutput a v s).errAddr = s.errAddr := rfl
@[simp] theorem storeOutput_latch (a : Word) (v : Byte) (s : State) : (storeOutput a v s).latch = s.latch := rfl
@[simp] theorem storeOutput_samples (a : Word) (v : Byte) (s : State) : (storeOutput a v s).samples = s.samples := rfl
@[simp] theorem storeOutput_inter (a : Word) (v : Byte) (s : State) : (storeOutput a v s).inter = s.inter := rfl
@[simp] theorem storeOutput_dest (a : Word) (v : Byte) (s : State) : (storeOutput a v s).dest = s.dest := rfl
@[simp] theorem storeOutput_mem (a : Word) (v : Byte) (s : State) : (storeOutput a v s).mem = memWrite s.mem a v := rfl
@[simp] theorem storeOutput_unseen (a : Word) (v : Byte) (s : State) : (storeOutput a v s).unseen = s.unseen := rfl
@[simp] theorem storeOutput_view (a : Word) (v : Byte) (s : State) : (storeOutput a v s).view = noteWritten s.build a s.view := rfl
@[simp] theorem storeOutput_response (a : Word) (v : Byte) (s : State) : (storeOutput a v s).response = s.response := rfl
@[simp] theorem storeOutput_host (a : Word) (v : Byte) (s : State) : (storeOutput a v s).host = s.host := rfl
@[simp] theorem storeOutput_turns (a : Word) (v : Byte) (s : State) : (storeOutput a v s).turns = s.turns := rfl
@[simp] theorem storeOutput_freeCount (a : Word) (v : Byte) (s : State) : (storeOutput a v s).freeCount = s.freeCount := rfl

/-! ### countAccess -/

@[simp] theorem countAccess_build (s : State) : (countAccess s).build = s.build := rfl
@[simp] theorem countAccess_ctrl (s : State) : (countAccess s).ctrl = s.ctrl := rfl
@[simp] theorem countAccess_status (s : State) : (countAccess s).status = s.status := rfl
@[simp] theorem countAccess_srcBase (s : State) : (countAccess s).srcBase = s.srcBase := rfl
@[simp] theorem countAccess_srcStride (s : State) : (countAccess s).srcStride = s.srcStride := rfl
@[simp] theorem countAccess_dstBase (s : State) : (countAccess s).dstBase = s.dstBase := rfl
@[simp] theorem countAccess_dstStride (s : State) : (countAccess s).dstStride = s.dstStride := rfl
@[simp] theorem countAccess_errAddr (s : State) : (countAccess s).errAddr = s.errAddr := rfl
@[simp] theorem countAccess_latch (s : State) : (countAccess s).latch = { s.latch with k := s.latch.k + 1 } := rfl
@[simp] theorem countAccess_samples (s : State) : (countAccess s).samples = s.samples := rfl
@[simp] theorem countAccess_inter (s : State) : (countAccess s).inter = s.inter := rfl
@[simp] theorem countAccess_dest (s : State) : (countAccess s).dest = s.dest := rfl
@[simp] theorem countAccess_mem (s : State) : (countAccess s).mem = s.mem := rfl
@[simp] theorem countAccess_unseen (s : State) : (countAccess s).unseen = s.unseen := rfl
@[simp] theorem countAccess_view (s : State) : (countAccess s).view = s.view := rfl
@[simp] theorem countAccess_response (s : State) : (countAccess s).response = s.response := rfl
@[simp] theorem countAccess_host (s : State) : (countAccess s).host = s.host := rfl
@[simp] theorem countAccess_turns (s : State) : (countAccess s).turns = s.turns := rfl
@[simp] theorem countAccess_freeCount (s : State) : (countAccess s).freeCount = s.freeCount := rfl

/-! ### raise -/

@[simp] theorem raise_build (e : EngineError) (s : State) : (raise e s).build = s.build := by cases e <;> rfl
@[simp] theorem raise_ctrl (e : EngineError) (s : State) : (raise e s).ctrl = s.ctrl := by cases e <;> rfl
@[simp] theorem raise_srcBase (e : EngineError) (s : State) : (raise e s).srcBase = s.srcBase := by cases e <;> rfl
@[simp] theorem raise_srcStride (e : EngineError) (s : State) : (raise e s).srcStride = s.srcStride := by cases e <;> rfl
@[simp] theorem raise_dstBase (e : EngineError) (s : State) : (raise e s).dstBase = s.dstBase := by cases e <;> rfl
@[simp] theorem raise_dstStride (e : EngineError) (s : State) : (raise e s).dstStride = s.dstStride := by cases e <;> rfl
@[simp] theorem raise_latch (e : EngineError) (s : State) : (raise e s).latch = s.latch := by cases e <;> rfl
@[simp] theorem raise_samples (e : EngineError) (s : State) : (raise e s).samples = s.samples := by cases e <;> rfl
@[simp] theorem raise_inter (e : EngineError) (s : State) : (raise e s).inter = s.inter := by cases e <;> rfl
@[simp] theorem raise_dest (e : EngineError) (s : State) : (raise e s).dest = s.dest := by cases e <;> rfl
@[simp] theorem raise_mem (e : EngineError) (s : State) : (raise e s).mem = s.mem := by cases e <;> rfl
@[simp] theorem raise_unseen (e : EngineError) (s : State) : (raise e s).unseen = s.unseen := by cases e <;> rfl
@[simp] theorem raise_view (e : EngineError) (s : State) : (raise e s).view = s.view := by cases e <;> rfl
@[simp] theorem raise_response (e : EngineError) (s : State) : (raise e s).response = s.response := by cases e <;> rfl
@[simp] theorem raise_host (e : EngineError) (s : State) : (raise e s).host = s.host := by cases e <;> rfl
@[simp] theorem raise_turns (e : EngineError) (s : State) : (raise e s).turns = s.turns := by cases e <;> rfl
@[simp] theorem raise_freeCount (e : EngineError) (s : State) : (raise e s).freeCount = s.freeCount := by cases e <;> rfl

@[simp] theorem raise_illegalCommand_status (s : State) :
    (raise .illegalCommand s).status = s.status.recorded 1 := rfl
@[simp] theorem raise_commandWhileBusy_status (s : State) :
    (raise .commandWhileBusy s).status = s.status.recorded 2 := rfl
@[simp] theorem raise_busError_status (a : Word) (s : State) :
    (raise (.busError a) s).status = (s.status.recorded 3).ended := rfl
@[simp] theorem raise_illegalCommand_errAddr (s : State) : (raise .illegalCommand s).errAddr = s.errAddr := rfl
@[simp] theorem raise_commandWhileBusy_errAddr (s : State) : (raise .commandWhileBusy s).errAddr = s.errAddr := rfl
@[simp] theorem raise_busError_errAddr (a : Word) (s : State) : (raise (.busError a) s).errAddr = a := rfl

/-! ### maintain -/

@[simp] theorem maintain_build (lo hi : Word) (s : State) : (maintain lo hi s).build = s.build := rfl
@[simp] theorem maintain_ctrl (lo hi : Word) (s : State) : (maintain lo hi s).ctrl = s.ctrl := rfl
@[simp] theorem maintain_status (lo hi : Word) (s : State) : (maintain lo hi s).status = s.status := rfl
@[simp] theorem maintain_srcBase (lo hi : Word) (s : State) : (maintain lo hi s).srcBase = s.srcBase := rfl
@[simp] theorem maintain_srcStride (lo hi : Word) (s : State) : (maintain lo hi s).srcStride = s.srcStride := rfl
@[simp] theorem maintain_dstBase (lo hi : Word) (s : State) : (maintain lo hi s).dstBase = s.dstBase := rfl
@[simp] theorem maintain_dstStride (lo hi : Word) (s : State) : (maintain lo hi s).dstStride = s.dstStride := rfl
@[simp] theorem maintain_errAddr (lo hi : Word) (s : State) : (maintain lo hi s).errAddr = s.errAddr := rfl
@[simp] theorem maintain_latch (lo hi : Word) (s : State) : (maintain lo hi s).latch = s.latch := rfl
@[simp] theorem maintain_samples (lo hi : Word) (s : State) : (maintain lo hi s).samples = s.samples := rfl
@[simp] theorem maintain_inter (lo hi : Word) (s : State) : (maintain lo hi s).inter = s.inter := rfl
@[simp] theorem maintain_dest (lo hi : Word) (s : State) : (maintain lo hi s).dest = s.dest := rfl
@[simp] theorem maintain_mem (lo hi : Word) (s : State) : (maintain lo hi s).mem = s.mem := rfl
@[simp] theorem maintain_unseen (lo hi : Word) (s : State) : (maintain lo hi s).unseen = s.unseen := rfl
@[simp] theorem maintain_view (lo hi : Word) (s : State) : (maintain lo hi s).view = .maintained lo hi :: s.view := rfl
@[simp] theorem maintain_response (lo hi : Word) (s : State) : (maintain lo hi s).response = s.response := rfl
@[simp] theorem maintain_host (lo hi : Word) (s : State) : (maintain lo hi s).host = s.host := rfl
@[simp] theorem maintain_turns (lo hi : Word) (s : State) : (maintain lo hi s).turns = s.turns := rfl
@[simp] theorem maintain_freeCount (lo hi : Word) (s : State) : (maintain lo hi s).freeCount = s.freeCount := rfl

/-! ### publish -/

@[simp] theorem publish_build (n : Nat) (s : State) : (publish n s).build = s.build := by
  unfold publish; split <;> rfl
@[simp] theorem publish_ctrl (n : Nat) (s : State) : (publish n s).ctrl = s.ctrl := by
  unfold publish; split <;> rfl
@[simp] theorem publish_status (n : Nat) (s : State) : (publish n s).status = s.status := by
  unfold publish; split <;> rfl
@[simp] theorem publish_srcBase (n : Nat) (s : State) : (publish n s).srcBase = s.srcBase := by
  unfold publish; split <;> rfl
@[simp] theorem publish_srcStride (n : Nat) (s : State) : (publish n s).srcStride = s.srcStride := by
  unfold publish; split <;> rfl
@[simp] theorem publish_dstBase (n : Nat) (s : State) : (publish n s).dstBase = s.dstBase := by
  unfold publish; split <;> rfl
@[simp] theorem publish_dstStride (n : Nat) (s : State) : (publish n s).dstStride = s.dstStride := by
  unfold publish; split <;> rfl
@[simp] theorem publish_errAddr (n : Nat) (s : State) : (publish n s).errAddr = s.errAddr := by
  unfold publish; split <;> rfl
@[simp] theorem publish_latch (n : Nat) (s : State) : (publish n s).latch = s.latch := by
  unfold publish; split <;> rfl
@[simp] theorem publish_samples (n : Nat) (s : State) : (publish n s).samples = s.samples := by
  unfold publish; split <;> rfl
@[simp] theorem publish_inter (n : Nat) (s : State) : (publish n s).inter = s.inter := by
  unfold publish; split <;> rfl
@[simp] theorem publish_dest (n : Nat) (s : State) : (publish n s).dest = s.dest := by
  unfold publish; split <;> rfl
@[simp] theorem publish_view (n : Nat) (s : State) : (publish n s).view = s.view := by
  unfold publish; split <;> rfl
@[simp] theorem publish_response (n : Nat) (s : State) : (publish n s).response = s.response := by
  unfold publish; split <;> rfl
@[simp] theorem publish_host (n : Nat) (s : State) : (publish n s).host = s.host := by
  unfold publish; split <;> rfl
@[simp] theorem publish_turns (n : Nat) (s : State) : (publish n s).turns = s.turns := by
  unfold publish; split <;> rfl
@[simp] theorem publish_freeCount (n : Nat) (s : State) : (publish n s).freeCount = s.freeCount := by
  unfold publish; split <;> rfl

end Sys2Proof.Machine
end

