-- ==== Sys2Proof/Laws/Flags.lean ====
section
/-! SUPPORT. The status bits: the fields after each named update, the bits of the words software reads, and the
legality that every update keeps. -/

namespace Sys2Proof.Machine

@[simp] theorem ended_busy (st : Status) : st.ended.busy = false := rfl
@[simp] theorem ended_done (st : Status) : st.ended.done = true := rfl
@[simp] theorem ended_err (st : Status) : st.ended.err = st.err := rfl
@[simp] theorem ended_errCode (st : Status) : st.ended.errCode = st.errCode := rfl
@[simp] theorem recorded_busy (st : Status) (c : BitVec 4) : (st.recorded c).busy = st.busy := rfl
@[simp] theorem recorded_done (st : Status) (c : BitVec 4) : (st.recorded c).done = st.done := rfl
@[simp] theorem recorded_err (st : Status) (c : BitVec 4) : (st.recorded c).err = true := rfl
@[simp] theorem recorded_errCode (st : Status) (c : BitVec 4) : (st.recorded c).errCode = c := rfl
@[simp] theorem cleared_busy (st : Status) (v : Word) : (st.cleared v).busy = st.busy := rfl
@[simp] theorem accepted_busy : Status.accepted.busy = true := rfl
@[simp] theorem accepted_done : Status.accepted.done = false := rfl
@[simp] theorem accepted_err : Status.accepted.err = false := rfl
@[simp] theorem accepted_errCode : Status.accepted.errCode = 0 := rfl

/-- A write of `v` to `CTRL` stores `v & 3`. -/
theorem ctrl_word_ofWord (v : Word) : (Ctrl.ofWord v).word = v &&& 3 := by
  apply BitVec.eq_of_getLsbD_eq
  intro i hi
  simp only [Ctrl.word, Ctrl.ofWord, BitVec.getLsbD_append, BitVec.getLsbD_and]
  interval_cases i <;> simp

theorem statusLegal_reset : statusLegal Status.reset = true := by decide

theorem statusLegal_accepted : statusLegal Status.accepted = true := by decide

theorem statusLegal_iff (st : Status) :
    statusLegal st = true ↔
      (st.err = true ↔ st.errCode ≠ 0) ∧ st.errCode.toNat ≤ 3 ∧
        (st.busy = true → st.done = false ∧ (st.errCode = 0 ∨ st.errCode = 2)) := by
  rcases st with ⟨busy, done, err, code⟩
  cases busy <;> cases done <;> cases err <;> simp [statusLegal, and_assoc]

theorem statusLegal_ended {st : Status} (h : statusLegal st = true) : statusLegal st.ended = true := by
  rw [statusLegal_iff] at h ⊢
  exact ⟨h.1, h.2.1, by simp⟩

theorem statusLegal_cleared {st : Status} (v : Word) (h : statusLegal st = true) :
    statusLegal (st.cleared v) = true := by
  rw [statusLegal_iff] at h ⊢
  obtain ⟨h1, h2, h3⟩ := h
  unfold Status.cleared
  cases hv : v.getLsbD 2
  · refine ⟨by simpa using h1, by simpa using h2, fun hb => ⟨by simp [(h3 hb).1], by simpa using (h3 hb).2⟩⟩
  · refine ⟨by simp, by simp, fun hb => ⟨by simp [(h3 hb).1], .inl (by simp)⟩⟩

theorem statusLegal_recordedBusy {st : Status} (h : statusLegal st = true) : statusLegal (st.recorded 2) = true := by
  rw [statusLegal_iff] at h ⊢
  refine ⟨by simp, by simp, fun hb => ⟨(h.2.2 hb).1, .inr rfl⟩⟩

theorem statusLegal_recordedIdle {st : Status} (c : BitVec 4) (hc : c = 1 ∨ c = 3) (hb : st.busy = false) :
    statusLegal (st.recorded c) = true := by
  rw [statusLegal_iff]
  rcases hc with rfl | rfl <;> simp [hb]

theorem statusLegal_busError (st : Status) : statusLegal (st.recorded 3).ended = true := by
  rw [statusLegal_iff]
  simp

end Sys2Proof.Machine
end

