-- ==== Sys2Proof/Laws/Memory.lean ====
section
/-! SUPPORT. Pixel memory: a write is read back, leaves every other byte alone, and keeps the canonical form; and which
bytes of it the host sees. -/

namespace Sys2Proof.Machine

theorem lookup_below {lo n : Nat} {m : List Host.Cell} (h : cellsWf lo m = true) (hn : n < lo) :
    lookupCell m n = unlistedByte := by
  induction m generalizing lo with
  | nil => rfl
  | cons c rest ih =>
    obtain ⟨a, v⟩ := c
    simp only [cellsWf, Bool.and_eq_true, decide_eq_true_eq] at h
    rw [lookupCell, if_neg (by omega), ih h.2 (by omega)]

theorem cellsWf_mono {lo lo' : Nat} {m : List Host.Cell} (hl : lo' ≤ lo) (h : cellsWf lo m = true) :
    cellsWf lo' m = true := by
  cases m with
  | nil => rfl
  | cons c rest =>
    obtain ⟨a, v⟩ := c
    simp only [cellsWf, Bool.and_eq_true, decide_eq_true_eq] at h ⊢
    exact ⟨⟨⟨by omega, h.1.1.2⟩, h.1.2⟩, h.2⟩

/-- A store leaves every other byte as it was, whatever the list. -/
theorem lookup_store_ne {m : List Host.Cell} {n k : Nat} (w : Byte) (h : k ≠ n) :
    lookupCell (storeCell m n w) k = lookupCell m k := by
  induction m with
  | nil =>
    rw [storeCell]
    split
    · rfl
    · simp [lookupCell, Ne.symm h]
  | cons c rest ih =>
    obtain ⟨a, v⟩ := c
    simp only [storeCell]
    split
    · split
      · rfl
      · simp [lookupCell, Ne.symm h]
    · split
      · have ha : a ≠ k := by omega
        split <;> simp_all [lookupCell]
      · simp only [lookupCell, ih]

/-- A store is read back, in a list in canonical form. -/
theorem lookup_store_same {lo : Nat} {m : List Host.Cell} {n : Nat} (w : Byte) (h : cellsWf lo m = true) :
    lookupCell (storeCell m n w) n = w := by
  induction m generalizing lo with
  | nil =>
    rw [storeCell]
    split
    · simp_all [lookupCell]
    · simp [lookupCell]
  | cons c rest ih =>
    obtain ⟨a, v⟩ := c
    simp only [cellsWf, Bool.and_eq_true, decide_eq_true_eq] at h
    simp only [storeCell]
    split
    · split
      · rw [lookupCell, if_neg (by omega), lookup_below h.2 (by omega)]
        simp_all
      · simp [lookupCell]
    · split
      · split
        · rw [lookup_below h.2 (by omega)]
          simp_all
        · simp [lookupCell]
      · rw [lookupCell, if_neg (by omega), ih h.2]

/-- A store keeps the canonical form. -/
theorem store_wf {lo : Nat} {m : List Host.Cell} {n : Nat} (w : Byte) (h : cellsWf lo m = true) (hlo : lo ≤ n)
    (hn : n < 2 ^ 32) : cellsWf lo (storeCell m n w) = true := by
  induction m generalizing lo with
  | nil =>
    rw [storeCell]
    split
    · rfl
    · simp_all [cellsWf]
  | cons c rest ih =>
    obtain ⟨a, v⟩ := c
    have hc := h
    simp only [cellsWf, Bool.and_eq_true, decide_eq_true_eq] at h
    simp only [storeCell]
    split
    · split
      · exact hc
      · simp only [cellsWf, Bool.and_eq_true, decide_eq_true_eq]
        exact ⟨⟨⟨hlo, hn⟩, by simp_all⟩, ⟨⟨⟨by omega, h.1.1.2⟩, h.1.2⟩, h.2⟩⟩
    · split
      · split
        · exact cellsWf_mono (by omega) h.2
        · simp only [cellsWf, Bool.and_eq_true, decide_eq_true_eq]
          exact ⟨⟨⟨hlo, hn⟩, by simp_all⟩, by simp_all⟩
      · simp only [cellsWf, Bool.and_eq_true, decide_eq_true_eq]
        exact ⟨h.1, ih h.2 (by omega)⟩

/-- A write keeps the canonical form of pixel memory. -/
theorem memWrite_wf {m : List Host.Cell} (a : Word) (v : Byte) (h : memoryWf m = true) :
    memoryWf (memWrite m a v) = true :=
  store_wf v h (Nat.zero_le _) a.isLt

/-- A byte written is the byte read. -/
theorem memRead_memWrite_same {m : List Host.Cell} (a : Word) (v : Byte) (h : memoryWf m = true) :
    memRead (memWrite m a v) a = v :=
  lookup_store_same v h

/-- A write leaves every other byte alone. -/
theorem memRead_memWrite_ne (m : List Host.Cell) {a a' : Word} (v : Byte) (h : a' ≠ a) :
    memRead (memWrite m a v) a' = memRead m a' :=
  lookup_store_ne v fun e => h (BitVec.eq_of_toNat_eq e)

/-- Publishing a pending host write keeps the canonical form. -/
theorem publish_wf (n : Nat) (s : State) (h : memoryWf s.mem = true) : memoryWf (publish n s).mem = true := by
  unfold publish
  split
  · exact memWrite_wf _ _ h
  · exact h

/-! ### The host's view (20_memory.md R66) -/

/-- On a coherent platform a host load reads pixel memory. -/
theorem hostSees_coherent {s : State} (a : Word) (h : s.build.hostCoherent = true) : hostSees s a = true := by
  rw [hostSees, h, Bool.true_or]

/-- After maintenance of its range, and with no write of the host's own to it pending, a byte is seen. -/
theorem hostSees_maintain (s : State) {lo hi a : Word} (hl : lo.toNat ≤ a.toNat) (hh : a.toNat ≤ hi.toNat)
    (hu : ∀ w ∈ s.unseen, w.1 ≠ a) : hostSees (maintain lo hi s) a = true := by
  have : (s.unseen.all fun w => w.1 != a) = true := by simpa using hu
  simp [hostSees, maintain, maintainedAt, hl, hh, this]

/-- An engine write takes the byte out of an incoherent view, until maintenance. -/
theorem hostSees_storeOutput_same {s : State} (a : Word) (v : Byte) (h : s.build.hostCoherent = false) :
    hostSees (storeOutput a v s) a = false := by
  simp [hostSees, storeOutput, noteWritten, maintainedAt, h]

/-- An engine write leaves what the host sees at every other byte. -/
theorem hostSees_storeOutput_ne (s : State) {a a' : Word} (v : Byte) (h : a' ≠ a) :
    hostSees (storeOutput a v s) a' = hostSees s a' := by
  have hn : (a' != a) = true := by simpa using h
  cases hc : s.build.hostCoherent <;> simp [hostSees, storeOutput, noteWritten, maintainedAt, hc, hn]

/-- Everything a host byte load can do. -/
theorem hostMemRead_cases (a : Word) (s : State) :
    (inBlock s.build a = true ∧ hostMemRead a s = respond .busError s) ∨
    (inBlock s.build a = false ∧ hostSees s a = true ∧ hostMemRead a s = respond (.byte (memRead s.mem a)) s) ∨
    (inBlock s.build a = false ∧ hostSees s a = false ∧
      hostMemRead a s = respond (.byte (drawByte s).1) (drawByte s).2) := by
  unfold hostMemRead
  cases inBlock s.build a <;> cases hostSees s a <;> simp

/-- Reset memory is in canonical form. -/
theorem resetOf_wf (b : Build) : memoryWf (State.resetOf b).mem = true := rfl

end Sys2Proof.Machine
end

