-- ==== Sys2Proof/Laws/Ops.lean ====
section
/-! SUPPORT. One lemma for each shared operation that says everything it can do: issuing a command, the engine's step,
the host's accesses, and a step of the whole machine. -/

namespace Sys2Proof.Machine

/-- Everything the issue of a prediction command can do (45_control.md R119). -/
theorem issue_cases (f : Family) (a : Bool) (g : Geometry) (x y : Phase) (w : Word) (s : State) :
    (s.status.busy = true ∧ issue f a g x y w s = .next (raise .commandWhileBusy s)) ∨
    (s.status.busy = false ∧ a = true ∧ s.build.avgPresent = false ∧
      issue f a g x y w s = .next (raise .illegalCommand s)) ∨
    (s.status.busy = false ∧ (a = true → s.build.avgPresent = true) ∧
      issue f a g x y w s = .next (accept f a g x y w s)) := by
  unfold issue
  cases s.status.busy <;> cases a <;> cases s.build.avgPresent <;> simp

/-- The parts of a prediction command: family, variant, geometry and phases (30_encoding.md R78). -/
def predictParts : Instr → Option (Family × Bool × Geometry × Phase × Phase)
  | .sixtap4x4 x y => some (.sixtap, false, .g4x4, x, y)
  | .sixtap8x4 x y => some (.sixtap, false, .g8x4, x, y)
  | .sixtap8x8 x y => some (.sixtap, false, .g8x8, x, y)
  | .sixtap16x16 x y => some (.sixtap, false, .g16x16, x, y)
  | .sixtapAvg8x8 x y => some (.sixtap, true, .g8x8, x, y)
  | .sixtapAvg16x16 x y => some (.sixtap, true, .g16x16, x, y)
  | .bilin4x4 x y => some (.bilin, false, .g4x4, x, y)
  | .bilin8x4 x y => some (.bilin, false, .g8x4, x, y)
  | .bilin8x8 x y => some (.bilin, false, .g8x8, x, y)
  | .bilin16x16 x y => some (.bilin, false, .g16x16, x, y)
  | .bilinAvg8x8 x y => some (.bilin, true, .g8x8, x, y)
  | .bilinAvg16x16 x y => some (.bilin, true, .g16x16, x, y)
  | .nop => none

/-- Every meaning is `nop`'s or the issue of the command's own parts and word. -/
theorem exec_eq (i : Instr) (s : State) :
    exec i s = (match predictParts i with
      | some (f, a, g, x, y) => issue f a g x y (encode i) s
      | none => .next s) := by
  cases i <;> rfl

/-- Everything the engine's turn can do (45_control.md R124, R125, 60_exceptions.md R135). -/
theorem engineStep_cases (s : State) :
    (s.status.busy = false ∧ engineStep s = .next s) ∨
    (s.status.busy = true ∧ ∃ a, (accessSequence s.build s.latch)[s.latch.k]? = some a ∧
      admitted s.build (accessAddr s.latch a) (accessKind a) = true ∧ engineStep s = .next (performAccess a s)) ∨
    (s.status.busy = true ∧ ∃ a, (accessSequence s.build s.latch)[s.latch.k]? = some a ∧
      admitted s.build (accessAddr s.latch a) (accessKind a) = false ∧
      engineStep s = .next (raise (.busError (accessAddr s.latch a)) s)) ∨
    (s.status.busy = true ∧ (accessSequence s.build s.latch)[s.latch.k]? = none ∧
      s.latch.k = accessCount s.build s.latch ∧ engineStep s = .next (completionStep s)) ∨
    (s.status.busy = true ∧ (accessSequence s.build s.latch)[s.latch.k]? = none ∧
      s.latch.k ≠ accessCount s.build s.latch ∧ engineStep s = .fault .stuckSequencer) := by
  unfold engineStep accessStep
  cases hb : s.status.busy
  · simp
  · cases ha : (accessSequence s.build s.latch)[s.latch.k]? with
    | none => by_cases hk : s.latch.k = accessCount s.build s.latch <;> simp [hk]
    | some a => cases hd : admitted s.build (accessAddr s.latch a) (accessKind a) <;> simp [hd]

/-- Everything a write of a command word can do to the engine (45_control.md R119). -/
theorem writeCmd_cases (v : Word) (s : State) :
    writeCmd v s = .next s ∨
    (s.status.busy = true ∧ writeCmd v s = .next (raise .commandWhileBusy s)) ∨
    (s.status.busy = false ∧ writeCmd v s = .next (raise .illegalCommand s)) ∨
    (s.status.busy = false ∧ ∃ i f a g x y, decodeWord s.build.avgPresent v = .legal i ∧
      predictParts i = some (f, a, g, x, y) ∧ writeCmd v s = .next (accept f a g x y (encode i) s)) := by
  unfold writeCmd
  cases hd : decodeWord s.build.avgPresent v with
  | illegal why =>
    dsimp only [issueIllegal]
    cases hb : s.status.busy <;> simp
  | legal i =>
    dsimp only
    cases hp : predictParts i with
    | none => exact .inl (by rw [exec_eq, hp])
    | some p =>
      obtain ⟨f, a, g, x, y⟩ := p
      have he : exec i s = issue f a g x y (encode i) s := by rw [exec_eq, hp]
      rw [he]
      rcases issue_cases f a g x y (encode i) s with ⟨hb, h⟩ | ⟨hb, _, _, h⟩ | ⟨hb, _, h⟩
      · exact .inr (.inl ⟨hb, h⟩)
      · exact .inr (.inr (.inl ⟨hb, h⟩))
      · exact .inr (.inr (.inr ⟨hb, i, f, a, g, x, y, rfl, hp, h⟩))

end Sys2Proof.Machine
end

