-- ==== Sys2Proof/Laws/Decode.lean ====
section
/-! SUPPORT. The command word: its fields as digits of one number, what a row's word shows in each field, and which
words decode to what. -/

namespace Sys2Proof

open Sys2Proof.Machine

/-- The fields are the digits of the word (30_encoding.md R69). -/
theorem fields_toNat (w : Word) :
    w.toNat = (fieldSz w).toNat + 4 * (fieldFam w).toNat + 8 * (fieldAvg w).toNat + 16 * (fieldXph w).toNat
      + 128 * (fieldYph w).toNat + 1024 * (fieldRsv w).toNat + 2 ^ 28 * (fieldOpc w).toNat := by
  simp only [fieldSz, fieldFam, fieldAvg, fieldXph, fieldYph, fieldRsv, fieldOpc, BitVec.extractLsb'_toNat,
    BitVec.getLsbD, Nat.toNat_testBit, Nat.shiftRight_eq_div_pow]
  have := w.isLt
  omega

/-- A row's match value with its phases put in, as a number (30_encoding.md R78). -/
theorem commandWord_toNat (n : Fin 16) : ∀ x y : Phase,
    (commandWord (BitVec.ofNat 32 (0x10000000 + n)) x y).toNat = 0x10000000 + n + 16 * x.toNat + 128 * y.toNat := by
  revert n
  decide

theorem predictParts_some {i : Instr} (h : i ≠ .nop) : ∃ f a g x y, predictParts i = some (f, a, g, x, y) := by
  cases i <;> first | exact ⟨_, _, _, _, _, rfl⟩ | exact absurd rfl h

/-- The word of a prediction command shows the command's own parts (30_encoding.md R69, R78). -/
theorem parts_fields {i : Instr} {f a g x y} (h : predictParts i = some (f, a, g, x, y)) :
    familyOf (fieldFam (encode i)) = f ∧ fieldAvg (encode i) = a ∧ geometryOf (fieldSz (encode i)) = g ∧
      fieldXph (encode i) = x ∧ fieldYph (encode i) = y := by
  cases i <;> simp only [predictParts, Option.some.injEq, Prod.mk.injEq, reduceCtorEq] at h
  all_goals
    obtain ⟨rfl, rfl, rfl, rfl, rfl⟩ := h
    rename_i x y
    revert x y
    decide

/-- Only the averaging commands ask anything of the build (00_scope.md R8). -/
theorem wellFormed_parts {i : Instr} (avgPresent : Bool) {f a g x y} (h : predictParts i = some (f, a, g, x, y)) :
    wellFormed avgPresent i = (!a || avgPresent) := by
  cases i <;> simp only [predictParts, Option.some.injEq, Prod.mk.injEq, reduceCtorEq] at h
  all_goals
    obtain ⟨rfl, rfl, rfl, rfl, rfl⟩ := h
    rfl

/-- Only the word 0 is `nop` (30_encoding.md R77). -/
theorem decode_nop {avgPresent : Bool} {w : Word} (h : decodeWord avgPresent w = .legal .nop) : w = 0 := by
  unfold decodeWord at h
  split at h
  · assumption
  split at h
  · cases h
  split at h
  · cases h
  cases hf : fieldFam w <;> cases ha : fieldAvg w <;> cases hg : geometryOf (fieldSz w) <;>
    simp [hf, ha, hg, familyOf, predictRow] at h
  all_goals (split at h <;> simp at h)

theorem isPredict_iff (avgPresent : Bool) (w : Word) :
    isPredict avgPresent w = true ↔ ∃ i, i ≠ .nop ∧ decodeWord avgPresent w = .legal i := by
  unfold isPredict
  cases h : decodeWord avgPresent w with
  | illegal y => simp
  | legal i => cases i <;> simp

/-! ### Fields under a mask -/

theorem fieldOpc_and (w m : Word) : fieldOpc (w &&& m) = fieldOpc w &&& fieldOpc m := by
  apply BitVec.eq_of_getLsbD_eq
  intro i hi
  simp [fieldOpc, hi]

theorem fieldRsv_and (w m : Word) : fieldRsv (w &&& m) = fieldRsv w &&& fieldRsv m := by
  apply BitVec.eq_of_getLsbD_eq
  intro i hi
  simp [fieldRsv, hi]

theorem fieldSz_and (w m : Word) : fieldSz (w &&& m) = fieldSz w &&& fieldSz m := by
  apply BitVec.eq_of_getLsbD_eq
  intro i hi
  simp [fieldSz, hi]

/-- Under the mask of a prediction row, a word shows its fixed fields (30_encoding.md R78). -/
theorem fixed_fields {w p : Word} (h : w &&& 0xFFFFFC0F = p) :
    fieldOpc w = fieldOpc p ∧ fieldRsv w = fieldRsv p ∧ fieldSz w = fieldSz p ∧ fieldFam w = fieldFam p ∧
      fieldAvg w = fieldAvg p := by
  subst h
  rw [fieldOpc_and, fieldRsv_and, fieldSz_and]
  refine ⟨?_, ?_, ?_, by simp [fieldFam], by simp [fieldAvg]⟩
  · exact (BitVec.and_allOnes (x := fieldOpc w)).symm
  · exact (BitVec.and_allOnes (x := fieldRsv w)).symm
  · exact (BitVec.and_allOnes (x := fieldSz w)).symm

end Sys2Proof
end

