-- ==== Sys2Proof/Laws/Filter.lean ====
section
/-! SUPPORT. The filter arithmetic: rounding as floor division, ranges of the stages, and what 8-bit storage keeps. -/

namespace Sys2Proof.Machine

/-- `Round7` is floor division by 128 (40_filter_datapath.md R84). -/
theorem round7_eq (a : Int) : round7 a = (a + 64) / 128 := by
  rw [round7, Int.shiftRight_eq_div_pow]
  rfl

/-- The averaging step is floor division by 2. -/
theorem average_eq (v d : Int) : average v d = (v + d + 1) / 2 := by
  rw [average, Int.shiftRight_eq_div_pow]
  rfl

theorem clamp8_range (v : Int) : 0 ≤ clamp8 v ∧ clamp8 v ≤ 255 := by
  unfold clamp8
  omega

theorem clamp8_id {v : Int} (h0 : 0 ≤ v) (h1 : v ≤ 255) : clamp8 v = v := by
  unfold clamp8
  omega

/-- Rounding a unity-weighted value gives it back (40_filter_datapath.md R96). -/
theorem round7_unity (v : Int) : round7 (128 * v) = v := by
  rw [round7_eq]
  omega

/-- A stage applied to a unity-weighted pixel gives it back, in both families. -/
theorem stage_unity (fam : Family) {v : Int} (h0 : 0 ≤ v) (h1 : v ≤ 255) : stage fam (128 * v) = v := by
  cases fam
  · rw [stage, round7_unity, clamp8_id h0 h1]
  · rw [stage, round7_unity]

theorem sumTo_congr {n : Nat} {f g : Nat → Int} (h : ∀ k, k < n → f k = g k) : sumTo n f = sumTo n g := by
  induction n with
  | zero => rfl
  | succ n ih => rw [sumTo, sumTo, ih fun k hk => h k (by omega), h n (by omega)]

theorem sumTo_mul_right (n : Nat) (f : Nat → Int) (v : Int) : sumTo n (fun k => f k * v) = sumTo n f * v := by
  induction n with
  | zero => simp [sumTo]
  | succ n ih => simp [sumTo, ih, Int.add_mul]

theorem sumTo_le {n : Nat} {f g : Nat → Int} (h : ∀ k, k < n → f k ≤ g k) : sumTo n f ≤ sumTo n g := by
  induction n with
  | zero => exact Int.le_refl _
  | succ n ih => exact Int.add_le_add (ih fun k hk => h k (by omega)) (h n (by omega))

theorem sumTo_nonneg {n : Nat} {f : Nat → Int} (h : ∀ k, k < n → 0 ≤ f k) : 0 ≤ sumTo n f := by
  induction n with
  | zero => exact Int.le_refl _
  | succ n ih => exact Int.add_nonneg (ih fun k hk => h k (by omega)) (h n (by omega))

/-- A sum against a list read with a default is the list's own sum of products. -/
theorem sumTo_getD (row : List Tap) : sumTo row.length (fun k => (row.getD k 0).toInt) = (row.map BitVec.toInt).sum := by
  induction row using List.reverseRecOn with
  | nil => rfl
  | append_singleton row t ih =>
    rw [List.length_append, List.length_singleton, sumTo, List.map_append, List.sum_append, ← ih]
    congr 1
    · exact sumTo_congr fun k hk => by rw [List.getD_append _ _ _ _ hk]
    · simp

/-- Every phase of either table sums to 128 (10_state.md R41 (b), R43). -/
theorem tap_sum {b : Build} (hb : b.legal = true) (fam : Family) (p : Phase) :
    sumTo (tapCount b fam) (tap b fam p) = 128 := by
  cases fam with
  | bilin =>
    have hp : ∀ p : Phase, sumTo 2 (bilinCoef p.toNat) = 128 := by decide
    exact hp p
  | sixtap =>
    simp only [Build.legal, legalTable, Bool.and_eq_true, beq_iff_eq, List.all_eq_true] at hb
    obtain ⟨⟨hlen, hrows⟩, _⟩ := hb
    have hp : p.toNat < b.coef6.length := by rw [hlen]; exact p.isLt
    have hrow := hrows _ (List.getElem_mem hp)
    show sumTo (2 * b.extend.radius) (fun k => ((b.coef6.getD p.toNat []).getD k 0).toInt) = 128
    rw [List.getD_eq_getElem _ _ hp, ← hrow.1, sumTo_getD, hrow.2]

/-- Phase 0 is the identity: weight 128 at the centre, 0 elsewhere (10_state.md R41 (c), R43). -/
theorem tap_phase0 {b : Build} (hb : b.legal = true) (fam : Family) {k : Nat} (hk : k < tapCount b fam) :
    tap b fam 0 k = if k = centre b fam then 128 else 0 := by
  cases fam with
  | bilin =>
    have : k = 0 ∨ k = 1 := by simp only [tapCount] at hk; omega
    rcases this with rfl | rfl <;> rfl
  | sixtap =>
    simp only [Build.legal, legalTable, Bool.and_eq_true, beq_iff_eq, List.all_eq_true] at hb
    obtain ⟨⟨hlen, _⟩, hhead⟩ := hb
    have h0 : b.coef6.getD 0 [] = identityRow b.extend := by
      rw [List.getD_eq_getElem?_getD, ← List.head?_eq_getElem?, hhead]
      rfl
    simp only [tapCount] at hk
    simp only [tap, sixtapCoef, centre]
    rw [show (0 : Phase).toNat = 0 from rfl, h0, identityRow, List.getD_eq_getElem _ _ (by simpa using hk)]
    simp only [List.getElem_map, List.getElem_range]
    by_cases hc : k = b.extend.radius - 1 <;> simp [hc]

theorem sumTo_single {n c : Nat} (hc : c < n) {f : Nat → Int} (h : ∀ k, k < n → k ≠ c → f k = 0) :
    sumTo n f = f c := by
  induction n with
  | zero => omega
  | succ n ih =>
    rw [sumTo]
    rcases Nat.lt_succ_iff_lt_or_eq.mp hc with hlt | rfl
    · rw [ih hlt fun k hk => h k (by omega), h n (by omega) (by omega), Int.add_zero]
    · rw [show sumTo c f = 0 from by
        rw [sumTo_congr (g := fun _ => 0 * 0) fun k hk => h k (by omega) (by omega), sumTo_mul_right]
        simp, Int.zero_add]

theorem centre_lt (b : Build) (fam : Family) : centre b fam < tapCount b fam := by
  cases fam
  · simp only [centre, tapCount]
    cases b.extend <;> decide
  · exact Nat.zero_lt_two

/-- A stage's value is a pixel: by the clamp in the six-tap family, by the taps' signs and sum in the bilinear one
(40_filter_datapath.md R88, R89). -/
theorem stage_range (b : Build) (fam : Family) (p : Phase) {src : Nat → Int}
    (h : ∀ k, 0 ≤ src k ∧ src k ≤ 255) :
    0 ≤ stage fam (sumTo (tapCount b fam) fun k => tap b fam p k * src k) ∧
      stage fam (sumTo (tapCount b fam) fun k => tap b fam p k * src k) ≤ 255 := by
  cases fam with
  | sixtap => exact clamp8_range _
  | bilin =>
    have h0 := h 0
    have h1 := h 1
    have hp := p.isLt
    simp only [stage, tapCount, sumTo, tap, bilinCoef, round7_eq]
    norm_num
    obtain ⟨q, hq⟩ : ∃ q : Nat, p.toNat = q := ⟨_, rfl⟩
    rw [hq] at hp ⊢
    interval_cases q <;> norm_num <;> omega

/-- An 8-bit store of a pixel keeps it. -/
theorem toByte_toNat {v : Int} (h0 : 0 ≤ v) (h1 : v ≤ 255) : ((toByte v).toNat : Int) = v := by
  unfold toByte
  rw [BitVec.toNat_ofInt]
  omega

theorem hValue_range (b : Build) (fam : Family) (p : Phase) {src : Int → Int → Int}
    (h : ∀ r c, 0 ≤ src r c ∧ src r c ≤ 255) (i j : Nat) :
    0 ≤ hValue b fam p src i j ∧ hValue b fam p src i j ≤ 255 :=
  stage_range b fam p fun _ => h _ _

theorem vValue_range (b : Build) (fam : Family) (q : Phase) {buf : Nat → Nat → Int}
    (h : ∀ i j, 0 ≤ buf i j ∧ buf i j ≤ 255) (y x : Nat) :
    0 ≤ vValue b fam q buf y x ∧ vValue b fam q buf y x ≤ 255 :=
  stage_range b fam q fun _ => h _ _

theorem byte_range (v : Byte) : 0 ≤ (v.toNat : Int) ∧ (v.toNat : Int) ≤ 255 := by
  have := v.isLt
  omega

theorem sourceByte_range (m : List Host.Cell) (l : Latch) (r c : Int) :
    0 ≤ sourceByte m l r c ∧ sourceByte m l r c ≤ 255 :=
  byte_range _

theorem vValue_congr {b : Build} {fam : Family} {q : Phase} {f g : Nat → Nat → Int} {y x : Nat}
    (h : ∀ k, k < tapCount b fam → f (y + k) x = g (y + k) x) : vValue b fam q f y x = vValue b fam q g y x := by
  unfold vValue
  rw [sumTo_congr fun k hk => by rw [h k hk]]

theorem hValue_congr {b : Build} {fam : Family} {p : Phase} {f g : Int → Int → Int} {i j : Nat}
    (h : ∀ k : Nat, k < tapCount b fam →
      f (i - centre b fam) (j + k - centre b fam) = g (i - centre b fam) (j + k - centre b fam)) :
    hValue b fam p f i j = hValue b fam p g i j := by
  unfold hValue
  rw [sumTo_congr fun k hk => by rw [h k hk]]

end Sys2Proof.Machine
end

