-- ==== Sys2Proof/Laws/PerInstr.lean ====
section
/-! SUPPORT. One statement for every command: the opcode map has a row with the command's mnemonic, the row says whether
the command averages, and the command's word belongs to that row at every pair of phases (30_encoding.md R78). -/

/-- The opcode map has the command's row. -/
def Sys2Proof.Laws.RowOf.Statement (i : Sys2Proof.Instr) : Prop :=
  ∃ row ∈ Sys2Proof.opcodeRows,
    row.mnemonic = i.mnemonic ∧ row.averaging = i.isAveraging ∧ row.matches (Sys2Proof.encode i) = true

namespace Sys2Proof.Laws.RowOf

open Sys2Proof

/-- A row whose word matches at every pair of phases. -/
theorem of_row {row : OpcodeRow} {make : Phase → Phase → Instr} (hr : row ∈ opcodeRows)
    (hm : ∀ x y, row.mnemonic = (make x y).mnemonic ∧ row.averaging = (make x y).isAveraging)
    (hw : ∀ x y : Phase, row.matches (encode (make x y)) = true) (x y : Phase) : Statement (make x y) :=
  ⟨row, hr, (hm x y).1, (hm x y).2, hw x y⟩

theorem sixtap4x4 (x y : Phase) : Statement (.sixtap4x4 x y) :=
  of_row (row := ⟨"sixtap.4x4", 0xFFFFFC0F, 0x10000000, false⟩) (make := .sixtap4x4) (by decide) (fun _ _ => ⟨rfl, rfl⟩) (by decide) x y

theorem sixtap8x4 (x y : Phase) : Statement (.sixtap8x4 x y) :=
  of_row (row := ⟨"sixtap.8x4", 0xFFFFFC0F, 0x10000001, false⟩) (make := .sixtap8x4) (by decide) (fun _ _ => ⟨rfl, rfl⟩) (by decide) x y

theorem sixtap8x8 (x y : Phase) : Statement (.sixtap8x8 x y) :=
  of_row (row := ⟨"sixtap.8x8", 0xFFFFFC0F, 0x10000002, false⟩) (make := .sixtap8x8) (by decide) (fun _ _ => ⟨rfl, rfl⟩) (by decide) x y

theorem sixtap16x16 (x y : Phase) : Statement (.sixtap16x16 x y) :=
  of_row (row := ⟨"sixtap.16x16", 0xFFFFFC0F, 0x10000003, false⟩) (make := .sixtap16x16) (by decide) (fun _ _ => ⟨rfl, rfl⟩) (by decide) x y

theorem sixtapAvg8x8 (x y : Phase) : Statement (.sixtapAvg8x8 x y) :=
  of_row (row := ⟨"sixtap.avg.8x8", 0xFFFFFC0F, 0x1000000A, true⟩) (make := .sixtapAvg8x8) (by decide) (fun _ _ => ⟨rfl, rfl⟩) (by decide) x y

theorem sixtapAvg16x16 (x y : Phase) : Statement (.sixtapAvg16x16 x y) :=
  of_row (row := ⟨"sixtap.avg.16x16", 0xFFFFFC0F, 0x1000000B, true⟩) (make := .sixtapAvg16x16) (by decide) (fun _ _ => ⟨rfl, rfl⟩) (by decide) x y

theorem bilin4x4 (x y : Phase) : Statement (.bilin4x4 x y) :=
  of_row (row := ⟨"bilin.4x4", 0xFFFFFC0F, 0x10000004, false⟩) (make := .bilin4x4) (by decide) (fun _ _ => ⟨rfl, rfl⟩) (by decide) x y

theorem bilin8x4 (x y : Phase) : Statement (.bilin8x4 x y) :=
  of_row (row := ⟨"bilin.8x4", 0xFFFFFC0F, 0x10000005, false⟩) (make := .bilin8x4) (by decide) (fun _ _ => ⟨rfl, rfl⟩) (by decide) x y

theorem bilin8x8 (x y : Phase) : Statement (.bilin8x8 x y) :=
  of_row (row := ⟨"bilin.8x8", 0xFFFFFC0F, 0x10000006, false⟩) (make := .bilin8x8) (by decide) (fun _ _ => ⟨rfl, rfl⟩) (by decide) x y

theorem bilin16x16 (x y : Phase) : Statement (.bilin16x16 x y) :=
  of_row (row := ⟨"bilin.16x16", 0xFFFFFC0F, 0x10000007, false⟩) (make := .bilin16x16) (by decide) (fun _ _ => ⟨rfl, rfl⟩) (by decide) x y

theorem bilinAvg8x8 (x y : Phase) : Statement (.bilinAvg8x8 x y) :=
  of_row (row := ⟨"bilin.avg.8x8", 0xFFFFFC0F, 0x1000000E, true⟩) (make := .bilinAvg8x8) (by decide) (fun _ _ => ⟨rfl, rfl⟩) (by decide) x y

theorem bilinAvg16x16 (x y : Phase) : Statement (.bilinAvg16x16 x y) :=
  of_row (row := ⟨"bilin.avg.16x16", 0xFFFFFC0F, 0x1000000F, true⟩) (make := .bilinAvg16x16) (by decide) (fun _ _ => ⟨rfl, rfl⟩) (by decide) x y

theorem nop : Statement .nop :=
  ⟨⟨"nop", 0xFFFFFFFF, 0x00000000, false⟩, by decide, rfl, rfl, by decide⟩

end Sys2Proof.Laws.RowOf
end

