-- ==== Sys2Proof/Laws/Registers.lean ====
section
/-! SUPPORT. The register map: what every offset names, said once. -/

namespace Sys2Proof.Machine

/-- Everything an offset can name (10_state.md R18). -/
theorem regAt_cases (off : BitVec 12) :
    (off.toNat = 0x000 ∧ regAt off = .id) ∨ (off.toNat = 0x004 ∧ regAt off = .config) ∨
    (off.toNat = 0x008 ∧ regAt off = .ctrl) ∨ (off.toNat = 0x00C ∧ regAt off = .status) ∨
    (off.toNat = 0x010 ∧ regAt off = .cmd) ∨ (off.toNat = 0x014 ∧ regAt off = .srcBase) ∨
    (off.toNat = 0x018 ∧ regAt off = .srcStride) ∨ (off.toNat = 0x01C ∧ regAt off = .dstBase) ∨
    (off.toNat = 0x020 ∧ regAt off = .dstStride) ∨ (off.toNat = 0x024 ∧ regAt off = .errAddr) ∨
    (0x100 ≤ off.toNat ∧ off.toNat ≤ 0x2FC ∧
      regAt off = .coef6 ((off.toNat - 0x100) / 0x40) ((off.toNat - 0x100) % 0x40 / 4)) ∨
    (0x300 ≤ off.toNat ∧ off.toNat ≤ 0x33C ∧
      regAt off = .coefB ((off.toNat - 0x300) / 8) ((off.toNat - 0x300) % 8 / 4)) ∨
    (off.toNat ∉ [0x000, 0x004, 0x008, 0x00C, 0x010, 0x014, 0x018, 0x01C, 0x020, 0x024] ∧
      ¬(0x100 ≤ off.toNat ∧ off.toNat ≤ 0x2FC) ∧ ¬(0x300 ≤ off.toNat ∧ off.toNat ≤ 0x33C) ∧
      regAt off = .unnamed) := by
  unfold regAt
  dsimp only
  generalize off.toNat = o
  by_cases h0 : o = 0x000
  · exact .inl ⟨h0, if_pos h0⟩
  rw [if_neg h0]
  by_cases h1 : o = 0x004
  · exact .inr (.inl ⟨h1, if_pos h1⟩)
  rw [if_neg h1]
  by_cases h2 : o = 0x008
  · exact .inr (.inr (.inl ⟨h2, if_pos h2⟩))
  rw [if_neg h2]
  by_cases h3 : o = 0x00C
  · exact .inr (.inr (.inr (.inl ⟨h3, if_pos h3⟩)))
  rw [if_neg h3]
  by_cases h4 : o = 0x010
  · exact .inr (.inr (.inr (.inr (.inl ⟨h4, if_pos h4⟩))))
  rw [if_neg h4]
  by_cases h5 : o = 0x014
  · exact .inr (.inr (.inr (.inr (.inr (.inl ⟨h5, if_pos h5⟩)))))
  rw [if_neg h5]
  by_cases h6 : o = 0x018
  · exact .inr (.inr (.inr (.inr (.inr (.inr (.inl ⟨h6, if_pos h6⟩))))))
  rw [if_neg h6]
  by_cases h7 : o = 0x01C
  · exact .inr (.inr (.inr (.inr (.inr (.inr (.inr (.inl ⟨h7, if_pos h7⟩)))))))
  rw [if_neg h7]
  by_cases h8 : o = 0x020
  · exact .inr (.inr (.inr (.inr (.inr (.inr (.inr (.inr (.inl ⟨h8, if_pos h8⟩))))))))
  rw [if_neg h8]
  by_cases h9 : o = 0x024
  · exact .inr (.inr (.inr (.inr (.inr (.inr (.inr (.inr (.inr (.inl ⟨h9, if_pos h9⟩)))))))))
  rw [if_neg h9]
  refine .inr (.inr (.inr (.inr (.inr (.inr (.inr (.inr (.inr (.inr ?_)))))))))
  by_cases ha : 0x100 ≤ o ∧ o ≤ 0x2FC
  · exact .inl ⟨ha.1, ha.2, if_pos ha⟩
  rw [if_neg ha]
  by_cases hb : 0x300 ≤ o ∧ o ≤ 0x33C
  · exact .inr (.inl ⟨hb.1, hb.2, if_pos hb⟩)
  rw [if_neg hb]
  exact .inr (.inr ⟨by simp [h0, h1, h2, h3, h4, h5, h6, h7, h8, h9], ha, hb, rfl⟩)

/-- The offsets whose registers take a write (45_control.md R115); a write elsewhere changes nothing (R127). -/
theorem writeReg_readOnly {off : BitVec 12} (h : off.toNat < 0x008 ∨ 0x020 < off.toNat) (v : Word) (s : State) :
    writeReg (regAt off) v s = .next s := by
  rcases regAt_cases off with ⟨_, h'⟩ | ⟨_, h'⟩ | ⟨_, h'⟩ | ⟨_, h'⟩ | ⟨_, h'⟩ | ⟨_, h'⟩ | ⟨_, h'⟩ | ⟨_, h'⟩ |
    ⟨_, h'⟩ | ⟨_, h'⟩ | ⟨_, _, h'⟩ | ⟨_, _, h'⟩ | ⟨_, _, _, h'⟩ <;> rw [h'] <;> first | rfl | omega

/-- Only offset 0x010 names `CMD`. -/
theorem regAt_cmd {off : BitVec 12} (h : regAt off = .cmd) : off = 0x010 := by
  rcases regAt_cases off with ⟨_, h'⟩ | ⟨_, h'⟩ | ⟨_, h'⟩ | ⟨_, h'⟩ | ⟨ho, h'⟩ | ⟨_, h'⟩ | ⟨_, h'⟩ | ⟨_, h'⟩ |
    ⟨_, h'⟩ | ⟨_, h'⟩ | ⟨_, _, h'⟩ | ⟨_, _, h'⟩ | ⟨_, _, _, h'⟩ <;> rw [h'] at h <;> first | (cases h; done) | skip
  exact BitVec.eq_of_toNat_eq ho

end Sys2Proof.Machine
end

