-- ==== Sys2Proof/Laws/Sequence.lean ====
section
/-! SUPPORT. The access sequence of an operation: its parts' lengths, and which access has which number. -/

namespace Sys2Proof.Machine

variable {α : Type}

theorem grid_length (n m : Nat) (f : Nat → Nat → α) :
    ((List.range n).flatMap fun i => (List.range m).map (f i)).length = n * m := by
  induction n with
  | zero => simp
  | succ n ih => rw [List.range_succ, List.flatMap_append, List.length_append, ih]; simp [Nat.succ_mul]

/-- Entry `k` of a grid listed row by row. -/
theorem grid_get (n m : Nat) (f : Nat → Nat → α) {k : Nat} (hk : k < n * m) :
    ((List.range n).flatMap fun i => (List.range m).map (f i))[k]? = some (f (k / m) (k % m)) := by
  induction n with
  | zero => omega
  | succ n ih =>
    have hm : 0 < m := Nat.pos_of_ne_zero fun h => by simp [h] at hk
    rw [List.range_succ, List.flatMap_append]
    by_cases h : k < n * m
    · rw [List.getElem?_append_left (by rwa [grid_length]), ih h]
    · have hle : n * m ≤ k := by omega
      have hlt : k - n * m < m := by rw [Nat.succ_mul] at hk; omega
      have hdiv : k / m = n := Nat.div_eq_of_lt_le hle hk
      have hmod : k % m = k - n * m := by
        have := Nat.div_add_mod k m
        rw [hdiv, Nat.mul_comm] at this
        omega
      rw [List.getElem?_append_right (by rwa [grid_length]), grid_length, hdiv, hmod]
      simp [hlt]

theorem pairs_length (xs : List α) {β : Type} (f g : α → β) :
    (xs.flatMap fun a => [f a, g a]).length = 2 * xs.length := by
  induction xs with
  | nil => rfl
  | cons x xs ih => rw [List.flatMap_cons, List.length_append, ih]; simp; omega

theorem pairs_get_even (xs : List α) {β : Type} (f g : α → β) (j : Nat) :
    (xs.flatMap fun a => [f a, g a])[2 * j]? = xs[j]?.map f := by
  induction xs generalizing j with
  | nil => simp
  | cons x xs ih =>
    cases j with
    | zero => rfl
    | succ j => exact ih j

theorem pairs_get_odd (xs : List α) {β : Type} (f g : α → β) (j : Nat) :
    (xs.flatMap fun a => [f a, g a])[2 * j + 1]? = xs[j]?.map g := by
  induction xs generalizing j with
  | nil => simp
  | cons x xs ih =>
    cases j with
    | zero => rfl
    | succ j => exact ih j

/-- The destination positions, by number. -/
theorem positions_length (l : Latch) : (positions l).length = blockHeight l.geom * blockWidth l.geom :=
  grid_length _ _ _

theorem positions_get (l : Latch) {j : Nat} (hj : j < blockHeight l.geom * blockWidth l.geom) :
    (positions l)[j]? = some (j / blockWidth l.geom, j % blockWidth l.geom) :=
  grid_get _ _ _ hj

theorem phaseA_eq (b : Build) (l : Latch) :
    phaseA b l = (List.range (footRows b l)).flatMap fun i => (List.range (footCols b l)).map fun j =>
      Access.readSrc (-(centre b l.fam : Int) + (i : Nat)) (-(centre b l.fam : Int) + (j : Nat)) := by
  simp only [phaseA, intRange, List.flatMap_map, List.map_map]
  rfl

theorem phaseA_length (b : Build) (l : Latch) : (phaseA b l).length = footCount b l := by
  rw [phaseA_eq, grid_length, footCount]

/-- Access number `n` of phase A reads footprint row `n / (W + T - 1)`, column `n % (W + T - 1)`. -/
theorem phaseA_get (b : Build) (l : Latch) {n : Nat} (hn : n < footCount b l) :
    (phaseA b l)[n]? = some (.readSrc (-(centre b l.fam : Int) + (n / footCols b l : Nat))
      (-(centre b l.fam : Int) + (n % footCols b l : Nat))) := by
  rw [phaseA_eq, grid_get _ _ _ (by rwa [footCount] at hn)]

theorem phaseB_eq (l : Latch) :
    phaseB l = (positions l).flatMap fun p => positionAccesses l.avg p.1 p.2 := by
  simp only [phaseB, positions, List.flatMap_assoc, List.flatMap_map]

theorem phaseB_plain {l : Latch} (h : l.avg = false) :
    phaseB l = (positions l).map fun p => Access.writeDst p.1 p.2 := by
  rw [phaseB_eq, h, List.map_eq_flatMap]
  rfl

theorem phaseB_averaging {l : Latch} (h : l.avg = true) :
    phaseB l = (positions l).flatMap fun p => [Access.readDst p.1 p.2, Access.writeDst p.1 p.2] := by
  rw [phaseB_eq, h]
  rfl

theorem phaseB_length (l : Latch) :
    (phaseB l).length = blockWidth l.geom * blockHeight l.geom * (if l.avg then 2 else 1) := by
  cases h : l.avg
  · rw [phaseB_plain h, List.length_map, positions_length, Nat.mul_comm]
    simp
  · rw [phaseB_averaging h, pairs_length, positions_length, Nat.mul_comm, Nat.mul_comm (blockHeight _)]
    simp

/-- The first accesses are phase A's. -/
theorem access_phaseA (b : Build) (l : Latch) {n : Nat} (hn : n < footCount b l) :
    (accessSequence b l)[n]? = some (.readSrc (-(centre b l.fam : Int) + (n / footCols b l : Nat))
      (-(centre b l.fam : Int) + (n % footCols b l : Nat))) := by
  rw [accessSequence, List.getElem?_append_left (by rwa [phaseA_length]), phaseA_get b l hn]

/-- The accesses after phase A are phase B's. -/
theorem access_phaseB (b : Build) (l : Latch) (m : Nat) :
    (accessSequence b l)[footCount b l + m]? = (phaseB l)[m]? := by
  rw [accessSequence, List.getElem?_append_right (by rw [phaseA_length]; omega), phaseA_length]
  congr 1
  omega

/-- An operation has `N_acc` accesses (20_memory.md R60). -/
theorem accessSequence_length (b : Build) (l : Latch) : (accessSequence b l).length = accessCount b l := by
  rw [accessSequence, List.length_append, phaseA_length, phaseB_length]
  rfl

/-- Past the last access there is none. -/
theorem access_none {b : Build} {l : Latch} {n : Nat} (h : accessCount b l ≤ n) : (accessSequence b l)[n]? = none :=
  List.getElem?_eq_none (by rwa [accessSequence_length])

theorem mem_positions (l : Latch) (y x : Nat) :
    (y, x) ∈ positions l ↔ y < blockHeight l.geom ∧ x < blockWidth l.geom := by
  simp [positions]

theorem mem_phaseA (b : Build) (l : Latch) (a : Access) :
    a ∈ phaseA b l ↔ ∃ i j : Nat, i < footRows b l ∧ j < footCols b l ∧
      a = .readSrc (-(centre b l.fam : Int) + i) (-(centre b l.fam : Int) + j) := by
  rw [phaseA_eq]
  simp only [List.mem_flatMap, List.mem_range, List.mem_map]
  constructor
  · rintro ⟨i, hi, j, hj, rfl⟩
    exact ⟨i, j, hi, hj, rfl⟩
  · rintro ⟨i, j, hi, hj, rfl⟩
    exact ⟨i, hi, j, hj, rfl⟩

theorem mem_phaseB (l : Latch) (a : Access) :
    a ∈ phaseB l ↔ ∃ y x : Nat, y < blockHeight l.geom ∧ x < blockWidth l.geom ∧
      (a = .writeDst y x ∨ (l.avg = true ∧ a = .readDst y x)) := by
  rw [phaseB_eq]
  simp only [List.mem_flatMap, Prod.exists, mem_positions]
  constructor
  · rintro ⟨y, x, ⟨hy, hx⟩, ha⟩
    refine ⟨y, x, hy, hx, ?_⟩
    cases h : l.avg <;> simp [positionAccesses, h] at ha
    · exact .inl ha
    · exact ha.symm.imp id fun h => ⟨rfl, h⟩
  · rintro ⟨y, x, hy, hx, ha⟩
    refine ⟨y, x, ⟨hy, hx⟩, ?_⟩
    rcases ha with rfl | ⟨h, rfl⟩
    · cases h : l.avg <;> simp [positionAccesses]
    · simp [positionAccesses, h]

end Sys2Proof.Machine
end

