-- ==== Sys2Proof/Laws/Step.lean ====
section
/-! SUPPORT. What one step can do, said once: the fields outside the engine may change in any way, and the engine,
pixel memory and the host's view of it change in one of a short list of ways.  Every invariant is proved from this list. -/

namespace Sys2Proof.Machine

/-- The state with its outside fields replaced: the bus's answer, the host program, the turns, the pending host writes
and the count of free values. -/
def State.outside (s : State) (r : Option Response) (h : List HostStep) (tn : List Turn) (un : List (Word × Byte))
    (fc : Nat) : State :=
  { s with response := r, host := h, turns := tn, unseen := un, freeCount := fc }

/-- The ways the engine, pixel memory and the host's view of it change in one step. -/
inductive EngineChange (s : State) : State → Prop where
  | nothing : EngineChange s s
  | ctrl (v : Word) : EngineChange s { s with ctrl := Ctrl.ofWord v }
  | status (v : Word) : EngineChange s (acknowledge v s)
  | srcBase (v : Word) : EngineChange s { s with srcBase := v }
  | srcStride (v : Word) : EngineChange s { s with srcStride := v }
  | dstBase (v : Word) : EngineChange s { s with dstBase := v }
  | dstStride (v : Word) : EngineChange s { s with dstStride := v }
  | rejected (hb : s.status.busy = true) : EngineChange s (raise .commandWhileBusy s)
  | illegal (hb : s.status.busy = false) : EngineChange s (raise .illegalCommand s)
  | accepted (hb : s.status.busy = false) {v : Word} {i : Instr} {f : Family} {a : Bool} {g : Geometry} {x y : Phase}
      (hd : decodeWord s.build.avgPresent v = .legal i) (hp : predictParts i = some (f, a, g, x, y)) :
      EngineChange s (accept f a g x y (encode i) s)
  | access (hb : s.status.busy = true) {a : Access} (ha : (accessSequence s.build s.latch)[s.latch.k]? = some a)
      (hd : admitted s.build (accessAddr s.latch a) (accessKind a) = true) : EngineChange s (performAccess a s)
  | busError (hb : s.status.busy = true) {a : Access} (ha : (accessSequence s.build s.latch)[s.latch.k]? = some a)
      (hd : admitted s.build (accessAddr s.latch a) (accessKind a) = false) :
      EngineChange s (raise (.busError (accessAddr s.latch a)) s)
  | complete (hb : s.status.busy = true) (hk : s.latch.k = accessCount s.build s.latch) :
      EngineChange s (completionStep s)
  | reset : EngineChange s (resetEngine s)
  | maintained (lo hi : Word) : EngineChange s (maintain lo hi s)
  | store (a : Word) (v : Byte) : EngineChange s { s with mem := memWrite s.mem a v }

theorem engineStep_change {s t : State} (h : engineStep s = .next t) : EngineChange s t := by
  rcases engineStep_cases s with ⟨_, he⟩ | ⟨hb, a, ha, hd, he⟩ | ⟨hb, a, ha, hd, he⟩ | ⟨hb, _, hk, he⟩ | ⟨_, _, _, he⟩ <;>
    rw [he] at h <;> cases h
  · exact .nothing
  · exact .access hb ha hd
  · exact .busError hb ha hd
  · exact .complete hb hk

/-- A register write always answers a next state. -/
theorem writeReg_change (r : Reg) (v : Word) (s : State) : ∃ t, writeReg r v s = .next t ∧ EngineChange s t := by
  cases r
  case ctrl => exact ⟨_, rfl, .ctrl v⟩
  case status => exact ⟨_, rfl, .status v⟩
  case srcBase => exact ⟨_, rfl, .srcBase v⟩
  case srcStride => exact ⟨_, rfl, .srcStride v⟩
  case dstBase => exact ⟨_, rfl, .dstBase v⟩
  case dstStride => exact ⟨_, rfl, .dstStride v⟩
  case cmd =>
    rcases writeCmd_cases v s with h | ⟨hb, h⟩ | ⟨hb, h⟩ | ⟨hb, i, f, a, g, x, y, hd, hp, h⟩
    · exact ⟨_, h, .nothing⟩
    · exact ⟨_, h, .rejected hb⟩
    · exact ⟨_, h, .illegal hb⟩
    · exact ⟨_, h, .accepted hb hd hp⟩
  all_goals exact ⟨s, rfl, .nothing⟩

/-- A host step always answers a next state. -/
theorem hostStep_change (h : HostStep) (s : State) :
    ∃ t r hs un fc, hostStep h s = .next t ∧ EngineChange (s.outside r hs s.turns un fc) t := by
  cases h with
  | rd off width => exact ⟨_, _, _, _, _, rfl, .nothing (s := s.outside _ s.host s.turns s.unseen s.freeCount)⟩
  | wr off width v =>
    simp only [hostStep, hostWrite]
    cases badAccess off width
    · obtain ⟨t, ht, hc⟩ := writeReg_change (regAt off) v (respond .written s)
      exact ⟨t, some .written, s.host, s.unseen, s.freeCount, by simpa using ht, hc⟩
    · exact ⟨_, _, _, _, _, rfl, .nothing (s := s.outside _ s.host s.turns s.unseen s.freeCount)⟩
  | poll =>
    simp only [hostStep, pollStep]
    cases s.status.busy
    · exact ⟨_, _, _, _, _, rfl, .nothing (s := s.outside _ s.host s.turns s.unseen s.freeCount)⟩
    · exact ⟨_, _, _, _, _, rfl, .nothing (s := s.outside _ _ s.turns s.unseen s.freeCount)⟩
  | memRb a =>
    simp only [hostStep, hostMemRead]
    cases inBlock s.build a <;> cases hostSees s a <;>
      exact ⟨_, _, _, _, _, rfl, .nothing (s := s.outside _ s.host s.turns s.unseen _)⟩
  | memWb a v =>
    simp only [hostStep, hostMemWrite]
    cases inBlock s.build a <;> cases s.build.hostCoherent
    · exact ⟨_, _, _, _, _, rfl, .nothing (s := s.outside _ s.host s.turns _ s.freeCount)⟩
    · exact ⟨_, some .written, s.host, s.unseen, s.freeCount, rfl,
        .store (s := s.outside (some .written) s.host s.turns s.unseen s.freeCount) a v⟩
    all_goals exact ⟨_, _, _, _, _, rfl, .nothing (s := s.outside _ s.host s.turns s.unseen s.freeCount)⟩

/-- A host turn always answers a next state. -/
theorem hostTurn_change (s : State) :
    ∃ t r hs un fc, hostTurn s = .next t ∧ EngineChange (s.outside r hs s.turns un fc) t := by
  unfold hostTurn
  cases hh : s.host with
  | nil => exact ⟨s, s.response, s.host, s.unseen, s.freeCount, rfl, .nothing⟩
  | cons h rest => exact hostStep_change h { s with host := rest }

/-- Publishing a pending host write is a store to pixel memory, or nothing. -/
theorem publish_change (n : Nat) (s : State) :
    ∃ un, EngineChange (s.outside s.response s.host s.turns un s.freeCount) (publish n s) := by
  unfold publish
  split
  · next a v _ =>
    exact ⟨(s.unseen.take n).filter (fun w => w.1 != a) ++ s.unseen.drop (n + 1),
      .store (s := s.outside s.response s.host s.turns _ s.freeCount) a v⟩
  · exact ⟨s.unseen, .nothing⟩

theorem takeTurn_change {tn : Turn} {s t : State} (h : takeTurn tn s = .next t) :
    ∃ r hs un fc, EngineChange (s.outside r hs s.turns un fc) t := by
  cases tn with
  | host =>
    obtain ⟨t', r, hs, un, fc, ht, hc⟩ := hostTurn_change s
    rw [takeTurn, ht] at h
    cases h
    exact ⟨r, hs, un, fc, hc⟩
  | engine => exact ⟨s.response, s.host, s.unseen, s.freeCount, engineStep_change h⟩
  | reset =>
    cases h
    exact ⟨s.response, s.host, s.unseen, s.freeCount, .reset⟩
  | publish n =>
    obtain ⟨un, hc⟩ := publish_change n s
    cases h
    exact ⟨s.response, s.host, un, s.freeCount, hc⟩
  | maintain lo hi =>
    cases h
    exact ⟨s.response, s.host, s.unseen, s.freeCount, .maintained lo hi⟩

/-- What a step can do: the outside fields change in some way, then the engine and pixel memory change in one way of the
list. -/
theorem step_change {s t : State} (h : step s = .next t) :
    ∃ r hs tn un fc, EngineChange (s.outside r hs tn un fc) t := by
  unfold step advance at h
  split at h
  · next tn rest _ =>
    obtain ⟨r, hs, un, fc, hc⟩ := takeTurn_change h
    exact ⟨r, hs, rest, un, fc, hc⟩
  · cases hb : s.status.busy
    · rw [hb] at h
      obtain ⟨t', r, hs, un, fc, ht, hc⟩ := hostTurn_change s
      rw [if_neg (by simp), ht] at h
      cases h
      exact ⟨r, hs, s.turns, un, fc, hc⟩
    · rw [hb, if_pos rfl] at h
      exact ⟨s.response, s.host, s.turns, s.unseen, s.freeCount, engineStep_change h⟩

/-- A run of `n + 1` steps is a step and a run of `n`. -/
theorem run_next (M : Host.Core) (n : Nat) {s t : M.State} (h : M.step s = .next t) : M.run (n + 1) s = M.run n t := by
  rw [Host.Core.run, h]

/-- The same for this machine. -/
theorem core_run_next {s t : State} (n : Nat) (h : step s = .next t) :
    Sys2Proof.core.run (n + 1) s = Sys2Proof.core.run n t :=
  run_next Sys2Proof.core n h

/-- A busy engine with no listed turn takes its own step. -/
theorem step_busy {s : State} (ht : s.turns = []) (hb : s.status.busy = true) : step s = engineStep s := by
  unfold step advance
  rw [ht]
  simp [hb]

/-- A property of the build, the engine and pixel memory that every change of the list keeps is kept by every step. -/
theorem step_keeps {P : State → Prop}
    (hout : ∀ s r hs tn un fc, P s → P (s.outside r hs tn un fc))
    (hchange : ∀ s t, P s → EngineChange s t → P t) {s t : State} (hs : P s) (h : step s = .next t) : P t := by
  obtain ⟨r, hs', tn, un, fc, hc⟩ := step_change h
  exact hchange _ _ (hout s r hs' tn un fc hs) hc

end Sys2Proof.Machine
end

