-- ==== Sys2Proof/Laws/Run.lean ====
section
/-! SUPPORT. An operation in flight: the state after `n` of its accesses as one expression, and the step from one such
state to the next. -/

namespace Sys2Proof.Machine

/-- All footprint bytes of an operation that finds `m` in pixel memory. -/
def footBytes (b : Build) (l : Latch) (m : List Host.Cell) : List Byte :=
  (phaseA b l).map fun a => memRead m (accessAddr l a)

/-- The existing bytes an averaging operation reads at its first `j` destination positions. -/
def oldBytes (b : Build) (l : Latch) (m : List Host.Cell) (j : Nat) : List Byte :=
  (List.range j).map fun i => memRead (memoryAtPosition b l m i) (destAddr l ((positions l).getD i (0, 0)))

/-- The state after the first `n` accesses of an operation accepted in `s`, all of them admitted. -/
def progress (s : State) (n : Nat) : State :=
  { s with
    latch := { s.latch with k := n }
    samples := (footBytes s.build s.latch s.mem).take n
    inter :=
      if n < footCount s.build s.latch then [] else hPass s.build s.latch (footBytes s.build s.latch s.mem)
    dest :=
      if s.latch.avg then oldBytes s.build s.latch s.mem ((n - footCount s.build s.latch + 1) / 2) else []
    mem := memoryAfter s.build s.latch s.mem n
    view := viewAfter s.build s.latch s.view n }

/-! ### What the buffers hold -/

theorem footBytes_length (b : Build) (l : Latch) (m : List Host.Cell) : (footBytes b l m).length = footCount b l := by
  rw [footBytes, List.length_map, phaseA_length]

theorem footBytes_get (b : Build) (l : Latch) (m : List Host.Cell) {i j : Nat} (hi : i < footRows b l)
    (hj : j < footCols b l) :
    (footBytes b l m).getD (i * footCols b l + j) 0
      = memRead m (blockAddr l.sb (s32 l.ss) (-(centre b l.fam : Int) + i) (-(centre b l.fam : Int) + j)) := by
  have hn : i * footCols b l + j < footCount b l := by
    have : (i + 1) * footCols b l ≤ footRows b l * footCols b l := Nat.mul_le_mul_right _ hi
    rw [Nat.succ_mul] at this
    rw [footCount]
    omega
  have hpos : 0 < footCols b l := by omega
  rw [footBytes, List.getD_eq_getElem?_getD, List.getElem?_map, phaseA_get b l hn, Nat.mul_comm,
    Nat.mul_add_div hpos, Nat.div_eq_of_lt hj, Nat.mul_add_mod, Nat.mod_eq_of_lt hj]
  rfl

/-- The footprint store holds the source bytes (10_state.md R35). -/
theorem sampleAt_footBytes (b : Build) (l : Latch) (m : List Host.Cell) {i j : Nat} (hi : i < footRows b l)
    (hj : j < footCols b l) :
    sampleAt b l (footBytes b l m) (i - centre b l.fam) (j - centre b l.fam)
      = sourceByte m l (i - centre b l.fam) (j - centre b l.fam) := by
  have hi' : ((i : Int) - centre b l.fam + centre b l.fam).toNat = i := by omega
  have hj' : ((j : Int) - centre b l.fam + centre b l.fam).toNat = j := by omega
  rw [sampleAt, hi', hj', footBytes_get b l m hi hj, sourceByte, Int.add_comm _ (i : Int), Int.add_comm _ (j : Int)]
  rfl

/-- The intermediate buffer holds the horizontal pass's values (10_state.md R34, 40_filter_datapath.md R87). -/
theorem interAt_hPass (b : Build) (l : Latch) (m : List Host.Cell) {i j : Nat} (hi : i < footRows b l)
    (hj : j < blockWidth l.geom) :
    interAt l (hPass b l (footBytes b l m)) i j = hValue b l.fam l.xph (sourceByte m l) i j := by
  have hn : i * blockWidth l.geom + j < footRows b l * blockWidth l.geom := by
    have : (i + 1) * blockWidth l.geom ≤ footRows b l * blockWidth l.geom := Nat.mul_le_mul_right _ hi
    rw [Nat.succ_mul] at this
    omega
  have hpos : 0 < blockWidth l.geom := by omega
  have hv : hValue b l.fam l.xph (sampleAt b l (footBytes b l m)) i j
      = hValue b l.fam l.xph (sourceByte m l) i j := by
    refine hValue_congr fun k hk => ?_
    have hk' : j + k < footCols b l := by simp only [footCols]; omega
    have := sampleAt_footBytes b l m hi hk'
    rwa [Nat.cast_add] at this
  have hr := hValue_range b l.fam l.xph (sourceByte_range m l) i j
  rw [interAt, hPass, List.getD_eq_getElem?_getD, grid_get _ _ _ hn, Nat.mul_comm, Nat.mul_add_div hpos,
    Nat.div_eq_of_lt hj, Nat.mul_add_mod, Nat.mod_eq_of_lt hj, Option.getD_some, Nat.add_zero, hv,
    toByte_toNat hr.1 hr.2]

/-- `P[y][x]` of an operation whose footprint is read is `Predict`'s (40_filter_datapath.md R95). -/
theorem filtered_progress (s : State) {n y x : Nat} (hn : footCount s.build s.latch ≤ n)
    (hy : y < blockHeight s.latch.geom) (hx : x < blockWidth s.latch.geom) :
    filtered (progress s n) y x
      = predictPixel s.build s.latch.fam s.latch.xph s.latch.yph (sourceByte s.mem s.latch) y x := by
  have hi : (progress s n).inter = hPass s.build s.latch (footBytes s.build s.latch s.mem) := by
    simp only [progress]
    rw [if_neg (by omega)]
  rw [filtered, hi, predictPixel]
  refine vValue_congr fun k hk => ?_
  refine interAt_hPass s.build s.latch s.mem ?_ hx
  have : k < tapCount s.build s.latch.fam := hk
  simp only [footRows]
  omega

theorem memoryAtPosition_succ (b : Build) (l : Latch) (m : List Host.Cell) {j : Nat} {p : Nat × Nat}
    (hp : (positions l)[j]? = some p) :
    memoryAtPosition b l m (j + 1) = storePosition b l (sourceByte m l) (memoryAtPosition b l m j) p := by
  rw [memoryAtPosition, List.take_add_one, hp]
  simp [memoryAtPosition]

theorem viewAfter_phaseA (b : Build) (l : Latch) (v : List ViewEvent) {k : Nat} (hk : k ≤ footCount b l) :
    viewAfter b l v k = v := by
  rw [viewAfter, positionsDone, Nat.sub_eq_zero_of_le hk, Nat.zero_div]
  rfl

theorem viewAfter_succ (b : Build) (l : Latch) (v : List ViewEvent) {n j : Nat} {p : Nat × Nat}
    (hp : (positions l)[j]? = some p) (hn : positionsDone b l n = j) (hs : positionsDone b l (n + 1) = j + 1) :
    viewAfter b l v (n + 1) = noteWritten b (destAddr l p) (viewAfter b l v n) := by
  rw [viewAfter, viewAfter, hn, hs, List.take_add_one, hp]
  simp

/-! ### One step -/

/-- The engine's step on an admitted access is that access. -/
theorem engineStep_progress (s : State) {n : Nat} {a : Access} (hb : s.status.busy = true)
    (ha : (accessSequence s.build s.latch)[n]? = some a)
    (hd : admitted s.build (accessAddr s.latch a) (accessKind a) = true) :
    engineStep (progress s n) = .next (performAccess a (progress s n)) := by
  have ha' : (accessSequence (progress s n).build (progress s n).latch)[(progress s n).latch.k]? = some a := ha
  have hb' : (progress s n).status.busy = true := hb
  have hd' : admitted (progress s n).build (accessAddr (progress s n).latch a) (accessKind a) = true := hd
  simp only [engineStep, hb', if_true, ha', accessStep, hd']

theorem memoryAfter_phaseA (b : Build) (l : Latch) (m : List Host.Cell) {k : Nat} (hk : k ≤ footCount b l) :
    memoryAfter b l m k = m := by
  rw [memoryAfter, positionsDone, Nat.sub_eq_zero_of_le hk, Nat.zero_div]
  rfl

theorem footBytes_take (b : Build) (l : Latch) (m : List Host.Cell) {k : Nat} (hk : footCount b l ≤ k) :
    (footBytes b l m).take k = footBytes b l m :=
  List.take_of_length_le (by rw [footBytes_length]; exact hk)

/-- Phase A: the next footprint byte is recorded, and the last one fills the intermediate buffer. -/
theorem performAccess_phaseA (s : State) {n : Nat} {a : Access} (hn : n < footCount s.build s.latch)
    (ha : (accessSequence s.build s.latch)[n]? = some a) :
    performAccess a (progress s n) = progress s (n + 1) := by
  rw [access_phaseA _ _ hn] at ha
  have hm := memoryAfter_phaseA s.build s.latch s.mem (Nat.le_of_lt hn)
  have hm1 := memoryAfter_phaseA s.build s.latch s.mem (Nat.succ_le_of_lt hn)
  have hs : (footBytes s.build s.latch s.mem).take n ++ [memRead (memoryAfter s.build s.latch s.mem n)
      (accessAddr s.latch a)] = (footBytes s.build s.latch s.mem).take (n + 1) := by
    rw [List.take_add_one, hm, footBytes, List.getElem?_map, phaseA_get _ _ hn, ha]
    rfl
  cases ha
  refine State.ext rfl rfl rfl rfl rfl rfl rfl rfl rfl hs ?_ ?_ (hm.trans hm1.symm) rfl ?_ rfl rfl rfl rfl
  · show (if ((footBytes s.build s.latch s.mem).take n ++ [memRead (memoryAfter s.build s.latch s.mem n) _]).length
          = footCount s.build s.latch then
        hPass s.build _ ((footBytes s.build s.latch s.mem).take n ++ [memRead (memoryAfter s.build s.latch s.mem n) _])
      else if n < footCount s.build s.latch then [] else _) = if n + 1 < footCount s.build s.latch then [] else _
    erw [hs]
    rw [List.length_take, footBytes_length, if_pos hn]
    by_cases hf : n + 1 = footCount s.build s.latch
    · rw [if_pos (by omega), if_neg (by omega), footBytes_take _ _ _ (by omega)]
      rfl
    · rw [if_neg (by omega), if_pos (by omega)]
  · show (if s.latch.avg then oldBytes s.build s.latch s.mem ((n - footCount s.build s.latch + 1) / 2) else [])
      = if s.latch.avg then oldBytes s.build s.latch s.mem ((n + 1 - footCount s.build s.latch + 1) / 2) else []
    rw [show n - footCount s.build s.latch = 0 by omega, show n + 1 - footCount s.build s.latch = 0 by omega]
  · exact (viewAfter_phaseA _ _ _ (Nat.le_of_lt hn)).trans (viewAfter_phaseA _ _ _ (Nat.succ_le_of_lt hn)).symm

/-- The byte written at a position is `O[y][x]` of the whole-operation function, once `D[y][x]` has been read if
averaging. -/
theorem outputByte_progress (s : State) {n j : Nat} (hn : footCount s.build s.latch ≤ n)
    (hj : j < blockHeight s.latch.geom * blockWidth s.latch.geom)
    (hd : s.latch.avg = true → j < (n - footCount s.build s.latch + 1) / 2) :
    outputByte (progress s n) (j / blockWidth s.latch.geom) (j % blockWidth s.latch.geom)
      = outputOf s.build s.latch (sourceByte s.mem s.latch) (j / blockWidth s.latch.geom, j % blockWidth s.latch.geom)
        (memRead (memoryAtPosition s.build s.latch s.mem j)
          (destAddr s.latch (j / blockWidth s.latch.geom, j % blockWidth s.latch.geom))) := by
  have hy : j / blockWidth s.latch.geom < blockHeight s.latch.geom := Nat.div_lt_of_lt_mul (by rwa [Nat.mul_comm])
  have hx : j % blockWidth s.latch.geom < blockWidth s.latch.geom :=
    Nat.mod_lt _ (Nat.pos_of_ne_zero fun h => by simp [h] at hj)
  have hf := filtered_progress s hn hy hx
  have hl : (progress s n).latch.avg = s.latch.avg := rfl
  rw [outputByte, outputOf, hf, hl]
  cases hav : s.latch.avg with
  | false => rfl
  | true =>
    have hdest : destAt (progress s n) (j / blockWidth s.latch.geom) (j % blockWidth s.latch.geom)
        = (memRead (memoryAtPosition s.build s.latch s.mem j)
          (destAddr s.latch (j / blockWidth s.latch.geom, j % blockWidth s.latch.geom))).toNat := by
      have hlist : (progress s n).dest = oldBytes s.build s.latch s.mem ((n - footCount s.build s.latch + 1) / 2) := by
        simp only [progress, hav, if_true]
      have hidx : j / blockWidth s.latch.geom * blockWidth (progress s n).latch.geom + j % blockWidth s.latch.geom = j :=
        Nat.div_add_mod' j _
      rw [destAt, hlist, hidx, oldBytes, List.getD_eq_getElem?_getD, List.getElem?_map,
        List.getElem?_range (hd hav)]
      simp only [Option.map_some, Option.getD_some]
      rw [List.getD_eq_getElem?_getD, positions_get _ hj]
      rfl
    rw [hdest]

/-- Phase B, a write: the position takes its output byte. -/
theorem performAccess_write (s : State) {n j : Nat} (hn : footCount s.build s.latch ≤ n)
    (hj : j < blockHeight s.latch.geom * blockWidth s.latch.geom)
    (hdone : positionsDone s.build s.latch n = j) (hnext : positionsDone s.build s.latch (n + 1) = j + 1)
    (hd : s.latch.avg = true → (n - footCount s.build s.latch + 1) / 2 = j + 1
      ∧ (n + 1 - footCount s.build s.latch + 1) / 2 = j + 1) :
    performAccess (.writeDst (j / blockWidth s.latch.geom) (j % blockWidth s.latch.geom)) (progress s n)
      = progress s (n + 1) := by
  have ho := outputByte_progress s hn hj fun h => by rw [(hd h).1]; omega
  refine State.ext rfl rfl rfl rfl rfl rfl rfl rfl rfl ?_ ?_ ?_ ?_ rfl ?_ rfl rfl rfl rfl
  · show (footBytes s.build s.latch s.mem).take n = (footBytes s.build s.latch s.mem).take (n + 1)
    rw [footBytes_take _ _ _ hn, footBytes_take _ _ _ (by omega)]
  · show (if n < footCount s.build s.latch then [] else _) = if n + 1 < footCount s.build s.latch then [] else _
    rw [if_neg (by omega), if_neg (by omega)]
  · show (if s.latch.avg then oldBytes s.build s.latch s.mem ((n - footCount s.build s.latch + 1) / 2) else [])
      = if s.latch.avg then oldBytes s.build s.latch s.mem ((n + 1 - footCount s.build s.latch + 1) / 2) else []
    cases hav : s.latch.avg with
    | false => rfl
    | true => rw [(hd hav).1, (hd hav).2]
  · show memWrite (memoryAfter s.build s.latch s.mem n) _ (outputByte (progress s n) _ _)
      = memoryAfter s.build s.latch s.mem (n + 1)
    rw [ho, memoryAfter, memoryAfter, hdone, hnext, memoryAtPosition_succ _ _ _ (positions_get s.latch hj)]
    rfl
  · exact (viewAfter_succ _ _ _ (positions_get s.latch hj) hdone hnext).symm

/-- Phase B, an averaging read: the existing byte is recorded. -/
theorem performAccess_readDst (s : State) {n j : Nat} (hn : footCount s.build s.latch ≤ n) (hav : s.latch.avg = true)
    (hj : j < blockHeight s.latch.geom * blockWidth s.latch.geom) (hnj : n - footCount s.build s.latch = 2 * j) :
    performAccess (.readDst (j / blockWidth s.latch.geom) (j % blockWidth s.latch.geom)) (progress s n)
      = progress s (n + 1) := by
  have hdone : positionsDone s.build s.latch n = j := by
    rw [positionsDone, hav, if_pos rfl, hnj]; omega
  have hnext : positionsDone s.build s.latch (n + 1) = j := by
    rw [positionsDone, hav, if_pos rfl]; omega
  refine State.ext rfl rfl rfl rfl rfl rfl rfl rfl rfl ?_ ?_ ?_ ?_ rfl ?_ rfl rfl rfl rfl
  · show (footBytes s.build s.latch s.mem).take n = (footBytes s.build s.latch s.mem).take (n + 1)
    rw [footBytes_take _ _ _ hn, footBytes_take _ _ _ (by omega)]
  · show (if n < footCount s.build s.latch then [] else _) = if n + 1 < footCount s.build s.latch then [] else _
    rw [if_neg (by omega), if_neg (by omega)]
  · show (if s.latch.avg then oldBytes s.build s.latch s.mem ((n - footCount s.build s.latch + 1) / 2) else [])
        ++ [memRead (memoryAfter s.build s.latch s.mem n) _]
      = if s.latch.avg then oldBytes s.build s.latch s.mem ((n + 1 - footCount s.build s.latch + 1) / 2) else []
    rw [hav, if_pos rfl, if_pos rfl, show (n - footCount s.build s.latch + 1) / 2 = j by omega,
      show (n + 1 - footCount s.build s.latch + 1) / 2 = j + 1 by omega, memoryAfter, hdone, oldBytes, oldBytes,
      List.range_succ, List.map_append, List.map_singleton, List.getD_eq_getElem?_getD, positions_get _ hj]
    rfl
  · show memoryAfter s.build s.latch s.mem n = memoryAfter s.build s.latch s.mem (n + 1)
    rw [memoryAfter, memoryAfter, hdone, hnext]
  · show viewAfter s.build s.latch s.view n = viewAfter s.build s.latch s.view (n + 1)
    rw [viewAfter, viewAfter, hdone, hnext]

/-- The operation goes from `n` accesses to `n + 1` by the engine's step, when access number `n` is admitted. -/
theorem progress_step (s : State) {n : Nat} {a : Access} (hb : s.status.busy = true)
    (ha : (accessSequence s.build s.latch)[n]? = some a)
    (hd : admitted s.build (accessAddr s.latch a) (accessKind a) = true) :
    engineStep (progress s n) = .next (progress s (n + 1)) := by
  rw [engineStep_progress s hb ha hd]
  congr 1
  by_cases hn : n < footCount s.build s.latch
  · exact performAccess_phaseA s hn ha
  · obtain ⟨m, rfl⟩ : ∃ m, n = footCount s.build s.latch + m := ⟨n - footCount s.build s.latch, by omega⟩
    rw [access_phaseB] at ha
    have hlt := (List.getElem?_eq_some_iff.mp ha).1
    rw [phaseB_length, Nat.mul_comm (blockWidth _)] at hlt
    cases hav : s.latch.avg with
    | false =>
      rw [hav] at hlt
      have hj : m < blockHeight s.latch.geom * blockWidth s.latch.geom := by simpa using hlt
      rw [phaseB_plain hav, List.getElem?_map, positions_get s.latch hj] at ha
      cases ha
      refine performAccess_write s (by omega) hj ?_ ?_ (by simp [hav])
      · simp [positionsDone, hav]
      · rw [positionsDone, hav, if_neg (by simp), Nat.div_one]; omega
    | true =>
      rw [hav, if_pos rfl] at hlt
      rw [phaseB_averaging hav] at ha
      rcases Nat.even_or_odd' m with ⟨j, rfl | rfl⟩
      · have hj : j < blockHeight s.latch.geom * blockWidth s.latch.geom := by omega
        rw [pairs_get_even, positions_get s.latch hj] at ha
        cases ha
        exact performAccess_readDst s (by omega) hav hj (by omega)
      · have hj : j < blockHeight s.latch.geom * blockWidth s.latch.geom := by omega
        rw [pairs_get_odd, positions_get s.latch hj] at ha
        cases ha
        refine performAccess_write s (by omega) hj ?_ ?_ fun _ => ⟨by omega, by omega⟩
        · rw [positionsDone, hav, if_pos rfl]; omega
        · rw [positionsDone, hav, if_pos rfl]; omega

/-! ### Many steps -/

theorem tapCount_pos (b : Build) (f : Family) : 1 ≤ tapCount b f := by
  cases f
  · simp only [tapCount]
    cases b.extend <;> decide
  · exact Nat.le_succ 1

theorem footCount_pos (b : Build) (l : Latch) : 0 < footCount b l := by
  have ht := tapCount_pos b l.fam
  have hg : 4 ≤ blockWidth l.geom ∧ 4 ≤ blockHeight l.geom := by cases l.geom <;> decide
  rw [footCount, footRows, footCols]
  apply Nat.mul_pos <;> omega

/-- A freshly accepted operation has done no access. -/
theorem progress_zero (t : State) (hk : t.latch.k = 0) (hs : t.samples = []) (hi : t.inter = []) (hd : t.dest = []) :
    progress t 0 = t := by
  refine State.ext rfl rfl rfl rfl rfl rfl rfl rfl ?_ ?_ ?_ ?_ ?_ rfl ?_ rfl rfl rfl rfl
  · show ({ t.latch with k := 0 } : Latch) = t.latch
    rw [← hk]
  · show (footBytes t.build t.latch t.mem).take 0 = t.samples
    rw [hs]
    rfl
  · show (if 0 < footCount t.build t.latch then [] else _) = t.inter
    rw [if_pos (footCount_pos _ _), hi]
  · show (if t.latch.avg then oldBytes t.build t.latch t.mem ((0 - footCount t.build t.latch + 1) / 2) else []) = t.dest
    have hf := footCount_pos t.build t.latch
    rw [hd, show (0 - footCount t.build t.latch + 1) / 2 = 0 by omega]
    cases t.latch.avg <;> rfl
  · exact memoryAfter_phaseA t.build t.latch t.mem (Nat.zero_le _)
  · exact viewAfter_phaseA t.build t.latch t.view (Nat.zero_le _)

/-- With no turn listed and the first `n` accesses admitted, the first `n` steps are those accesses. -/
theorem run_progress {t : State} (hb : t.status.busy = true) (hq : t.turns = []) {n : Nat} (m : Nat)
    (hn : n ≤ accessCount t.build t.latch)
    (hd : ∀ a ∈ (accessSequence t.build t.latch).take n,
      admitted t.build (accessAddr t.latch a) (accessKind a) = true) :
    Sys2Proof.core.run (n + m) (progress t 0) = Sys2Proof.core.run m (progress t n) := by
  induction n generalizing m with
  | zero => rw [Nat.zero_add]
  | succ n ih =>
    have hlt : n < (accessSequence t.build t.latch).length := by rw [accessSequence_length]; omega
    rw [show n + 1 + m = n + (m + 1) by omega,
      ih (m + 1) (by omega) fun a ha => hd a ((List.take_subset_take_left _ (by omega)) ha)]
    refine core_run_next m ((step_busy (s := progress t n) hq hb).trans ?_)
    refine progress_step t hb (List.getElem?_eq_getElem hlt) (hd _ ?_)
    rw [List.mem_take_iff_getElem]
    exact ⟨n, by omega, rfl⟩

/-- After all accesses of an operation every destination position is written. -/
theorem memoryAfter_all (b : Build) (l : Latch) (m : List Host.Cell) :
    memoryAfter b l m (accessCount b l) = operationMemory b l m := by
  rw [memoryAfter, operationMemory, memoryAtPosition]
  have h : positionsDone b l (accessCount b l) = (positions l).length := by
    rw [positions_length, positionsDone, accessCount, footCount]
    cases l.avg <;> simp [Nat.mul_comm]
  rw [h, List.take_length]

end Sys2Proof.Machine
end

