-- ==== Sys2Proof/Tests/Slice0.lean ====
section
/-! SUPPORT. Small tests against words and values the spec writes out (30_encoding.md, 41_sixtap.md, 42_bilinear.md,
95_test_vectors.md), the refusals of the well-formedness check, and for every statement with hypotheses a state and
operands that meet them together. -/

namespace Sys2Proof.Tests

open Sys2Proof Sys2Proof.Machine

/-! ### A build and states to test on (95_test_vectors.md section 6) -/

/-- The reference table of 10_state.md R42. -/
def referenceTable : List (List Tap) :=
  [[0, 0, 128, 0, 0, 0],
   [0, -6, 123, 12, -1, 0],
   [2, -11, 108, 36, -8, 1],
   [0, -9, 93, 50, -6, 0]] ++
  [[3, -16, 77, 77, -16, 3],
   [0, -6, 50, 93, -9, 0],
   [1, -8, 36, 108, -11, 2],
   [0, -1, 12, 123, -6, 0]]

/-- The platform of the spec's test programs. -/
def board : Build where
  extend := .e3
  coef6 := referenceTable
  avgPresent := true
  variant := 0
  basePage := 0x40000
  regions := [⟨0x00000000, 0x0000FFFF, true, true⟩]
  hostCoherent := true

/-- The same without the averaging commands. -/
def boardPlain : Build := { board with avgPresent := false }

/-- The same where the address 0x2006 admits nothing (95_test_vectors.md section 4.4). -/
def boardHole : Build :=
  { board with regions := [⟨0x00000000, 0x00002005, true, true⟩, ⟨0x00002007, 0x0000FFFF, true, true⟩] }

/-- The same where the engine sees host writes only after publication. -/
def boardStale : Build := { board with hostCoherent := false }

/-- An idle engine with the operand registers of 95_test_vectors.md section 4.5. -/
def ready (b : Build) : State :=
  { State.resetOf b with srcBase := 0x1022, srcStride := 16, dstBase := 0x2000, dstStride := 4 }

/-- The same engine right after it has accepted a command word. -/
def started (b : Build) (w : Word) : State :=
  { ready b with latch := latchOf (ready b) w, status := Status.accepted }

/-- The same operation when it has done `k` accesses, its buffers aside. -/
def atAccess (b : Build) (w : Word) (k : Nat) : State :=
  { started b w with latch := { latchOf (ready b) w with k := k } }

/-- A latch of section 4.5's operands. -/
def latch (w : Word) : Latch := latchOf (ready board) w

/-- Eight output bytes of one row. -/
def row8 (fam : Family) (x y : Phase) (src : Int → Int → Int) (row : Nat) : List Int :=
  (List.range 8).map (predictPixel board fam x y src row)

/-- Four output bytes of one row. -/
def row4 (fam : Family) (x y : Phase) (src : Int → Int → Int) (row : Nat) : List Int :=
  (List.range 4).map (predictPixel board fam x y src row)

/-- The horizontal step of section 2.2. -/
def stepAcross (_ c : Int) : Int := if c < 4 then 0 else 255

/-- One bright byte. -/
def impulse (r0 c0 r c : Int) : Int := if r = r0 ∧ c = c0 then 255 else 0

/-! ### Well-formedness: the one check refuses each averaging command where the build has none -/

theorem test_wellFormed_refuses :
    wellFormed false (.sixtapAvg8x8 0 0) = false ∧ wellFormed false (.sixtapAvg16x16 7 7) = false ∧
    wellFormed false (.bilinAvg8x8 0 0) = false ∧ wellFormed false (.bilinAvg16x16 7 7) = false := by decide

theorem test_wellFormed_accepts :
    wellFormed true (.sixtapAvg8x8 0 0) = true ∧ wellFormed false (.sixtap8x8 0 0) = true ∧
    wellFormed false .nop = true := by decide

/-! ### Decoding: a word written out from each row's encoding -/

/-- 41_sixtap.md R101: OPC 0001, RSV 0, yyy 100, xxx 100, A 0, F 0, ZZ 00. -/
theorem test_decode_sixtap4x4 :
    decodeWord true 0b00010000000000000000001001000000#32 = .legal (.sixtap4x4 4 4) := by decide

/-- 41_sixtap.md R102: yyy 101, xxx 011, A 0, F 0, ZZ 01. -/
theorem test_decode_sixtap8x4 :
    decodeWord true 0b00010000000000000000001010110001#32 = .legal (.sixtap8x4 3 5) := by decide

/-- 41_sixtap.md R103: yyy 000, xxx 010, A 0, F 0, ZZ 10. -/
theorem test_decode_sixtap8x8 :
    decodeWord true 0b00010000000000000000000000100010#32 = .legal (.sixtap8x8 2 0) := by decide

/-- 41_sixtap.md R104: yyy 110, xxx 001, A 0, F 0, ZZ 11. -/
theorem test_decode_sixtap16x16 :
    decodeWord true 0b00010000000000000000001100010011#32 = .legal (.sixtap16x16 1 6) := by decide

/-- 41_sixtap.md R105: yyy 111, xxx 001, A 1, F 0, ZZ 10. -/
theorem test_decode_sixtapAvg8x8 :
    decodeWord true 0b00010000000000000000001110011010#32 = .legal (.sixtapAvg8x8 1 7) := by decide

/-- 41_sixtap.md R106, 30_encoding.md R81: yyy 110, xxx 010, A 1, F 0, ZZ 11. -/
theorem test_decode_sixtapAvg16x16 :
    decodeWord true 0b00010000000000000000001100101011#32 = .legal (.sixtapAvg16x16 2 6) := by decide

/-- 42_bilinear.md R108: yyy 101, xxx 011, A 0, F 1, ZZ 00. -/
theorem test_decode_bilin4x4 :
    decodeWord true 0b00010000000000000000001010110100#32 = .legal (.bilin4x4 3 5) := by decide

/-- 42_bilinear.md R109: yyy 000, xxx 001, A 0, F 1, ZZ 01. -/
theorem test_decode_bilin8x4 :
    decodeWord true 0b00010000000000000000000000010101#32 = .legal (.bilin8x4 1 0) := by decide

/-- 42_bilinear.md R110: yyy 111, xxx 000, A 0, F 1, ZZ 10. -/
theorem test_decode_bilin8x8 :
    decodeWord true 0b00010000000000000000001110000110#32 = .legal (.bilin8x8 0 7) := by decide

/-- 42_bilinear.md R111: yyy 011, xxx 110, A 0, F 1, ZZ 11. -/
theorem test_decode_bilin16x16 :
    decodeWord true 0b00010000000000000000000111100111#32 = .legal (.bilin16x16 6 3) := by decide

/-- 42_bilinear.md R112, 95_test_vectors.md P2: yyy 110, xxx 000, A 1, F 1, ZZ 10. -/
theorem test_decode_bilinAvg8x8 :
    decodeWord true 0b00010000000000000000001100001110#32 = .legal (.bilinAvg8x8 0 6) := by decide

/-- 42_bilinear.md R113: yyy 100, xxx 100, A 1, F 1, ZZ 11. -/
theorem test_decode_bilinAvg16x16 :
    decodeWord true 0b00010000000000000000001001001111#32 = .legal (.bilinAvg16x16 4 4) := by decide

/-- 30_encoding.md R77. -/
theorem test_decode_nop : decodeWord true 0b00000000000000000000000000000000#32 = .legal .nop := by decide

/-- 30_encoding.md R79: one word of each class, at its edge. -/
theorem test_decode_illegal :
    decodeWord true 0x20000000 = .illegal .reservedOpc ∧ decodeWord true 0x00000001 = .illegal .reservedOpc ∧
    decodeWord true 0xF0000000 = .illegal .reservedOpc ∧
    decodeWord true 0x10000400 = .illegal .reservedBits ∧ decodeWord true 0x18000000 = .illegal .reservedBits ∧
    decodeWord true 0x10000008 = .illegal .averagingSize ∧ decodeWord true 0x100003F9 = .illegal .averagingSize ∧
    decodeWord true 0x1000000C = .illegal .averagingSize ∧ decodeWord true 0x1000000D = .illegal .averagingSize ∧
    decodeWord false 0x1000000A = .illegal .averagingAbsent ∧
    decodeWord false 0x1000000F = .illegal .averagingAbsent := by decide

/-- 20_memory.md R53: the lowest byte of a register word lies lowest; 30_encoding.md R80: a word is four bytes. -/
theorem test_decode_bytes :
    decodeBytes true [0x2B, 0x03, 0x00, 0x10, 0xFF] = some (.legal (.sixtapAvg16x16 2 6), [0xFF]) ∧
    decodeBytes true [0x2B, 0x03, 0x00] = none := by decide

theorem test_decodeTableWord :
    decodeTableWord 32 0x10000003 = some (.sixtap16x16 0 0) ∧ decodeTableWord 32 0x1000000C = none := by decide

/-- 30_encoding.md R81: the example, and the refusals. -/
theorem test_assemble :
    assemble (.command .sixtap true 16 16 2 6) = some 0x1000032B ∧
    assemble (.command .sixtap true 8 4 0 0) = none ∧ assemble (.command .bilin false 8 8 8 0) = none ∧
    assemble (.command .bilin false 4 8 0 0) = none := by decide

theorem test_text : (Instr.sixtapAvg16x16 2 6).text = "sixtap.avg.16x16 2, 6" := by decide +kernel

/-! ### The datapath (95_test_vectors.md sections 1 to 3) -/

/-- Section 2.1. -/
theorem test_round7 :
    [0, 63, 64, 191, 192, -64, -65, -3315, 32640, 32703, 32704, 35955].map round7
      = [0, 0, 1, 1, 2, 0, -1, -26, 255, 255, 256, 281] := by decide +kernel

/-- Section 2.1. -/
theorem test_clamp8 : [0, -1, -26, 255, 256, 281].map clamp8 = [0, 0, 0, 255, 255, 255] := by decide +kernel

/-- Section 2.1. -/
theorem test_average :
    [average 0 0, average 0 1, average 1 2, average 255 0, average 254 255, average 255 255, average 100 50]
      = [0, 1, 2, 128, 255, 255, 75] := by decide +kernel

/-- Section 2.2, `sixtap.8x4`, phases 2 and 4 across a step: both clamps act. -/
theorem test_sixtap8x4_step :
    row8 .sixtap 2 0 stepAcross 0 = [0, 2, 0, 58, 255, 251, 255, 255] ∧
    row8 .sixtap 4 0 stepAcross 3 = [0, 6, 0, 128, 255, 249, 255, 255] := by decide +kernel

/-- Section 2.2, `sixtap.8x8 2, 0` on a ramp. -/
theorem test_sixtap8x8_ramp :
    row8 .sixtap 2 0 (fun _ c => 10 * c + 30) 7 = [32, 42, 52, 62, 72, 82, 92, 102] := by decide +kernel

/-- Section 2.4, `sixtap.4x4` at (2, 6) on one bright byte: the phases are not exchanged. -/
theorem test_sixtap4x4_impulse :
    row4 .sixtap 2 6 (impulse 0 0) 0 = [60, 0, 1, 0] ∧ row4 .sixtap 2 6 (impulse 0 0) 2 = [2, 0, 0, 0] := by
  decide +kernel

/-- Section 2.5: the clamp between the passes shows. -/
theorem test_sixtap_clamp_between :
    row4 .sixtap 4 4 (fun r c => if 2 ≤ r ∧ 2 ≤ c then 255 else 0) 1 = [0, 64, 128, 125] ∧
    row4 .sixtap 4 4 (fun r c => if 2 ≤ r ∧ 2 ≤ c then 255 else 0) 3 = [0, 125, 249, 243] := by decide +kernel

/-- Section 1.1, `sixtap.16x16 0, 0`: the source pixel. -/
theorem test_sixtap16x16_identity :
    predictPixel board .sixtap 0 0 (fun r c => (37 * r + 11 * c) % 256) 1 2 = 59 ∧
    predictPixel board .sixtap 0 0 (fun r c => (37 * r + 11 * c) % 256) 3 3 = 144 := by decide +kernel

/-- 41_sixtap.md R105, `sixtap.avg.8x8 1, 7`. -/
theorem test_sixtapAvg8x8_flat : outputOf board (latch 0x1000039A) (fun _ _ => 100) (7, 7) 50 = 75 := by
  decide +kernel

/-- 41_sixtap.md R106, `sixtap.avg.16x16 4, 4`. -/
theorem test_sixtapAvg16x16_flat : outputOf board (latch 0x1000024B) (fun _ _ => 200) (15, 15) 0 = 100 := by
  decide +kernel

/-- Section 3.1, `bilin.4x4 3, 5`. -/
theorem test_bilin4x4_ramp :
    row4 .bilin 3 5 (fun r c => 16 * r + c) 0 = [10, 11, 12, 13] ∧
    row4 .bilin 3 5 (fun r c => 16 * r + c) 3 = [58, 59, 60, 61] := by decide +kernel

/-- Section 3.2, `bilin.8x4 5, 0`. -/
theorem test_bilin8x4_step : row8 .bilin 5 0 stepAcross 0 = [0, 0, 0, 159, 255, 255, 255, 255] := by decide +kernel

/-- 42_bilinear.md R110, `bilin.8x8 0, 7` down a column. -/
theorem test_bilin8x8_step :
    (List.range 8).map (fun y => predictPixel board .bilin 0 7 (fun r _ => if r < 4 then 0 else 255) y 5)
      = [0, 0, 0, 223, 255, 255, 255, 255] := by decide +kernel

/-- Section 3.3, `bilin.4x4 7, 7` and any other size alike: one bright byte. -/
theorem test_bilin16x16_impulse :
    row4 .bilin 7 7 (impulse 1 1) 0 = [195, 28, 0, 0] ∧ row4 .bilin 7 7 (impulse 1 1) 1 = [28, 4, 0, 0] := by
  decide +kernel

/-- 42_bilinear.md R112, `bilin.avg.8x8 0, 0`. -/
theorem test_bilinAvg8x8_flat : outputOf board (latch 0x1000000E) (fun _ _ => 100) (0, 0) 50 = 75 := by decide +kernel

/-- Section 3.3, `bilin.avg.16x16 4, 4`. -/
theorem test_bilinAvg16x16_impulse : outputOf board (latch 0x1000024F) (impulse 0 0) (0, 0) 0 = 32 := by
  decide +kernel

/-! ### Addresses and the access sequence (95_test_vectors.md sections 4.5 and 5) -/

/-- Section 4.5, `sixtap.4x4`: accesses 0, 8, 9, 80, 81 and 96, and no access 97. -/
theorem test_sequence_sixtap4x4 :
    ([0, 8, 9, 80, 81, 96, 97].map fun n =>
        (accessSequence board (latch 0x10000240))[n]?.map (accessAddr (latch 0x10000240)))
      = [some 0x1000, some 0x1008, some 0x1010, some 0x1088, some 0x2000, some 0x200F, none] := by decide +kernel

/-- Section 4.5, wrap: base 1, stride 0. -/
theorem test_address_wrap :
    ([0, 1, 2, 9].map fun n => (accessSequence board { latch 0x10000240 with sb := 1, ss := 0 })[n]?.map
        (accessAddr { latch 0x10000240 with sb := 1, ss := 0 }))
      = [some 0xFFFFFFFF, some 0, some 1, some 0xFFFFFFFF] := by decide +kernel

/-- Section 4.5, negative stride. -/
theorem test_address_negative_stride :
    ([5, 24].map fun n => (accessSequence board { latch 0x10000244 with sb := 0x1040, ss := 0xFFFFFFF0 })[n]?.map
        (accessAddr { latch 0x10000244 with sb := 0x1040, ss := 0xFFFFFFF0 }))
      = [some 0x1030, some 0x1004] := by decide +kernel

/-- Section 4.5, averaging order of `bilin.avg.8x8`. -/
theorem test_sequence_averaging :
    ([81, 82, 83, 208, 209].map fun n => (accessSequence board (latch 0x1000000E))[n]?)
      = [some (.readDst 0 0), some (.writeDst 0 0), some (.readDst 0 1), some (.writeDst 7 7), none] := by
  decide +kernel

/-- Section 5, the default build and the two larger ones. -/
theorem test_accessCount :
    ([0x10000000, 0x10000001, 0x10000002, 0x10000003, 0x1000000A, 0x1000000B].map fun w =>
        accessCount board (latch w)) = [97, 149, 233, 697, 297, 953] ∧
    ([0x10000004, 0x10000005, 0x10000006, 0x10000007, 0x1000000E, 0x1000000F].map fun w =>
        accessCount board (latch w)) = [41, 77, 145, 545, 209, 801] ∧
    accessCount { board with extend := .e4 } (latch 0x10000000) = 137 ∧
    accessCount { board with extend := .e5 } (latch 0x1000000B) = 1137 := by decide +kernel

/-! ### Single steps (95_test_vectors.md sections 4.1 to 4.4) -/

/-- What `STATUS` reads after an outcome. -/
def statusAfter (o : Host.Outcome State Fault Refusal) : Option Word :=
  match o with
  | .next t => some t.status.word
  | .fault _ => none
  | .refused _ => none

/-- Section 4.3: an illegal word, an accepted one, one while busy, the priority of busy, NOP while busy, W1C. -/
theorem test_status_sequence :
    statusAfter (hostWrite 0x010 32 0x1000000C (ready board)) = some 0x14 ∧
    statusAfter (hostWrite 0x010 32 0x10000004 (ready board)) = some 0x01 ∧
    statusAfter (hostWrite 0x010 32 0x10000000 (started board 0x10000004)) = some 0x25 ∧
    statusAfter (hostWrite 0x010 32 0x20000000 (started board 0x10000004)) = some 0x25 ∧
    statusAfter (hostWrite 0x010 32 0x00000000 (started board 0x10000004)) = some 0x01 ∧
    statusAfter (hostWrite 0x00C 32 0x4 { ready board with status := ⟨false, true, true, 3⟩ }) = some 0x02 := by
  decide +kernel

/-- Section 4.3: the completion step after 41 accesses. -/
theorem test_completion : statusAfter (engineStep (atAccess board 0x10000004 41)) = some 0x02 := by decide +kernel

/-- Section 4.4: the destination fault of `bilin.4x4` at access 31, and its address. -/
theorem test_bus_error :
    statusAfter (engineStep (atAccess boardHole 0x10000004 31)) = some 0x36 ∧
    (match engineStep (atAccess boardHole 0x10000004 31) with
      | .next t => t.errAddr
      | .fault _ => 0
      | .refused _ => 0) = 0x2006 := by decide +kernel

/-- Section 4.4: the engine's own block is never admitted. -/
theorem test_self_access :
    admitted { board with regions := [⟨0, 0xFFFFFFFF, true, true⟩] } 0x40000000 .write = false ∧
    admitted { board with regions := [⟨0, 0xFFFFFFFF, true, true⟩] } 0x40000FFF .read = false ∧
    admitted { board with regions := [⟨0, 0xFFFFFFFF, true, true⟩] } 0x40001000 .read = true ∧
    admitted { board with regions := [⟨0, 0xFFFFFFFF, true, true⟩] } 0x3FFFFFFF .write = true := by decide +kernel

/-- Section 3.1 at one step: access 25 of `bilin.4x4 4, 4` writes 9, from the buffer that the ramp fills. -/
theorem test_write_step :
    (match engineStep { atAccess board 0x10000244 25 with
        inter := hPass board (latch 0x10000244)
          ((List.range 25).map fun n => BitVec.ofNat 8 (16 * (n / 5) + n % 5)) } with
      | .next t => memRead t.mem 0x2000
      | .fault _ => 0
      | .refused _ => 0) = 9 := by decide +kernel

/-- 10_state.md R22, R23; section 1.2: `ID`, `CONFIG` and phase 4 of the six-tap window. -/
theorem test_register_reads :
    hostRead 0x000 32 (ready board) = .data 0x53504946 ∧ hostRead 0x004 32 (ready board) = .data 0x00020016 ∧
    hostRead 0x200 32 (ready board) = .data 0x00000003 ∧ hostRead 0x204 32 (ready board) = .data 0xFFFFFFF0 ∧
    hostRead 0x214 32 (ready board) = .data 0x00000003 ∧ hostRead 0x218 32 (ready board) = .data 0 ∧
    hostRead 0x33C 32 (ready board) = .data 112 ∧ hostRead 0x340 32 (ready board) = .data 0 ∧
    hostRead 0x001 8 (ready board) = .busError ∧ hostRead 0x002 32 (ready board) = .busError := by decide +kernel

/-! ### Witnesses: for every statement with hypotheses, values that meet them together -/

/-- Every command, at unequal phases. -/
def everyPredict : List Instr :=
  [.sixtap4x4 1 6, .sixtap8x4 1 6, .sixtap8x8 1 6, .sixtap16x16 1 6, .sixtapAvg8x8 1 6, .sixtapAvg16x16 1 6] ++
  [.bilin4x4 1 6, .bilin8x4 1 6, .bilin8x8 1 6, .bilin16x16 1 6, .bilinAvg8x8 1 6, .bilinAvg16x16 1 6]

/-- DecodeOfEncode: every command is well-formed in the default build, and the plain ones in the other. -/
theorem test_witness_decodeOfEncode :
    (everyPredict.all fun i => wellFormed true i) = true ∧ wellFormed true .nop = true ∧
    wellFormed false (.bilin16x16 7 7) = true := by decide

/-- EncodeOfDecode: a legal word of a build with averaging and one of a build without. -/
theorem test_witness_encodeOfDecode :
    decodeWord true 0x100003FF = .legal (.bilinAvg16x16 7 7) ∧ decodeWord false 0 = .legal .nop := by decide

/-- OpcodeMapDecides: a row and a word that belongs to it. -/
theorem test_witness_opcodeMapDecides :
    (⟨"sixtap.avg.8x8", 0xFFFFFC0F, 0x1000000A, true⟩ : OpcodeRow) ∈ opcodeRows ∧
    (⟨"sixtap.avg.8x8", 0xFFFFFC0F, 0x1000000A, true⟩ : OpcodeRow).matches 0x100003FA = true := by decide

/-- IllegalWordClasses: an idle engine and an illegal word of each class. -/
theorem test_witness_illegalWordClasses :
    (ready boardPlain).status.busy = false ∧
    decodeWord (ready boardPlain).build.avgPresent 0x0FFFFFFF = .illegal .reservedOpc ∧
    decodeWord (ready boardPlain).build.avgPresent 0x1FFFFC00 = .illegal .reservedBits ∧
    decodeWord (ready boardPlain).build.avgPresent 0x100003FD = .illegal .averagingSize ∧
    decodeWord (ready boardPlain).build.avgPresent 0x100003FF = .illegal .averagingAbsent := by decide

/-- StepRunsCommand: both forms of the first hypothesis, and a legal word at `CMD`. -/
theorem test_witness_stepRunsCommand :
    (placeCommand 0x10000244 (ready board)).turns = [.host] ∧
    (placeCommand 0x10000244 (ready board)).host = [.wr 0x010 32 0x10000244] ∧
    decodeWord (placeCommand 0x10000244 (ready board)).build.avgPresent 0x10000244 = .legal (.bilin4x4 4 4) ∧
    ({ ready board with host := [.wr 0x014 32 7] }).turns = [] ∧
    ({ ready board with host := [.wr 0x014 32 7] }).status.busy = false := by decide

/-- PredictAccepted: an idle engine and every command but `nop`. -/
theorem test_witness_predictAccepted :
    (everyPredict.all fun i => decide (i ≠ .nop) && wellFormed (ready board).build.avgPresent i) = true ∧
    (ready board).status.busy = false := by decide

/-- CommandTurnedAway: a busy engine, and an idle one without the averaging commands. -/
theorem test_witness_commandTurnedAway :
    (Instr.sixtapAvg8x8 1 6) ≠ .nop ∧ (started board 0x10000004).status.busy = true ∧
    (ready boardPlain).status.busy = false ∧
    wellFormed (ready boardPlain).build.avgPresent (.sixtapAvg8x8 1 6) = false := by decide

/-- CommandFrame: an accepted command, and one turned away by a busy engine. -/
theorem test_witness_commandFrame :
    (∃ t, exec (.sixtapAvg16x16 2 6) (ready board) = .next t) ∧
    (∃ t, exec (.bilin4x4 0 0) (started board 0x10000004) = .next t) ∧
    (started board 0x10000004).status.busy = true := ⟨⟨_, rfl⟩, ⟨_, rfl⟩, rfl⟩

/-- AccessSequence: a plain and an averaging latch, and the last number of each range. -/
theorem test_witness_accessSequence :
    (latch 0x10000240).avg = false ∧ footCount board (latch 0x10000240) = 81 ∧
    (accessSequence board (latch 0x10000240))[80]? = some (.readSrc 6 6) ∧
    (accessSequence board (latch 0x10000240))[96]? = some (.writeDst 3 3) ∧
    (latch 0x1000000E).avg = true ∧
    (accessSequence board (latch 0x1000000E))[207]? = some (.readDst 7 7) ∧
    (accessSequence board (latch 0x1000000E))[208]? = some (.writeDst 7 7) := by decide +kernel

/-- EachPositionOnce: an averaging read that a write follows. -/
theorem test_witness_eachPositionOnce :
    (accessSequence board (latch 0x1000000E))[81]? = some (.readDst 0 0) := by decide +kernel

/-- OwnBlockNotAdmitted: both ends of the block. -/
theorem test_witness_ownBlock :
    (engineBase board).toNat = 0x40000000 ∧ inBlock board 0x40000000 = true ∧ inBlock board 0x40000FFF = true ∧
    inBlock board 0x40001000 = false ∧ inBlock board 0x3FFFFFFF = false := by decide

/-- AdmittedAccess: a source read (the first and the last), an averaging read and a write, each admitted. -/
theorem test_witness_admittedAccess :
    (atAccess board 0x1000000E 81).status.busy = true ∧
    ([0, 80, 81, 82].map fun k =>
      (accessSequence (atAccess board 0x1000000E k).build (atAccess board 0x1000000E k).latch)[
        (atAccess board 0x1000000E k).latch.k]?)
      = [some (.readSrc 0 0), some (.readSrc 8 8), some (.readDst 0 0), some (.writeDst 0 0)] ∧
    admitted board (accessAddr (latch 0x1000000E) (.readSrc 8 8)) .read = true ∧
    admitted board (accessAddr (latch 0x1000000E) (.readDst 0 0)) .read = true ∧
    admitted board (accessAddr (latch 0x1000000E) (.writeDst 0 0)) .write = true := by decide +kernel

/-- RefusedAccess: the destination fault of 95_test_vectors.md section 4.4. -/
theorem test_witness_refusedAccess :
    (atAccess boardHole 0x10000004 31).status.busy = true ∧
    (accessSequence (atAccess boardHole 0x10000004 31).build (atAccess boardHole 0x10000004 31).latch)[
      (atAccess boardHole 0x10000004 31).latch.k]? = some (.writeDst 1 2) ∧
    admitted (atAccess boardHole 0x10000004 31).build
      (accessAddr (atAccess boardHole 0x10000004 31).latch (.writeDst 1 2)) .write = false := by decide +kernel

/-- Completion: all 41 accesses done, with the interrupt enabled. -/
theorem test_witness_completion :
    ({ atAccess board 0x10000004 41 with ctrl := ⟨true, false⟩ }).status.busy = true ∧
    ({ atAccess board 0x10000004 41 with ctrl := ⟨true, false⟩ }).latch.k
      = accessCount board (atAccess board 0x10000004 41).latch ∧
    ({ atAccess board 0x10000004 41 with ctrl := ⟨true, false⟩ }).ctrl.ieDone = true := by decide

/-- What an engine step answers, when it answers a next state. -/
def answersNext (o : Host.Outcome State Fault Refusal) : Bool :=
  match o with
  | .next _ => true
  | .fault _ => false
  | .refused _ => false

theorem answersNext_spec {o : Host.Outcome State Fault Refusal} (h : answersNext o = true) : ∃ t, o = .next t := by
  cases o with
  | next t => exact ⟨t, rfl⟩
  | fault r => cases h
  | refused r => cases h

/-- EngineStepFrame and OperationReadsItsLatch: a read step, and a write step that is admitted in canonical memory. -/
theorem test_witness_engineStep :
    (∃ t, engineStep (atAccess board 0x10000004 0) = .next t) ∧
    (∃ t, engineStep (atAccess board 0x10000004 25) = .next t) ∧
    (atAccess board 0x10000004 25).status.busy = true ∧
    (accessSequence board (atAccess board 0x10000004 25).latch)[25]? = some (.writeDst 0 0) ∧
    admitted board (accessAddr (atAccess board 0x10000004 25).latch (.writeDst 0 0)) .write = true ∧
    memoryWf (atAccess board 0x10000004 25).mem = true :=
  ⟨answersNext_spec (by decide +kernel), answersNext_spec (by decide +kernel), rfl, by decide +kernel,
    by decide +kernel, rfl⟩

/-- OperationCompletes: an idle quiet engine and a command all of whose accesses are admitted. -/
theorem test_witness_operationCompletes :
    (Instr.bilin4x4 4 4) ≠ .nop ∧ wellFormed (ready board).build.avgPresent (.bilin4x4 4 4) = true ∧
    (ready board).status.busy = false ∧ quiet (ready board) = true ∧
    allAdmitted (ready board).build (latchOf (ready board) (encode (.bilin4x4 4 4))) = true := by decide +kernel

/-- OperationCompletes: an averaging six-tap command meets its hypotheses too. -/
theorem test_witness_operationCompletes_averaging :
    wellFormed (ready board).build.avgPresent (.sixtapAvg8x8 1 7) = true ∧
    allAdmitted (ready board).build (latchOf (ready board) (encode (.sixtapAvg8x8 1 7))) = true := by decide +kernel

/-- BusErrorPrecise: access 31 is the first that is not admitted; and a platform where access 0 is. -/
theorem test_witness_busErrorPrecise :
    quiet (ready boardHole) = true ∧ wellFormed (ready boardHole).build.avgPresent (.bilin4x4 0 0) = true ∧
    (accessSequence boardHole (latchOf (ready boardHole) (encode (.bilin4x4 0 0))))[31]? = some (.writeDst 1 2) ∧
    admitted boardHole (accessAddr (latchOf (ready boardHole) (encode (.bilin4x4 0 0))) (.writeDst 1 2)) .write = false ∧
    (((accessSequence boardHole (latchOf (ready boardHole) (encode (.bilin4x4 0 0)))).take 31).all fun a =>
      admitted boardHole (accessAddr (latchOf (ready boardHole) (encode (.bilin4x4 0 0))) a) (accessKind a)) = true ∧
    admitted { board with regions := [] } (accessAddr (latch 0x10000004) (.readSrc 0 0)) .read = false ∧
    0 < footCount { board with regions := [] } (latch 0x10000004) := by decide +kernel

/-- ResetCutsShort: 95_test_vectors.md section 4.6's draw, and both ends of the range. -/
theorem test_witness_resetCutsShort :
    accessCount (ready board).build (latchOf (ready board) (encode (.bilin4x4 0 0))) = 41 ∧ 0 ≤ 41 ∧ 27 ≤ 41 ∧
    quiet (ready board) = true ∧
    allAdmitted (ready board).build (latchOf (ready board) (encode (.bilin4x4 0 0))) = true := by decide +kernel

/-- OperationEnds: the first and the last state of an operation. -/
theorem test_witness_operationEnds :
    (started board 0x10000004).status.busy = true ∧ quiet (started board 0x10000004) = true ∧
    (started board 0x10000004).latch.k ≤ accessCount board (started board 0x10000004).latch ∧
    (atAccess board 0x10000004 41).latch.k ≤ accessCount board (atAccess board 0x10000004 41).latch := by
  decide +kernel

/-- DestinationBytes: canonical memory, 16 distinct destination addresses, and an address that is none of them. -/
theorem test_witness_destinationBytes :
    memoryWf [(0x1000, 1), (0x1022, 5)] = true ∧
    (∀ p ∈ positions (latch 0x10000244), ∀ q ∈ positions (latch 0x10000244),
      destAddr (latch 0x10000244) p = destAddr (latch 0x10000244) q → p = q) ∧
    (∀ p ∈ positions (latch 0x10000244), (0x2010 : Word) ≠ destAddr (latch 0x10000244) p) := by decide +kernel

/-- The latch of a 16x16 copy from 0x1000 to 0x8000 with strides of 32. -/
def bigBlock : Latch := ⟨0x10000007, 0x1000, 32, 0x8000, 32, .bilin, false, .g16x16, 0, 0, 0⟩

/-- Where a small block lies when nothing wraps. -/
theorem blockAddr_small {base : Word} {y x : Nat} (h : base.toNat + y * 32 + x < 2 ^ 32) :
    (blockAddr base 32 (y : Int) (x : Int)).toNat = base.toNat + y * 32 + x := by
  rw [blockAddr, BitVec.toNat_ofInt]
  omega

/-- SubBlockDecomposition: a copy whose four 8x8 sub-blocks neither read nor write what another writes. -/
theorem test_witness_subBlockDecomposition :
    memoryWf [(0x1000, 1)] = true ∧ bigBlock.geom = .g16x16 ∧
    (subBlocks bigBlock .g8x8).Pairwise (fun one later => ∀ p ∈ positions one,
      (∀ a ∈ phaseA board later, destAddr one p ≠ accessAddr later a) ∧
      (∀ q ∈ positions later, destAddr one p ≠ destAddr later q)) := by
  refine ⟨by decide, rfl, ?_⟩
  have hs : s32 (32 : Word) = 32 := by decide
  have key : ∀ i j i' j' : Nat, i < 2 → j < 2 → i' < 2 → j' < 2 → (i ≠ i' ∨ j ≠ j') →
      ∀ p ∈ positions (subBlock bigBlock .g8x8 i j),
        (∀ a ∈ phaseA board (subBlock bigBlock .g8x8 i' j'),
          destAddr (subBlock bigBlock .g8x8 i j) p ≠ accessAddr (subBlock bigBlock .g8x8 i' j') a) ∧
        (∀ q ∈ positions (subBlock bigBlock .g8x8 i' j'),
          destAddr (subBlock bigBlock .g8x8 i j) p ≠ destAddr (subBlock bigBlock .g8x8 i' j') q) := by
    intro i j i' j' hi hj hi' hj' hne p hp
    have hbase : ∀ (base : Word) (i j : Nat), i < 2 → j < 2 → base.toNat ≤ 0x8000 →
        (blockAddr base (s32 32) ((i * 8 : Nat) : Int) ((j * 8 : Nat) : Int)).toNat
          = base.toNat + i * 8 * 32 + j * 8 := by
      intro base i j hi hj hb
      rw [hs]
      exact blockAddr_small (by omega)
    have hd : ∀ (i j : Nat), i < 2 → j < 2 → ∀ p ∈ positions (subBlock bigBlock .g8x8 i j),
        (destAddr (subBlock bigBlock .g8x8 i j) p).toNat = 0x8000 + (i * 8 + p.1) * 32 + (j * 8 + p.2) ∧
          p.1 < 8 ∧ p.2 < 8 := by
      intro i j hi hj p hp
      obtain ⟨y, x⟩ := p
      simp only [positions, List.mem_flatMap, List.mem_range, List.mem_map, Prod.mk.injEq] at hp
      obtain ⟨y', hy, x', hx, rfl, rfl⟩ := hp
      have hy' : y' < 8 := hy
      have hx' : x' < 8 := hx
      have hb := hbase 0x8000 i j hi hj (by decide)
      refine ⟨?_, hy', hx'⟩
      show (blockAddr (blockAddr 0x8000 (s32 32) _ _) (s32 32) (y' : Int) (x' : Int)).toNat = _
      rw [hs] at hb ⊢
      rw [blockAddr_small (by
        change (blockAddr 0x8000 32 ((i * 8 : Nat) : Int) ((j * 8 : Nat) : Int)).toNat + _ + _ < _
        rw [hb]; simp; omega)]
      change (blockAddr 0x8000 32 ((i * 8 : Nat) : Int) ((j * 8 : Nat) : Int)).toNat + _ + _ = _
      rw [hb]
      simp
      omega
    obtain ⟨hp', hp1, hp2⟩ := hd i j hi hj p hp
    refine ⟨?_, ?_⟩
    · intro a ha he
      simp only [phaseA, intRange, List.mem_flatMap, List.mem_map, List.mem_range] at ha
      obtain ⟨r, ⟨m, hm, rfl⟩, c, ⟨n, hn, rfl⟩, rfl⟩ := ha
      have hm' : m < 9 := hm
      have hn' : n < 9 := hn
      have hb := hbase 0x1000 i' j' hi' hj' (by decide)
      have hsrc : (accessAddr (subBlock bigBlock .g8x8 i' j') (.readSrc (-(0 : Int) + m) (-(0 : Int) + n))).toNat
          = 0x1000 + (i' * 8 + m) * 32 + (j' * 8 + n) := by
        show (blockAddr (blockAddr 0x1000 (s32 32) _ _) (s32 32) (-(0 : Int) + m) (-(0 : Int) + n)).toNat = _
        rw [Int.neg_zero, Int.zero_add, Int.zero_add]
        rw [hs] at hb ⊢
        rw [blockAddr_small (by
          change (blockAddr 0x1000 32 ((i' * 8 : Nat) : Int) ((j' * 8 : Nat) : Int)).toNat + _ + _ < _
          rw [hb]; simp; omega)]
        change (blockAddr 0x1000 32 ((i' * 8 : Nat) : Int) ((j' * 8 : Nat) : Int)).toNat + _ + _ = _
        rw [hb]
        simp
        omega
      have := congrArg BitVec.toNat he
      rw [hp'] at this
      have h2 := this.trans hsrc
      omega
    · intro q hq he
      obtain ⟨hq', hq1, hq2⟩ := hd i' j' hi' hj' q hq
      have := congrArg BitVec.toNat he
      rw [hp', hq'] at this
      omega
  show [subBlock bigBlock .g8x8 0 0, subBlock bigBlock .g8x8 0 1, subBlock bigBlock .g8x8 1 0,
    subBlock bigBlock .g8x8 1 1].Pairwise _
  simp only [List.pairwise_cons, List.mem_cons, List.not_mem_nil, or_false, List.Pairwise.nil, and_true]
  refine ⟨?_, ?_, ?_, fun _ h => absurd h id⟩
  · rintro l (rfl | rfl | rfl)
    · exact key 0 0 0 1 (by decide) (by decide) (by decide) (by decide) (by decide)
    · exact key 0 0 1 0 (by decide) (by decide) (by decide) (by decide) (by decide)
    · exact key 0 0 1 1 (by decide) (by decide) (by decide) (by decide) (by decide)
  · rintro l (rfl | rfl)
    · exact key 0 1 1 0 (by decide) (by decide) (by decide) (by decide) (by decide)
    · exact key 0 1 1 1 (by decide) (by decide) (by decide) (by decide) (by decide)
  · rintro l rfl
    exact key 1 0 1 1 (by decide) (by decide) (by decide) (by decide) (by decide)

/-- RoundSeven, ValuesArePixels, AccumulatorFits, FlatStaysFlat, IdentityPhases, TapRows: legal builds of every support,
a pixel-valued source at both ends, and a latch of phase (0, 0). -/
theorem test_witness_datapath :
    board.legal = true ∧
    ({ board with extend := .e4, coef6 := List.replicate 8 (identityRow .e4) }).legal = true ∧
    ({ board with extend := .e5, coef6 := List.replicate 8 (identityRow .e5) }).legal = true ∧
    (0 : Int) ≤ 0 ∧ (255 : Int) ≤ 255 ∧ (-1 : Int) < 0 ∧
    (latch 0x1000000A).fam = .sixtap ∧ (latch 0x1000000A).xph = 0 ∧ (latch 0x1000000A).yph = 0 := by decide +kernel

/-- The sources of the same statements: every value is a pixel. -/
theorem test_witness_pixelSource : ∀ r c : Int, 0 ≤ impulse 0 0 r c ∧ impulse 0 0 r c ≤ 255 := by
  intro r c
  unfold impulse
  split <;> decide

/-- WindowLocality: two sources that differ, and only outside the window of (0, 0). -/
theorem test_witness_windowLocality :
    impulse 9 9 9 9 ≠ impulse 0 100 9 9 ∧
    (∀ r col : Int, ((0 : Nat) : Int) - centre board .sixtap ≤ r →
      r ≤ ((0 : Nat) : Int) + tapCount board .sixtap - 1 - centre board .sixtap →
      ((0 : Nat) : Int) - centre board .sixtap ≤ col →
      col ≤ ((0 : Nat) : Int) + tapCount board .sixtap - 1 - centre board .sixtap →
      impulse 9 9 r col = impulse 0 100 r col) := by
  refine ⟨by decide, ?_⟩
  intro r col _ h2 _ h4
  have ht : (tapCount board .sixtap : Int) = 6 := rfl
  have hc : (centre board .sixtap : Int) = 2 := rfl
  rw [ht, hc] at h2 h4
  unfold impulse
  rw [if_neg (by omega), if_neg (by omega)]

/-- ReadChangesNothing: a pending read, its turn next. -/
theorem test_witness_read :
    ({ started board 0x10000004 with turns := [.host, .engine], host := [.rd 0x00C 32] }).turns = .host :: [.engine] ∧
    ({ started board 0x10000004 with turns := [.host, .engine], host := [.rd 0x00C 32] }).host = .rd 0x00C 32 :: [] := by
  decide

/-- UnnamedOffsets, IgnoredWrites and BadAccessRefused: the ends of each range, and each bad form. -/
theorem test_witness_offsets :
    ([0x028, 0x0FC, 0x340, 0xFFC].all fun o => decide ((o : BitVec 12).toNat % 4 = 0) &&
      decide (0x028 ≤ o.toNat ∧ o.toNat ≤ 0x0FC ∨ 0x340 ≤ o.toNat)) = true ∧
    ([0x000, 0x004, 0x024, 0x100, 0x33C, 0xFFC].all fun o => decide ((o : BitVec 12).toNat % 4 = 0) &&
      decide (o.toNat < 0x008 ∨ 0x020 < o.toNat)) = true ∧
    ((8 : Nat) ≠ 32 ∨ (0x001 : BitVec 12).toNat % 4 ≠ 0) ∧ ((32 : Nat) ≠ 32 ∨ (0x002 : BitVec 12).toNat % 4 ≠ 0) ∧
    ((16 : Nat) ≠ 32 ∨ (0x000 : BitVec 12).toNat % 4 ≠ 0) := by decide

/-- CoefficientWindows: the last phase, the last tap and the first past it. -/
theorem test_witness_coefficientWindows :
    hostRead (BitVec.ofNat 12 (0x100 + 0x40 * 7 + 4 * 4)) 32 (ready board) = .data 0xFFFFFFFA ∧
    hostRead (BitVec.ofNat 12 (0x100 + 0x40 * 7 + 4 * 6)) 32 (ready board) = .data 0 ∧
    hostRead (BitVec.ofNat 12 (0x304 + 8 * 7)) 32 (ready board) = .data 112 := by decide +kernel

/-- InterruptLine: an acknowledging write, an acceptance with a pending bit, and a write that enables. -/
theorem test_witness_interruptLine :
    (∃ t, hostWrite 0x00C 32 0x6 { ready board with ctrl := ⟨true, true⟩, status := ⟨false, true, true, 3⟩ } = .next t) ∧
    (0x6 : Word).getLsbD 1 = true ∧ (0x6 : Word).getLsbD 2 = true ∧
    (∃ t, exec (.bilin4x4 0 0) { ready board with ctrl := ⟨true, true⟩, status := ⟨false, true, true, 3⟩ } = .next t ∧
      t.status.busy = true) ∧
    (∃ t, hostWrite 0x008 32 0x1 { ready board with status := ⟨false, true, false, 0⟩ } = .next t ∧ irq t = true) :=
  ⟨⟨_, rfl⟩, rfl, rfl, ⟨_, rfl, rfl⟩, ⟨_, rfl, rfl⟩⟩

/-- HostBytes: an address in the block, and one outside it on each kind of platform; there a byte the host sees, one it
does not, a range that ends at the byte on either side and one that misses it, and a write of the host's own that waits. -/
theorem test_witness_hostBytes :
    inBlock (ready board).build 0x40000010 = true ∧ inBlock (ready board).build 0x1000 = false ∧
    (ready board).build.hostCoherent = true ∧ (ready boardStale).build.hostCoherent = false ∧
    inBlock (ready boardStale).build 0x1000 = false ∧ memoryWf (ready board).mem = true ∧
    hostSees (ready boardStale) 0x1000 = false ∧
    hostSees { ready boardStale with view := [.maintained 0x1000 0x1FFF] } 0x1000 = true ∧
    hostSees { ready boardStale with view := [.maintained 0x0F00 0x1000] } 0x1000 = true ∧
    hostSees { ready boardStale with view := [.maintained 0x1001 0x1FFF] } 0x1000 = false ∧
    hostSees { ready boardStale with view := [.maintained 0 0xFFFFFFFF], unseen := [(0x1000, 1)] } 0x1000 = false := by
  decide +kernel

/-- HostBytes, maintenance: the ends of the range, a byte of it, and a write that waits for another byte. -/
theorem test_witness_hostBytes_maintenance :
    (0x1000 : Word).toNat ≤ (0x1000 : Word).toNat ∧ (0x1000 : Word).toNat ≤ (0x1FFF : Word).toNat ∧
    (0x0F00 : Word).toNat ≤ (0x1000 : Word).toNat ∧
    (∀ w ∈ ({ ready boardStale with unseen := [(0x1001, 1)] }).unseen, w.1 ≠ 0x1000) := by simp

/-- 20_memory.md R66, R64 (d): on an incoherent platform the write of access 25 takes its byte from the host's view, and
maintenance brings it back; a byte the access does not write stays in view. -/
theorem test_host_view :
    (match engineStep { atAccess boardStale 0x10000004 25 with view := [.maintained 0 0xFFFFFFFF] } with
      | .next t => [hostSees t 0x2000, hostSees t 0x2001, hostSees (maintain 0x2000 0x2000 t) 0x2000]
      | .fault _ => []
      | .refused _ => []) = [false, true, true] := by decide +kernel

/-- 20_memory.md R64 (e): of two pending writes to one byte the earlier never lands after the later, and a pending write to
another byte waits on. -/
theorem test_publish_order :
    (publish 2 { ready boardStale with unseen := [(0x1000, 1), (0x1001, 2), (0x1000, 3)] }).unseen = [(0x1001, 2)] ∧
    memRead (publish 2 { ready boardStale with unseen := [(0x1000, 1), (0x1001, 2), (0x1000, 3)] }).mem 0x1000 = 3 := by
  decide

/-- ResetTurn: a busy engine that is reset next. -/
theorem test_witness_resetTurn :
    ({ atAccess board 0x10000004 27 with turns := [.reset, .host] }).turns = .reset :: [.host] := by decide

/-- ResetIsLegal, StepKeepsLegal and LegalStatesStep: a legal build, a legal idle state and a legal busy one. -/
theorem test_witness_machineLegal :
    board.legal = true ∧ machineLegal (ready board) = true ∧ machineLegal (started board 0x10000004) = true ∧
    answersNext (step (ready board)) = true ∧ answersNext (step (started board 0x10000004)) = true := by
  decide +kernel

/-- StepKeepsMemoryForm and BuildNeverChanges: memory that holds something, and a step that stores. -/
theorem test_witness_memoryForm :
    memoryWf ({ ready board with mem := [(0, 1), (0xFFFFFFFF, 255)], host := [.memWb 0x1000 7] }).mem = true ∧
    answersNext (step { ready board with mem := [(0, 1), (0xFFFFFFFF, 255)], host := [.memWb 0x1000 7] }) = true := by
  decide +kernel

/-- The state after a step, if there is one. -/
def after (s : State) : State :=
  match step s with
  | .next t => t
  | .fault _ => s
  | .refused _ => s

/-- BusyAndDoneWriters, CmdReadsLastAccepted, ErrAddrWriters: steps in which BUSY rises, falls by completion, by a bus
error and by reset, DONE rises, `CMD` changes by acceptance and by reset, and `ERRADDR` changes. -/
theorem test_witness_writers :
    answersNext (step (placeCommand 0x10000244 (ready board))) = true ∧
    (after (placeCommand 0x10000244 (ready board))).status.busy = true ∧
    (after (placeCommand 0x10000244 (ready board))).latch.cmd ≠ (ready board).latch.cmd ∧
    (after (atAccess board 0x10000004 41)).status = ⟨false, true, false, 0⟩ ∧
    (after (atAccess boardHole 0x10000004 31)).status = ⟨false, true, true, 3⟩ ∧
    (after (atAccess boardHole 0x10000004 31)).errAddr ≠ (atAccess boardHole 0x10000004 31).errAddr ∧
    (after { atAccess board 0x10000004 31 with turns := [.reset] }).status.busy = false ∧
    (after { atAccess board 0x10000004 31 with turns := [.reset] }).latch.cmd ≠ 0x10000004 := by decide +kernel

/-- HiddenStateUnobservable: two idle states that differ in what is hidden. -/
theorem test_witness_hiddenState :
    observable { ready board with samples := [1, 2], latch := { Latch.reset with k := 9, xph := 3 } }
      = observable (ready board) ∧
    ({ ready board with samples := [1, 2], latch := { Latch.reset with k := 9, xph := 3 } }) ≠ ready board ∧
    (ready board).status.busy = false := by decide +kernel

end Sys2Proof.Tests
end

/-! The encoder undoes the decoder: the word of a decoded command is the word it was decoded from (30_encoding.md R76,
R78). -/

namespace Sys2Proof

open Sys2Proof.Machine

/-- A legal word is 0, which is `nop`, or shows `OPC` 1, `RSV` 0 and the row its fields select (30_encoding.md R76). -/
theorem decodeWord_legal {ap : Bool} {w : Word} {i : Instr} (h : decodeWord ap w = .legal i) :
    (w = 0 ∧ i = .nop) ∨
    (fieldOpc w = 1 ∧ fieldRsv w = 0 ∧ ∃ row,
      predictRow (familyOf (fieldFam w)) (fieldAvg w) (geometryOf (fieldSz w)) = some row ∧
        i = row (fieldXph w) (fieldYph w)) := by
  unfold decodeWord at h
  split at h
  · next hw => cases h; exact .inl ⟨hw, rfl⟩
  split at h
  · cases h
  next hopc =>
  split at h
  · cases h
  next hrsv =>
  split at h
  · cases h
  next row hrow =>
  split at h
  · cases h
  cases h
  exact .inr ⟨not_not.mp hopc, not_not.mp hrsv, row, hrow, rfl⟩

/-- The row of the opcode map with these fields encodes to the word with these fields. -/
theorem encode_predictRow_toNat {fam avg : Bool} {sz : BitVec 2} {row : Phase → Phase → Instr}
    (h : predictRow (familyOf fam) avg (geometryOf sz) = some row) (x y : Phase) :
    (encode (row x y)).toNat
      = sz.toNat + 4 * fam.toNat + 8 * avg.toNat + 16 * x.toNat + 128 * y.toNat + 2 ^ 28 := by
  have hword : encode (row x y)
      = commandWord (BitVec.ofNat 32 (0x10000000 + (sz.toNat + 4 * fam.toNat + 8 * avg.toNat))) x y := by
    revert sz
    cases fam <;> cases avg <;> intro sz h <;> fin_cases sz <;> cases h <;> rfl
  have hlt : sz.toNat + 4 * fam.toNat + 8 * avg.toNat < 16 := by
    have := sz.isLt
    have := fam.toNat_le
    have := avg.toNat_le
    omega
  have hrow := commandWord_toNat ⟨_, hlt⟩ x y
  rw [hword]
  simp only at hrow
  omega

/-- The word of a decoded command is the word it was decoded from (30_encoding.md R76, R78). -/
theorem encode_of_decodeWord {ap : Bool} {w : Word} {i : Instr} (h : decodeWord ap w = .legal i) : encode i = w := by
  obtain ⟨rfl, rfl⟩ | ⟨hopc, hrsv, row, hrow, rfl⟩ := decodeWord_legal h
  · rfl
  · apply BitVec.eq_of_toNat_eq
    rw [encode_predictRow_toNat hrow, fields_toNat w, hopc, hrsv]
    simp

/-- A word that decodes to a command with parts is a prediction command of the build. -/
theorem isPredict_of_parts {ap : Bool} {w : Word} {i : Instr} {p : Family × Bool × Geometry × Phase × Phase}
    (h : decodeWord ap w = .legal i) (hp : predictParts i = some p) : isPredict ap w = true := by
  refine (isPredict_iff ap w).mpr ⟨i, ?_, h⟩
  rintro rfl
  cases hp

end Sys2Proof

/-! The invariant of the machine: each of its parts is kept by every change of `EngineChange`. -/

namespace Sys2Proof.Machine

/-! ### The parts of the invariant -/

theorem machineLegal_iff (s : State) :
    machineLegal s = true ↔ s.build.legal = true ∧ memoryWf s.mem = true ∧ statusLegal s.status = true ∧
      latchLegal s = true ∧ progressLegal s = true := by
  simp [machineLegal, and_assoc]

theorem latchLegal_iff (s : State) :
    latchLegal s = true ↔
      (s.latch.cmd = 0 ∨ isPredict s.build.avgPresent s.latch.cmd = true) ∧
      (s.status.busy = true → isPredict s.build.avgPresent s.latch.cmd = true ∧
        s.latch.fam = familyOf (fieldFam s.latch.cmd) ∧ s.latch.avg = fieldAvg s.latch.cmd ∧
        s.latch.geom = geometryOf (fieldSz s.latch.cmd) ∧ s.latch.xph = fieldXph s.latch.cmd ∧
        s.latch.yph = fieldYph s.latch.cmd) := by
  cases hb : s.status.busy <;> simp [latchLegal, hb, and_assoc]

theorem progressLegal_iff (s : State) :
    progressLegal s = true ↔ (s.status.busy = true →
      s.latch.k ≤ accessCount s.build s.latch ∧
      s.samples.length = min s.latch.k (footCount s.build s.latch) ∧
      s.inter.length = (if s.latch.k < footCount s.build s.latch then 0
        else footRows s.build s.latch * blockWidth s.latch.geom) ∧
      s.dest.length = (if s.latch.avg then (s.latch.k - footCount s.build s.latch + 1) / 2 else 0)) := by
  cases hb : s.status.busy <;> simp [progressLegal, hb, and_assoc]

/-- An idle engine's latch is legal when the word it shows is that of another legal latch. -/
theorem latchLegal_idle {s t : State} (h : latchLegal s = true) (hbuild : t.build = s.build)
    (hcmd : t.latch.cmd = s.latch.cmd) (hb : t.status.busy = false) : latchLegal t = true := by
  rw [latchLegal_iff] at h ⊢
  rw [hbuild, hcmd, hb]
  exact ⟨h.1, by simp⟩

theorem progressLegal_idle {s : State} (hb : s.status.busy = false) : progressLegal s = true :=
  (progressLegal_iff s).mpr (by simp [hb])

/-- The end of an operation, with its latch as it was, leaves a legal state when the new `STATUS` is legal. -/
theorem machineLegal_stopped {s t : State} (h : machineLegal s = true) (hbuild : t.build = s.build)
    (hmem : t.mem = s.mem) (hlatch : t.latch = s.latch) (hb : t.status.busy = false)
    (hst : statusLegal t.status = true) : machineLegal t = true := by
  rw [machineLegal_iff] at h ⊢
  obtain ⟨hB, hm, -, hl, -⟩ := h
  exact ⟨hbuild ▸ hB, hmem ▸ hm, hst, latchLegal_idle hl hbuild (by rw [hlatch]) hb, progressLegal_idle hb⟩

/-- A change of `STATUS` alone that leaves BUSY as it was keeps the invariant when the new `STATUS` is legal. -/
theorem machineLegal_status {s : State} {st : Status} (h : machineLegal s = true)
    (hb : st.busy = s.status.busy) (hst : statusLegal st = true) : machineLegal { s with status := st } = true := by
  rw [machineLegal_iff] at h ⊢
  obtain ⟨hB, hm, -, hl, hp⟩ := h
  rw [latchLegal_iff] at hl
  rw [progressLegal_iff] at hp
  rw [← hb] at hl hp
  exact ⟨hB, hm, hst, (latchLegal_iff _).mpr hl, (progressLegal_iff _).mpr hp⟩

/-- A store to pixel memory keeps the invariant. -/
theorem machineLegal_store {s : State} (a : Word) (v : Byte) (h : machineLegal s = true) :
    machineLegal { s with mem := memWrite s.mem a v } = true := by
  rw [machineLegal_iff] at h ⊢
  obtain ⟨hB, hm, hst, hl, hp⟩ := h
  exact ⟨hB, memWrite_wf a v hm, hst, hl, hp⟩

/-! ### Reset and acceptance -/

/-- An idle engine that shows `CMD` 0, as after reset, is legal when its build and its pixel memory are. -/
theorem machineLegal_resetEngine {s : State} (hB : s.build.legal = true) (hm : memoryWf s.mem = true) :
    machineLegal (resetEngine s) = true :=
  (machineLegal_iff _).mpr ⟨hB, hm, statusLegal_reset, rfl, rfl⟩

/-- Acceptance of a command keeps the invariant: the latch takes the parts of the command's own word, and no access is
done. -/
theorem machineLegal_accept {s : State} {v : Word} {i : Instr} {f : Family} {a : Bool} {g : Geometry} {x y : Phase}
    (h : machineLegal s = true) (hd : decodeWord s.build.avgPresent v = .legal i)
    (hp : predictParts i = some (f, a, g, x, y)) : machineLegal (accept f a g x y (encode i) s) = true := by
  rw [machineLegal_iff] at h ⊢
  obtain ⟨hB, hm, -, -, -⟩ := h
  have hpred : isPredict s.build.avgPresent (encode i) = true := by
    rw [encode_of_decodeWord hd]
    exact isPredict_of_parts hd hp
  obtain ⟨hf, ha, hg, hx, hy⟩ := parts_fields hp
  refine ⟨hB, hm, statusLegal_accepted, (latchLegal_iff _).mpr ?_, (progressLegal_iff _).mpr fun _ => ?_⟩
  · exact ⟨.inr hpred, fun _ => ⟨hpred, hf.symm, ha.symm, hg.symm, hx.symm, hy.symm⟩⟩
  · have hpos := footCount_pos s.build (accept f a g x y (encode i) s).latch
    rw [accept_latch] at hpos
    simp [hpos]

/-! ### An access -/

theorem hPass_length (b : Build) (l : Latch) (samples : List Byte) :
    (hPass b l samples).length = footRows b l * blockWidth l.geom :=
  grid_length _ _ _

/-- Which access has number `k`: a footprint read before `footCount`, then the writes of phase B, each after a read of its
position when averaging (20_memory.md R60). -/
theorem access_cases {b : Build} {l : Latch} {k : Nat} {a : Access} (h : (accessSequence b l)[k]? = some a) :
    (k < footCount b l ∧ ∃ r c, a = .readSrc r c) ∨
    (footCount b l ≤ k ∧ l.avg = true ∧ (k - footCount b l) % 2 = 0 ∧ ∃ y x, a = .readDst y x) ∨
    (footCount b l ≤ k ∧ (l.avg = true → (k - footCount b l) % 2 = 1) ∧ ∃ y x, a = .writeDst y x) := by
  by_cases hk : k < footCount b l
  · rw [access_phaseA b l hk] at h
    cases h
    exact .inl ⟨hk, _, _, rfl⟩
  obtain ⟨m, rfl⟩ : ∃ m, k = footCount b l + m := ⟨k - footCount b l, by omega⟩
  rw [access_phaseB] at h
  have hle : footCount b l ≤ footCount b l + m := Nat.le_add_right _ _
  rw [Nat.add_sub_cancel_left]
  cases hav : l.avg with
  | false =>
    rw [phaseB_plain hav, List.getElem?_map, Option.map_eq_some_iff] at h
    obtain ⟨p, -, rfl⟩ := h
    exact .inr (.inr ⟨hle, by simp, _, _, rfl⟩)
  | true =>
    rw [phaseB_averaging hav] at h
    obtain ⟨j, rfl | rfl⟩ := Nat.even_or_odd' m
    · rw [pairs_get_even, Option.map_eq_some_iff] at h
      obtain ⟨p, -, rfl⟩ := h
      exact .inr (.inl ⟨hle, rfl, by omega, _, _, rfl⟩)
    · rw [pairs_get_odd, Option.map_eq_some_iff] at h
      obtain ⟨p, -, rfl⟩ := h
      exact .inr (.inr ⟨hle, fun _ => by omega, _, _, rfl⟩)

/-- An access that the sequence has is before its end. -/
theorem lt_accessCount {b : Build} {l : Latch} {k : Nat} {a : Access} (h : (accessSequence b l)[k]? = some a) :
    k < accessCount b l := by
  have hlt := (List.getElem?_eq_some_iff.mp h).1
  rwa [accessSequence_length] at hlt

@[simp] theorem performAccess_build (a : Access) (s : State) : (performAccess a s).build = s.build := by
  cases a <;> rfl
@[simp] theorem performAccess_status (a : Access) (s : State) : (performAccess a s).status = s.status := by
  cases a <;> rfl
@[simp] theorem performAccess_errAddr (a : Access) (s : State) : (performAccess a s).errAddr = s.errAddr := by
  cases a <;> rfl
@[simp] theorem performAccess_latch (a : Access) (s : State) :
    (performAccess a s).latch = { s.latch with k := s.latch.k + 1 } := by
  cases a <;> rfl

/-- The footprint byte that completes `S` fills `I` (assumption log 6). -/
theorem performAccess_readSrc_inter (r c : Int) (s : State) :
    (performAccess (.readSrc r c) s).inter =
      if s.samples.length + 1 = footCount s.build s.latch then
        hPass s.build s.latch (s.samples ++ [memRead s.mem (accessAddr s.latch (.readSrc r c))])
      else s.inter := by
  rw [performAccess, countAccess, recordSample, List.length_append]
  rfl

theorem performAccess_memoryWf (a : Access) {s : State} (h : memoryWf s.mem = true) :
    memoryWf (performAccess a s).mem = true := by
  cases a with
  | readSrc r c => exact h
  | readDst y x => exact h
  | writeDst y x => exact memWrite_wf _ _ h

theorem performAccess_latchLegal (a : Access) {s : State} (h : latchLegal s = true) :
    latchLegal (performAccess a s) = true := by
  rw [latchLegal_iff] at h ⊢
  simpa using h

section Buffers

variable {s : State} {a : Access} (ha : (accessSequence s.build s.latch)[s.latch.k]? = some a)
include ha

/-- Only a footprint read fills `S`. -/
theorem performAccess_samples_length (hs : s.samples.length = min s.latch.k (footCount s.build s.latch)) :
    (performAccess a s).samples.length = min (s.latch.k + 1) (footCount s.build s.latch) := by
  obtain ⟨hk, r, c, rfl⟩ | ⟨hk, -, -, y, x, rfl⟩ | ⟨hk, -, y, x, rfl⟩ := access_cases ha
  · change (s.samples ++ [_]).length = _
    rw [List.length_append, hs, List.length_singleton]
    omega
  · change s.samples.length = _
    omega
  · change s.samples.length = _
    omega

/-- Only the last footprint read fills `I`. -/
theorem performAccess_inter_length
    (hi : s.inter.length = if s.latch.k < footCount s.build s.latch then 0
      else footRows s.build s.latch * blockWidth s.latch.geom)
    (hs : s.samples.length = min s.latch.k (footCount s.build s.latch)) :
    (performAccess a s).inter.length = if s.latch.k + 1 < footCount s.build s.latch then 0
      else footRows s.build s.latch * blockWidth s.latch.geom := by
  obtain ⟨hk, r, c, rfl⟩ | ⟨hk, -, -, y, x, rfl⟩ | ⟨hk, -, y, x, rfl⟩ := access_cases ha
  · rw [if_pos hk] at hi
    rw [performAccess_readSrc_inter]
    split
    · next hfull => rw [if_neg (by omega), hPass_length]
    · next hpart => rw [if_pos (by omega), hi]
  · change s.inter.length = _
    rw [hi, if_neg (by omega), if_neg (by omega)]
  · change s.inter.length = _
    rw [hi, if_neg (by omega), if_neg (by omega)]

/-- Only an averaging operation fills `D`, with every other access of phase B. -/
theorem performAccess_dest_length
    (hd : s.dest.length = if s.latch.avg then (s.latch.k - footCount s.build s.latch + 1) / 2 else 0) :
    (performAccess a s).dest.length
      = if s.latch.avg then (s.latch.k + 1 - footCount s.build s.latch + 1) / 2 else 0 := by
  obtain ⟨hk, r, c, rfl⟩ | ⟨hk, hav, heven, y, x, rfl⟩ | ⟨hk, hodd, y, x, rfl⟩ := access_cases ha
  · change s.dest.length = _
    rw [hd, Nat.sub_eq_zero_of_le (Nat.le_of_lt hk), Nat.sub_eq_zero_of_le hk]
  · change (s.dest ++ [_]).length = _
    rw [List.length_append, hd, hav, if_pos rfl, if_pos rfl, List.length_singleton]
    omega
  · change s.dest.length = _
    rw [hd]
    split
    · next hav =>
      have := hodd hav
      omega
    · rfl

/-- Access number `L.K` leaves each buffer filled as far as the next `L.K` says. -/
theorem performAccess_progressLegal (h : progressLegal s = true) : progressLegal (performAccess a s) = true := by
  rw [progressLegal_iff] at h ⊢
  rw [performAccess_status, performAccess_build, performAccess_latch]
  intro hb
  obtain ⟨-, hs, hi, hd⟩ := h hb
  exact ⟨lt_accessCount ha, performAccess_samples_length ha hs, performAccess_inter_length ha hi hs,
    performAccess_dest_length ha hd⟩

end Buffers

theorem machineLegal_access {s : State} {a : Access} (h : machineLegal s = true)
    (ha : (accessSequence s.build s.latch)[s.latch.k]? = some a) : machineLegal (performAccess a s) = true := by
  rw [machineLegal_iff] at h ⊢
  obtain ⟨hB, hm, hst, hl, hp⟩ := h
  exact ⟨by rwa [performAccess_build], performAccess_memoryWf a hm, by rwa [performAccess_status],
    performAccess_latchLegal a hl, performAccess_progressLegal ha hp⟩

/-! ### Every change keeps the invariant -/

theorem machineLegal_change {s t : State} (h : machineLegal s = true) (hc : EngineChange s t) :
    machineLegal t = true := by
  obtain ⟨hB, hm, hst, -, -⟩ := (machineLegal_iff s).mp h
  cases hc with
  | nothing => exact h
  | ctrl v => exact h
  | srcBase v => exact h
  | srcStride v => exact h
  | dstBase v => exact h
  | dstStride v => exact h
  | maintained lo hi => exact h
  | status v => exact machineLegal_status h rfl (statusLegal_cleared v hst)
  | rejected hb => exact machineLegal_status h rfl (statusLegal_recordedBusy hst)
  | illegal hb => exact machineLegal_status h rfl (statusLegal_recordedIdle 1 (.inl rfl) hb)
  | accepted hb hd hp => exact machineLegal_accept h hd hp
  | access hb ha hd => exact machineLegal_access h ha
  | busError hb ha hd => exact machineLegal_stopped h rfl rfl rfl rfl (statusLegal_busError s.status)
  | complete hb hk => exact machineLegal_stopped h rfl rfl rfl rfl (statusLegal_ended hst)
  | reset => exact machineLegal_resetEngine hB hm
  | store a v => exact machineLegal_store a v h

/-- Settles O53: each change that a step can make keeps the invariant, and the fields outside the engine do not enter
it. -/
theorem stepKeepsLegal : Obligations.StepKeepsLegal := by
  unfold Obligations.StepKeepsLegal
  intro s t hs h
  refine step_keeps (P := fun s => machineLegal s = true) ?_ ?_ hs h
  · intro s r hs tn un fc h
    exact h
  · intro s t h hc
    exact machineLegal_change h hc

end Sys2Proof.Machine

/-! What an idle engine keeps hidden: every turn of a state and of the same state with the hidden fields put to one value
answers states that are the same to an observer (10_state.md R32 to R35). -/

namespace Sys2Proof.Machine

/-- The state with the latch but `L.CMD`, `L.K` and the buffers put to one value, which is what an observer sees of an
idle engine. -/
def hide (s : State) : State :=
  { s with latch := { Latch.reset with cmd := s.latch.cmd }, samples := [], inter := [], dest := [] }

@[simp] theorem hide_build (s : State) : (hide s).build = s.build := rfl
@[simp] theorem hide_status (s : State) : (hide s).status = s.status := rfl
@[simp] theorem hide_unseen (s : State) : (hide s).unseen = s.unseen := rfl
@[simp] theorem hide_host (s : State) : (hide s).host = s.host := rfl
@[simp] theorem hide_turns (s : State) : (hide s).turns = s.turns := rfl
@[simp] theorem hostSees_hide (s : State) (a : Word) : hostSees (hide s) a = hostSees s a := rfl

theorem observable_idle {s : State} (hb : s.status.busy = false) : observable s = hide s := by
  rw [observable, hb]
  rfl

theorem observable_busy {s : State} (hb : s.status.busy = true) : observable s = s := by
  rw [observable, hb, if_pos rfl]

@[simp] theorem observable_status (s : State) : (observable s).status = s.status := by
  unfold observable
  split <;> rfl

/-! ### Reads and IRQ -/

theorem readReg_observable (s : State) (r : Reg) : readReg (observable s) r = readReg s r := by
  unfold observable
  split
  · rfl
  · cases r <;> rfl

theorem hostRead_observable (off : BitVec 12) (width : Nat) (s : State) :
    hostRead off width (observable s) = hostRead off width s := by
  rw [hostRead, hostRead, readReg_observable]

theorem irq_observable (s : State) : irq (observable s) = irq s := by
  unfold observable
  split <;> rfl

/-! ### Turns of an idle engine -/

theorem engineStep_idle {s : State} (hb : s.status.busy = false) : engineStep s = .next s := by
  rw [engineStep, hb]
  rfl

theorem issueIllegal_idle {s : State} (hb : s.status.busy = false) : issueIllegal s = raise .illegalCommand s := by
  rw [issueIllegal, hb]
  rfl

theorem pollStep_idle {s : State} (hb : s.status.busy = false) : pollStep s = respond (.data s.status.word) s := by
  rw [pollStep, hb]
  rfl

/-- Two outcomes are next states that are the same to an observer. -/
def SeenAlike (x y : Host.Outcome State Fault Refusal) : Prop :=
  ∃ t u, x = .next t ∧ y = .next u ∧ observable t = observable u

theorem seenAlike_refl (t : State) : SeenAlike (.next t) (.next t) := ⟨t, t, rfl, rfl, rfl⟩

theorem seenAlike_hide {t : State} (hb : t.status.busy = false) : SeenAlike (.next t) (.next (hide t)) := by
  refine ⟨t, hide t, rfl, rfl, ?_⟩
  rw [observable_idle hb, observable_idle (s := hide t) hb]
  rfl

/-- Acceptance takes nothing from the hidden fields, and an error leaves them hidden. -/
theorem issue_hide (f : Family) (a : Bool) (g : Geometry) (x y : Phase) (w : Word) {s : State}
    (hb : s.status.busy = false) : SeenAlike (issue f a g x y w s) (issue f a g x y w (hide s)) := by
  unfold issue
  rw [hide_status, hide_build, hb]
  cases a && !s.build.avgPresent
  · exact seenAlike_refl (accept f a g x y w s)
  · exact seenAlike_hide (t := raise .illegalCommand s) hb

theorem writeCmd_hide (v : Word) {s : State} (hb : s.status.busy = false) :
    SeenAlike (writeCmd v s) (writeCmd v (hide s)) := by
  unfold writeCmd
  rw [hide_build]
  cases decodeWord s.build.avgPresent v with
  | illegal why =>
    dsimp only
    rw [issueIllegal_idle hb, issueIllegal_idle (s := hide s) hb]
    exact seenAlike_hide (t := raise .illegalCommand s) hb
  | legal i =>
    dsimp only
    rw [exec_eq, exec_eq]
    cases predictParts i with
    | none => exact seenAlike_hide hb
    | some p => exact issue_hide _ _ _ _ _ _ hb

theorem writeReg_hide (r : Reg) (v : Word) {s : State} (hb : s.status.busy = false) :
    SeenAlike (writeReg r v s) (writeReg r v (hide s)) := by
  cases r
  case cmd => exact writeCmd_hide v hb
  case ctrl => exact seenAlike_hide (t := { s with ctrl := Ctrl.ofWord v }) hb
  case status => exact seenAlike_hide (t := acknowledge v s) hb
  case srcBase => exact seenAlike_hide (t := { s with srcBase := v }) hb
  case srcStride => exact seenAlike_hide (t := { s with srcStride := v }) hb
  case dstBase => exact seenAlike_hide (t := { s with dstBase := v }) hb
  case dstStride => exact seenAlike_hide (t := { s with dstStride := v }) hb
  all_goals exact seenAlike_hide hb

/-- A host byte load leaves the engine as it is. -/
@[simp] theorem hostMemRead_status (a : Word) (s : State) : (hostMemRead a s).status = s.status := by
  obtain ⟨-, h⟩ | ⟨-, -, h⟩ | ⟨-, -, h⟩ := hostMemRead_cases a s <;> rw [h] <;> rfl

/-- A host byte store leaves the engine as it is. -/
@[simp] theorem hostMemWrite_status (a : Word) (v : Byte) (s : State) : (hostMemWrite a v s).status = s.status := by
  unfold hostMemWrite
  cases inBlock s.build a <;> cases s.build.hostCoherent <;> rfl

theorem hostMemRead_hide (a : Word) (s : State) : hostMemRead a (hide s) = hide (hostMemRead a s) := by
  unfold hostMemRead
  rw [hide_build, hostSees_hide]
  cases inBlock s.build a <;> cases hostSees s a <;> rfl

theorem hostMemWrite_hide (a : Word) (v : Byte) (s : State) :
    hostMemWrite a v (hide s) = hide (hostMemWrite a v s) := by
  unfold hostMemWrite
  rw [hide_build]
  cases inBlock s.build a <;> cases s.build.hostCoherent <;> rfl

theorem publish_hide (n : Nat) (s : State) : publish n (hide s) = hide (publish n s) := by
  unfold publish
  rw [hide_unseen]
  cases s.unseen[n]? <;> rfl

theorem hostStep_hide (h : HostStep) {s : State} (hb : s.status.busy = false) :
    SeenAlike (hostStep h s) (hostStep h (hide s)) := by
  cases h with
  | rd off width =>
    have hread := hostRead_observable off width s
    rw [observable_idle hb] at hread
    rw [hostStep, hostStep, hread]
    exact seenAlike_hide (t := respond (hostRead off width s) s) hb
  | wr off width v =>
    rw [hostStep, hostStep, hostWrite, hostWrite]
    cases badAccess off width
    · exact writeReg_hide (regAt off) v (s := respond .written s) hb
    · exact seenAlike_hide (t := respond .busError s) hb
  | poll =>
    rw [hostStep, hostStep, pollStep_idle hb, pollStep_idle (s := hide s) hb]
    exact seenAlike_hide (t := respond (.data s.status.word) s) hb
  | memRb a =>
    rw [hostStep, hostStep, hostMemRead_hide]
    exact seenAlike_hide (by rwa [hostMemRead_status])
  | memWb a v =>
    rw [hostStep, hostStep, hostMemWrite_hide]
    exact seenAlike_hide (by rwa [hostMemWrite_status])

theorem hostTurn_hide {s : State} (hb : s.status.busy = false) : SeenAlike (hostTurn s) (hostTurn (hide s)) := by
  unfold hostTurn
  rw [hide_host]
  cases s.host with
  | nil => exact seenAlike_hide hb
  | cons h rest => exact hostStep_hide h (s := { s with host := rest }) hb

theorem takeTurn_hide (tn : Turn) {s : State} (hb : s.status.busy = false) :
    SeenAlike (takeTurn tn s) (takeTurn tn (hide s)) := by
  cases tn with
  | host => exact hostTurn_hide hb
  | engine =>
    rw [takeTurn, takeTurn, engineStep_idle hb, engineStep_idle (s := hide s) hb]
    exact seenAlike_hide hb
  | reset => exact seenAlike_refl (resetEngine s)
  | publish n =>
    rw [takeTurn, takeTurn, publish_hide]
    exact seenAlike_hide (by rwa [publish_status])
  | maintain lo hi => exact seenAlike_hide (t := maintain lo hi s) hb

/-- An idle engine's step and that of what an observer sees of it are seen alike. -/
theorem step_hide {s : State} (hb : s.status.busy = false) : SeenAlike (step s) (step (hide s)) := by
  unfold step advance
  rw [hide_turns, hide_status, hb]
  cases s.turns with
  | nil => exact hostTurn_hide hb
  | cons tn rest => exact takeTurn_hide tn (s := { s with turns := rest }) hb

/-! ### Any step -/

theorem engineStep_total (s : State) : (∃ t, engineStep s = .next t) ∨ engineStep s = .fault .stuckSequencer := by
  obtain ⟨-, h⟩ | ⟨-, a, -, -, h⟩ | ⟨-, a, -, -, h⟩ | ⟨-, -, -, h⟩ | ⟨-, -, -, h⟩ := engineStep_cases s
  · exact .inl ⟨_, h⟩
  · exact .inl ⟨_, h⟩
  · exact .inl ⟨_, h⟩
  · exact .inl ⟨_, h⟩
  · exact .inr h

theorem hostTurn_total (s : State) : ∃ t, hostTurn s = .next t := by
  obtain ⟨t, -, -, -, -, h, -⟩ := hostTurn_change s
  exact ⟨t, h⟩

/-- A step answers a next state or is the engine's turn in a state where it is stuck (assumption log 13). -/
theorem step_total (s : State) : (∃ t, step s = .next t) ∨ step s = .fault .stuckSequencer := by
  unfold step advance
  cases s.turns with
  | nil =>
    dsimp only
    split
    · exact engineStep_total s
    · exact .inl (hostTurn_total s)
  | cons tn rest =>
    cases tn with
    | engine => exact engineStep_total _
    | host => exact .inl (hostTurn_total _)
    | reset => exact .inl ⟨_, rfl⟩
    | publish n => exact .inl ⟨_, rfl⟩
    | maintain lo hi => exact .inl ⟨_, rfl⟩

/-- Settles O60: reads and IRQ are functions of `observable`; busy states seen alike are equal; an idle state steps as
what an observer sees of it. -/
theorem hiddenStateUnobservable : Obligations.HiddenStateUnobservable := by
  unfold Obligations.HiddenStateUnobservable
  intro s s' hobs
  have hstatus : s.status = s'.status := by rw [← observable_status s, hobs, observable_status]
  refine ⟨fun off width => ?_, ?_, ?_⟩
  · rw [← hostRead_observable, hobs, hostRead_observable]
  · rw [← irq_observable, hobs, irq_observable]
  cases hb : s.status.busy with
  | true =>
    have hb' : s'.status.busy = true := hstatus ▸ hb
    obtain rfl : s = s' := by rwa [observable_busy hb, observable_busy hb'] at hobs
    obtain ⟨t, ht⟩ | hf := step_total s
    · exact .inl ⟨t, t, ht, ht, rfl⟩
    · exact .inr ⟨hf, hf⟩
  | false =>
    have hb' : s'.status.busy = false := hstatus ▸ hb
    rw [observable_idle hb, observable_idle hb'] at hobs
    obtain ⟨t, u, ht, hu, htu⟩ := step_hide hb
    obtain ⟨t', u', ht', hu', htu'⟩ := step_hide hb'
    rw [hobs, hu'] at hu
    cases hu
    exact .inl ⟨t, t', ht, ht', htu.trans htu'.symm⟩

end Sys2Proof.Machine

/-! What no step reads or writes: the build in any step, and the live registers in the engine's. -/

namespace Sys2Proof.Machine

/-! ### The build -/

theorem engineChange_build {s t : State} (hc : EngineChange s t) : t.build = s.build := by
  cases hc with
  | rejected hb => exact raise_build _ s
  | illegal hb => exact raise_build _ s
  | access hb ha hd => exact performAccess_build _ s
  | busError hb ha hd => exact raise_build _ s
  | _ => rfl

/-- Settles O56: no change of a step's list touches the build. -/
theorem buildNeverChanges : Obligations.BuildNeverChanges := by
  unfold Obligations.BuildNeverChanges
  intro s t h
  refine step_keeps (P := fun u => u.build = s.build) ?_ ?_ rfl h
  · intro u r hs tn un fc hu
    exact hu
  · intro u v hu hc
    exact (engineChange_build hc).trans hu

/-! ### The live registers -/

/-- The state with other values in `CTRL` and the operand registers. -/
def State.withRegisters (s : State) (c : Ctrl) (sb ss db ds : Word) : State :=
  { s with ctrl := c, srcBase := sb, srcStride := ss, dstBase := db, dstStride := ds }

theorem performAccess_withRegisters (a : Access) (s : State) (c : Ctrl) (sb ss db ds : Word) :
    performAccess a (s.withRegisters c sb ss db ds) = (performAccess a s).withRegisters c sb ss db ds := by
  cases a <;> rfl

theorem engineStep_admitted {s : State} {a : Access} (hb : s.status.busy = true)
    (ha : (accessSequence s.build s.latch)[s.latch.k]? = some a)
    (hd : admitted s.build (accessAddr s.latch a) (accessKind a) = true) :
    engineStep s = .next (performAccess a s) := by
  simp only [engineStep, hb, if_true, ha, accessStep, hd]

theorem engineStep_refused {s : State} {a : Access} (hb : s.status.busy = true)
    (ha : (accessSequence s.build s.latch)[s.latch.k]? = some a)
    (hd : admitted s.build (accessAddr s.latch a) (accessKind a) = false) :
    engineStep s = .next (raise (.busError (accessAddr s.latch a)) s) := by
  simp [engineStep, hb, ha, accessStep, hd]

theorem engineStep_complete {s : State} (hb : s.status.busy = true) (hk : s.latch.k = accessCount s.build s.latch) :
    engineStep s = .next (completionStep s) := by
  simp only [engineStep, hb, if_true, hk, access_none (Nat.le_refl _)]

/-- The engine's step on other live registers is the same step. -/
theorem engineStep_withRegisters {s t : State} (h : engineStep s = .next t) (c : Ctrl) (sb ss db ds : Word) :
    engineStep (s.withRegisters c sb ss db ds) = .next (t.withRegisters c sb ss db ds) := by
  obtain ⟨hb, he⟩ | ⟨hb, a, ha, hd, he⟩ | ⟨hb, a, ha, hd, he⟩ | ⟨hb, -, hk, he⟩ | ⟨-, -, -, he⟩ := engineStep_cases s <;>
    rw [he] at h <;> cases h
  · exact engineStep_idle (s := s.withRegisters c sb ss db ds) hb
  · rw [← performAccess_withRegisters]
    exact engineStep_admitted (s := s.withRegisters c sb ss db ds) hb ha hd
  · exact engineStep_refused (s := s.withRegisters c sb ss db ds) hb ha hd
  · exact engineStep_complete (s := s.withRegisters c sb ss db ds) hb hk

/-- Settles O22: the engine's step reads the build, the latch, the buffers, `STATUS` and pixel memory, and no other
register. -/
theorem operationReadsItsLatch : Obligations.OperationReadsItsLatch := by
  unfold Obligations.OperationReadsItsLatch
  intro s t c sb ss db ds h
  exact engineStep_withRegisters h c sb ss db ds

end Sys2Proof.Machine

/-! Who writes BUSY, DONE, `L.CMD` and `ERRADDR`: every step either leaves them, but for a DONE it may clear, or is an
acceptance, a reset or the engine's step (10_state.md R25, R26, R28, R30). -/

namespace Sys2Proof.Machine

/-- A step leaves BUSY, `L.CMD` and `ERRADDR`, and does not raise DONE. -/
def LeavesControl (s t : State) : Prop :=
  t.status.busy = s.status.busy ∧ (t.status.done = true → s.status.done = true) ∧
    t.latch.cmd = s.latch.cmd ∧ t.errAddr = s.errAddr

/-- A step accepts the command word `v` (45_control.md R120). -/
def Accepts (v : Word) (s t : State) : Prop :=
  s.status.busy = false ∧ isPredict s.build.avgPresent v = true ∧ t.status = Status.accepted ∧
    t.latch.cmd = v ∧ t.latch.k = 0 ∧ t.errAddr = s.errAddr

/-- A step ends the operation with a bus error at access `a`, which is number `L.K` (60_exceptions.md R135). -/
def Refuses (a : Access) (s t : State) : Prop :=
  s.status.busy = true ∧ (accessSequence s.build s.latch)[s.latch.k]? = some a ∧
    admitted s.build (accessAddr s.latch a) (accessKind a) = false ∧ t.status = (s.status.recorded 3).ended ∧
    t.latch = s.latch ∧ t.errAddr = accessAddr s.latch a

/-- A step completes the operation (45_control.md R125). -/
def Completes (s t : State) : Prop :=
  s.status.busy = true ∧ s.latch.k = accessCount s.build s.latch ∧ t.status = s.status.ended ∧
    t.latch = s.latch ∧ t.errAddr = s.errAddr

/-- The state shows `STATUS`, `CMD` and `ERRADDR` as after reset (10_state.md R47). -/
def ShowsReset (t : State) : Prop := t.status = Status.reset ∧ t.latch.cmd = 0 ∧ t.errAddr = 0

theorem leavesControl_respond (r : Response) (s : State) : LeavesControl s (respond r s) := ⟨rfl, id, rfl, rfl⟩

theorem writeCmd_writers {v : Word} {s t : State} (h : writeCmd v s = .next t) : LeavesControl s t ∨ Accepts v s t := by
  obtain he | ⟨hb, he⟩ | ⟨hb, he⟩ | ⟨hb, i, f, a, g, x, y, hd, hp, he⟩ := writeCmd_cases v s <;>
    rw [he] at h <;> cases h
  · exact .inl ⟨rfl, id, rfl, rfl⟩
  · exact .inl ⟨rfl, id, rfl, rfl⟩
  · exact .inl ⟨rfl, id, rfl, rfl⟩
  · exact .inr ⟨hb, isPredict_of_parts hd hp, rfl, encode_of_decodeWord hd, rfl, rfl⟩

/-- Of the register writes, only that of `CMD` can accept a command. -/
theorem writeReg_writers {r : Reg} {v : Word} {s t : State} (h : writeReg r v s = .next t) :
    LeavesControl s t ∨ (r = .cmd ∧ Accepts v s t) := by
  cases r
  case cmd => exact (writeCmd_writers h).imp id fun ha => ⟨rfl, ha⟩
  case status =>
    cases h
    refine .inl ⟨rfl, fun hd => ?_, rfl, rfl⟩
    exact (Bool.and_eq_true_iff.mp hd).1
  all_goals
    cases h
    exact .inl ⟨rfl, id, rfl, rfl⟩

theorem hostMemRead_leaves (a : Word) (s : State) : LeavesControl s (hostMemRead a s) := by
  obtain ⟨-, h⟩ | ⟨-, -, h⟩ | ⟨-, -, h⟩ := hostMemRead_cases a s <;> rw [h] <;> exact ⟨rfl, id, rfl, rfl⟩

theorem hostMemWrite_leaves (a : Word) (v : Byte) (s : State) : LeavesControl s (hostMemWrite a v s) := by
  unfold hostMemWrite
  cases inBlock s.build a <;> cases s.build.hostCoherent <;> exact ⟨rfl, id, rfl, rfl⟩

theorem pollStep_leaves (s : State) : LeavesControl s (pollStep s) := by
  unfold pollStep
  split <;> exact ⟨rfl, id, rfl, rfl⟩

/-- Of the host's steps, only a 32-bit write at offset 0x010 can accept a command. -/
theorem hostStep_writers {h : HostStep} {s t : State} (ht : hostStep h s = .next t) :
    LeavesControl s t ∨ ∃ v, h = .wr 0x010 32 v ∧ Accepts v s t := by
  cases h with
  | rd off width => cases ht; exact .inl (leavesControl_respond _ s)
  | poll => cases ht; exact .inl (pollStep_leaves s)
  | memRb a => cases ht; exact .inl (hostMemRead_leaves a s)
  | memWb a v => cases ht; exact .inl (hostMemWrite_leaves a v s)
  | wr off width v =>
    rw [hostStep, hostWrite] at ht
    split at ht
    · cases ht
      exact .inl (leavesControl_respond _ s)
    next hgood =>
    have hwidth : width = 32 := by
      by_contra hne
      exact hgood (by simp [badAccess, hne])
    obtain hleft | ⟨hreg, haccept⟩ := writeReg_writers ht
    · exact .inl hleft
    · rw [regAt_cmd hreg, hwidth]
      exact .inr ⟨v, rfl, haccept⟩

theorem engineStep_writers {s t : State} (h : engineStep s = .next t) :
    LeavesControl s t ∨ (∃ a, Refuses a s t) ∨ Completes s t := by
  obtain ⟨hb, he⟩ | ⟨hb, a, ha, hd, he⟩ | ⟨hb, a, ha, hd, he⟩ | ⟨hb, -, hk, he⟩ | ⟨-, -, -, he⟩ := engineStep_cases s <;>
    rw [he] at h <;> cases h
  · exact .inl ⟨rfl, id, rfl, rfl⟩
  · exact .inl ⟨by simp, by simp, by simp, by simp⟩
  · exact .inr (.inl ⟨a, hb, ha, hd, rfl, rfl, rfl⟩)
  · exact .inr (.inr ⟨hb, hk, rfl, rfl, rfl⟩)

theorem hostTurn_writers {s t : State} (h : hostTurn s = .next t) :
    LeavesControl s t ∨ ∃ v rest, s.host = .wr 0x010 32 v :: rest ∧ Accepts v s t := by
  unfold hostTurn at h
  split at h
  · cases h
    exact .inl ⟨rfl, id, rfl, rfl⟩
  next step rest hhost =>
  obtain hleft | ⟨v, rfl, haccept⟩ := hostStep_writers h
  · exact .inl hleft
  · exact .inr ⟨v, rest, hhost, haccept⟩

/-- Everything an agent's turn can do to BUSY, DONE, `L.CMD` and `ERRADDR`. -/
theorem takeTurn_writers {tn : Turn} {s t : State} (h : takeTurn tn s = .next t) :
    LeavesControl s t ∨ (∃ v rest, s.host = .wr 0x010 32 v :: rest ∧ Accepts v s t) ∨
    (tn = .reset ∧ ShowsReset t) ∨ (∃ a, Refuses a s t) ∨ Completes s t := by
  cases tn with
  | host => exact (hostTurn_writers h).imp_right .inl
  | engine => exact (engineStep_writers h).imp_right (.inr ∘ .inr)
  | reset =>
    cases h
    exact .inr (.inr (.inl ⟨rfl, rfl, rfl, rfl⟩))
  | publish n =>
    cases h
    exact .inl ⟨by simp, by simp, by simp, by simp⟩
  | maintain lo hi =>
    cases h
    exact .inl ⟨rfl, id, rfl, rfl⟩

/-- Everything a step can do to BUSY, DONE, `L.CMD` and `ERRADDR`. -/
theorem step_writers {s t : State} (h : step s = .next t) :
    LeavesControl s t ∨ (∃ v rest, s.host = .wr 0x010 32 v :: rest ∧ Accepts v s t) ∨
    (s.turns.head? = some .reset ∧ ShowsReset t) ∨ (∃ a, Refuses a s t) ∨ Completes s t := by
  unfold step advance at h
  split at h
  · next tn rest hturns =>
    rw [hturns]
    exact (takeTurn_writers h).imp_right (.imp_right (.imp_left fun ⟨hreset, hs⟩ => ⟨congrArg some hreset, hs⟩))
  · split at h
    · exact (engineStep_writers h).imp_right (.inr ∘ .inr)
    · exact (hostTurn_writers h).imp_right .inl

/-- Settles O57: of what a step can do, only acceptance raises BUSY, only the end of an operation and reset lower it, and
only the end of an operation raises DONE. -/
theorem busyAndDoneWriters : Obligations.BusyAndDoneWriters := by
  unfold Obligations.BusyAndDoneWriters
  intro s t h
  obtain ⟨hbusy, hdone, -, -⟩ | ⟨v, rest, hhost, hidle, hpred, hstatus, hcmd, hk, -⟩ | ⟨hreset, hstatus, -, -⟩ |
    ⟨a, hb, ha, hd, hstatus, -, -⟩ | ⟨hb, hk, hstatus, -, -⟩ := step_writers h
  · refine ⟨fun h0 h1 => ?_, fun h1 h0 => ?_, fun h0 h1 => ?_⟩
    · simp [hbusy, h0] at h1
    · simp [hbusy, h1] at h0
    · simp [hdone h1] at h0
  · rw [hstatus]
    exact ⟨fun _ _ => ⟨v, rest, hhost, hpred, hcmd, hk⟩, fun h1 => by simp [hidle] at h1, fun _ h1 => by simp at h1⟩
  · rw [hstatus]
    exact ⟨fun _ h1 => by simp [Status.reset] at h1, fun _ _ => .inl hreset, fun _ h1 => by simp [Status.reset] at h1⟩
  · rw [hstatus]
    exact ⟨fun h0 => by simp [hb] at h0, fun _ _ => .inr ⟨rfl, .inr ⟨a, ha, hd⟩⟩, fun _ _ => ⟨hb, rfl⟩⟩
  · rw [hstatus]
    exact ⟨fun h0 => by simp [hb] at h0, fun _ _ => .inr ⟨rfl, .inl hk⟩, fun _ _ => ⟨hb, rfl⟩⟩

/-- Settles O58: the latch's command word is written by acceptance and by reset. -/
theorem cmdReadsLastAccepted : Obligations.CmdReadsLastAccepted := by
  unfold Obligations.CmdReadsLastAccepted
  intro s t h
  obtain ⟨-, -, hcmd, -⟩ | ⟨v, rest, hhost, hidle, hpred, hstatus, hcmd, -, -⟩ | ⟨hreset, -, hcmd, -⟩ |
    ⟨a, -, -, -, -, hlatch, -⟩ | ⟨-, -, -, hlatch, -⟩ := step_writers h
  · exact .inl hcmd
  · exact .inr (.inr ⟨hidle, by rw [hstatus, accepted_busy], v, rest, hhost, hpred, hcmd⟩)
  · exact .inr (.inl ⟨hreset, hcmd⟩)
  · exact .inl (by rw [hlatch])
  · exact .inl (by rw [hlatch])

/-- Settles O59: `ERRADDR` is written by a bus error and by reset. -/
theorem errAddrWriters : Obligations.ErrAddrWriters := by
  unfold Obligations.ErrAddrWriters
  intro s t h
  obtain ⟨-, -, -, herr⟩ | ⟨v, rest, -, -, -, -, -, -, herr⟩ | ⟨hreset, -, -, herr⟩ |
    ⟨a, hb, ha, hd, hstatus, -, herr⟩ | ⟨-, -, -, -, herr⟩ := step_writers h
  · exact .inl herr
  · exact .inl herr
  · exact .inr (.inl ⟨hreset, herr⟩)
  · exact .inr (.inr ⟨hb, by rw [hstatus]; rfl, by rw [hstatus]; rfl, a, ha, hd, herr⟩)
  · exact .inl herr

end Sys2Proof.Machine

/-! What software reads: a named register by its offset, the fields of `CONFIG`, the coefficient windows, the offsets the
map does not name, and the reserved bits (10_state.md R18 to R30, R46). -/

namespace Sys2Proof.Machine

/-! ### Offsets -/

theorem badAccess_aligned {off : BitVec 12} (h : off.toNat % 4 = 0) : badAccess off 32 = false := by
  simp [badAccess, h]

/-- An aligned read answers the register that the offset names (45_control.md R114). -/
theorem hostRead_aligned {off : BitVec 12} {r : Reg} (h : off.toNat % 4 = 0) (hr : regAt off = r) (s : State) :
    hostRead off 32 s = .data (readReg s r) := by
  rw [hostRead, badAccess_aligned h, hr]
  rfl

theorem regAt_unnamed {off : BitVec 12} (h : 0x028 ≤ off.toNat ∧ off.toNat ≤ 0x0FC ∨ 0x340 ≤ off.toNat) :
    regAt off = .unnamed := by
  simp (disch := omega) only [regAt, if_neg]

/-- Word `k` of phase `p` of the six-tap window stands at `0x100 + 0x40 * p + 4 * k` (10_state.md R46). -/
theorem regAt_coef6 {off : BitVec 12} {p k : Nat} (hp : p < 8) (hk : k < 16)
    (h : off.toNat = 0x100 + 0x40 * p + 4 * k) : regAt off = .coef6 p k := by
  have hrow : (off.toNat - 0x100) / 0x40 = p := by omega
  have hcol : (off.toNat - 0x100) % 0x40 / 4 = k := by omega
  simp (disch := omega) only [regAt, if_neg, if_pos, hrow, hcol]

/-- Word `k` of phase `p` of the bilinear window stands at `0x300 + 8 * p + 4 * k` (10_state.md R46). -/
theorem regAt_coefB {off : BitVec 12} {p k : Nat} (hp : p < 8) (hk : k < 2)
    (h : off.toNat = 0x300 + 8 * p + 4 * k) : regAt off = .coefB p k := by
  have hrow : (off.toNat - 0x300) / 8 = p := by omega
  have hcol : (off.toNat - 0x300) % 8 / 4 = k := by omega
  simp (disch := omega) only [regAt, if_neg, if_pos, hrow, hcol]

/-! ### The words -/

/-- `CTRL` as the sum of its bits (10_state.md R24). -/
theorem ctrl_word_eq (c : Ctrl) : c.word = (if c.ieDone then 1 else 0) + (if c.ieErr then 2 else 0) := by
  obtain ⟨ieDone, ieErr⟩ := c
  cases ieDone <;> cases ieErr <;> rfl

/-- `STATUS` as the sum of its fields (10_state.md R25). -/
theorem status_word_eq (st : Status) :
    st.word = (if st.busy then 1 else 0) + (if st.done then 2 else 0) + (if st.err then 4 else 0)
      + (st.errCode.setWidth 32 <<< 4) := by
  obtain ⟨busy, done, err, errCode⟩ := st
  revert errCode
  cases busy <;> cases done <;> cases err <;> decide

theorem toNat_append_eq_add {m n : Nat} (x : BitVec m) (y : BitVec n) :
    (x ++ y).toNat = 2 ^ n * x.toNat + y.toNat := by
  rw [BitVec.toNat_append, ← Nat.shiftLeft_add_eq_or_of_lt y.isLt, Nat.shiftLeft_eq, Nat.mul_comm]

theorem radius_le (e : Support) : e.radius ≤ 5 := by
  cases e <;> decide

/-- `CONFIG` as a number (10_state.md R23); `TAPS6` fits its four bits. -/
theorem configWord_toNat (b : Build) :
    (configWord b).toNat = 2 * b.extend.radius + 16 * b.avgPresent.toNat + 2 ^ 8 * b.variant.toNat + 2 ^ 16 * 2 := by
  have htaps : 2 * b.extend.radius % 2 ^ 4 = 2 * b.extend.radius := by
    have := radius_le b.extend
    omega
  simp only [configWord, toNat_append_eq_add, BitVec.toNat_ofBool, BitVec.toNat_ofNat, BitVec.reduceToNat, htaps]
  omega

/-- A word of the bilinear window as a natural number (10_state.md R43, R46). -/
theorem coefBWord_eq {p : Nat} (hp : p < 8) :
    coefBWord p 0 = BitVec.ofNat 32 (128 - 16 * p) ∧ coefBWord p 1 = BitVec.ofNat 32 (16 * p) := by
  interval_cases p <;> decide

/-! ### Obligations -/

/-- Settles O38: each register by its offset, then its word as a sum. -/
theorem namedRegistersRead : Obligations.NamedRegistersRead := by
  unfold Obligations.NamedRegistersRead
  intro s
  rw [← ctrl_word_eq, ← status_word_eq]
  exact ⟨rfl, rfl, rfl, rfl, rfl, rfl, rfl, rfl, rfl⟩

/-- Settles O39: the fields of `CONFIG` as one number. -/
theorem configFields : Obligations.ConfigFields := by
  unfold Obligations.ConfigFields
  intro s
  rw [← configWord_toNat, BitVec.ofNat_toNat, BitVec.setWidth_eq]
  rfl

/-- Settles O40: the register at each word of the windows. -/
theorem coefficientWindows : Obligations.CoefficientWindows := by
  unfold Obligations.CoefficientWindows
  intro s p hp
  obtain ⟨hcoef0, hcoef1⟩ := coefBWord_eq hp
  refine ⟨fun k hk => ?_, ?_, ?_⟩
  · have hoff : (BitVec.ofNat 12 (0x100 + 0x40 * p + 4 * k)).toNat = 0x100 + 0x40 * p + 4 * k := by
      rw [BitVec.toNat_ofNat]
      omega
    rw [hostRead_aligned (by omega) (regAt_coef6 hp hk hoff)]
    rfl
  · have hoff : (BitVec.ofNat 12 (0x300 + 8 * p)).toNat = 0x300 + 8 * p + 4 * 0 := by
      rw [BitVec.toNat_ofNat]
      omega
    rw [hostRead_aligned (by omega) (regAt_coefB hp (by decide) hoff), readReg, hcoef0]
  · have hoff : (BitVec.ofNat 12 (0x304 + 8 * p)).toNat = 0x300 + 8 * p + 4 * 1 := by
      rw [BitVec.toNat_ofNat]
      omega
    rw [hostRead_aligned (by omega) (regAt_coefB hp (by decide) hoff), readReg, hcoef1]

/-- Settles O41: such an offset names no register. -/
theorem unnamedOffsets : Obligations.UnnamedOffsets := by
  unfold Obligations.UnnamedOffsets
  intro s off v haligned hrange
  refine ⟨hostRead_aligned haligned (regAt_unnamed hrange) s, ?_⟩
  rw [hostWrite, badAccess_aligned haligned, regAt_unnamed hrange]
  rfl

theorem ctrl_word_reserved (c : Ctrl) : c.word &&& 0xFFFFFFFC = 0 := by
  obtain ⟨ieDone, ieErr⟩ := c
  cases ieDone <;> cases ieErr <;> rfl

theorem status_word_reserved (st : Status) : st.word &&& 0xFFFFFF08 = 0 := by
  obtain ⟨busy, done, err, errCode⟩ := st
  revert errCode
  cases busy <;> cases done <;> cases err <;> decide

theorem configWord_reserved (b : Build) : configWord b &&& 0xFFF000E0 = 0 := by
  apply BitVec.eq_of_getLsbD_eq
  intro i hi
  simp only [configWord, BitVec.getLsbD_append, BitVec.getLsbD_and]
  interval_cases i <;> simp

/-- Settles O47: the reserved bits of each word are 0, whatever its fields. -/
theorem reservedBitsReadZero : Obligations.ReservedBitsReadZero := by
  unfold Obligations.ReservedBitsReadZero
  intro s
  refine ⟨?_, ?_, ?_⟩
  · rintro w ⟨⟩
    exact ctrl_word_reserved s.ctrl
  · rintro w ⟨⟩
    exact status_word_reserved s.status
  · rintro w ⟨⟩
    exact configWord_reserved s.build

end Sys2Proof.Machine

/-! The tap tables (10_state.md R41 to R45). -/

namespace Sys2Proof.Machine

/-- Settles O36: the row sums and the identity row hold of both families; the bilinear taps follow from their formula. -/
theorem tapRows : Obligations.TapRows := by
  unfold Obligations.TapRows
  intro b hb p
  have hp := p.isLt
  have h0 : tap b .bilin p 0 = 128 - 16 * (p.toNat : Int) := rfl
  have h1 : tap b .bilin p 1 = 16 * (p.toNat : Int) := rfl
  exact ⟨fun fam => tap_sum hb fam p, fun fam k hk => tap_phase0 hb fam hk, h0, h1, by omega, by omega⟩

end Sys2Proof.Machine

/-! The invariant's base case. -/

namespace Sys2Proof.Machine

theorem resetEngine_resetOf (b : Build) : resetEngine (State.resetOf b) = State.resetOf b := rfl

theorem config_build_legal : Config.build.legal = true := Config.sixtapRom.legal

/-- Settles O52: right after reset the machine is as a reset leaves it, and the open table of `State.reset` meets R41. -/
theorem resetIsLegal : Obligations.ResetIsLegal := by
  unfold Obligations.ResetIsLegal
  have hreset : ∀ b : Build, b.legal = true → machineLegal (State.resetOf b) = true := by
    intro b hb
    rw [← resetEngine_resetOf]
    exact machineLegal_resetEngine hb (resetOf_wf b)
  exact ⟨hreset, hreset Config.build config_build_legal⟩

end Sys2Proof.Machine

/-! The memory interface: what an address is, which addresses the engine may access, which access has which number, and
the canonical form of pixel memory (20_memory.md R51 to R61). -/

namespace Sys2Proof.Machine

/-! ### Addresses -/

/-- `s32(v)` by the sign bit (00_scope.md R11). -/
theorem s32_eq (v : Word) : s32 v = if v.toNat < 2 ^ 31 then (v.toNat : Int) else v.toNat - 2 ^ 32 := by
  rw [s32, BitVec.toInt_eq_toNat_cond]
  split <;> split <;> omega

/-- `addr(B, S, r, c)` as a number (20_memory.md R51). -/
theorem blockAddr_toNat (base : Word) (stride r c : Int) :
    ((blockAddr base stride r c).toNat : Int) = (base.toNat + r * stride + c) % 2 ^ 32 := by
  rw [blockAddr, BitVec.toNat_ofInt]
  exact Int.toNat_of_nonneg (Int.emod_nonneg _ (by decide))

/-- Settles O16: each access's address is the block address of its position, and the averaging read's position is the
write's. -/
theorem blockAddresses : Obligations.BlockAddresses := by
  unfold Obligations.BlockAddresses
  intro l
  rw [← s32_eq, ← s32_eq]
  exact ⟨fun r col => blockAddr_toNat l.sb (s32 l.ss) r col, fun y x => blockAddr_toNat l.db (s32 l.ds) y x,
    fun _ _ => rfl⟩

/-! ### The engine's own block -/

/-- `ENGINE_BASE` is the build's page number times the page size (20_memory.md R54). -/
theorem engineBase_toNat (b : Build) : (engineBase b).toNat = 0x1000 * b.basePage.toNat :=
  toNat_append_eq_add b.basePage (0 : BitVec 12)

/-- The engine is never admitted to its own block (20_memory.md R58). -/
theorem admitted_of_inBlock {b : Build} {a : Word} (h : inBlock b a = true) (kind : AccessKind) :
    admitted b a kind = false := by
  rw [admitted, h, Bool.not_true, Bool.false_and]

/-- Settles O17: the base is a whole number of pages, and `ADMIT` excludes the block. -/
theorem ownBlockNotAdmitted : Obligations.OwnBlockNotAdmitted := by
  unfold Obligations.OwnBlockNotAdmitted
  intro b
  refine ⟨?_, fun a kind hlo hhi => admitted_of_inBlock ?_ kind⟩
  · rw [engineBase_toNat, Nat.mul_mod_right]
  · simp [inBlock, hlo, hhi]

/-! ### The canonical form -/

theorem engineChange_memoryWf {s t : State} (hm : memoryWf s.mem = true) (hc : EngineChange s t) :
    memoryWf t.mem = true := by
  cases hc with
  | access hb ha hd => exact performAccess_memoryWf _ hm
  | store a v => exact memWrite_wf a v hm
  | _ => exact hm

/-- Settles O54: of a step's changes only an access and a store write pixel memory, and a write keeps the form. -/
theorem stepKeepsMemoryForm : Obligations.StepKeepsMemoryForm := by
  unfold Obligations.StepKeepsMemoryForm
  intro s t hm h
  refine step_keeps (P := fun u => memoryWf u.mem = true) ?_ ?_ hm h
  · intro u r hs tn un fc hu
    exact hu
  · intro u v hu hc
    exact engineChange_memoryWf hu hc

/-! ### Access by number -/

/-- Without averaging, access `j` of phase B writes destination position `j`. -/
theorem access_write_plain (b : Build) {l : Latch} (hav : l.avg = false) (j : Nat) :
    (accessSequence b l)[footCount b l + j]? = (positions l)[j]?.map fun p => .writeDst p.1 p.2 := by
  rw [access_phaseB, phaseB_plain hav, List.getElem?_map]

/-- Averaging, access `2 * j` of phase B reads destination position `j`. -/
theorem access_read_averaging (b : Build) {l : Latch} (hav : l.avg = true) (j : Nat) :
    (accessSequence b l)[footCount b l + 2 * j]? = (positions l)[j]?.map fun p => .readDst p.1 p.2 := by
  rw [access_phaseB, phaseB_averaging hav, pairs_get_even]

/-- Averaging, access `2 * j + 1` of phase B writes destination position `j`. -/
theorem access_write_averaging (b : Build) {l : Latch} (hav : l.avg = true) (j : Nat) :
    (accessSequence b l)[footCount b l + 2 * j + 1]? = (positions l)[j]?.map fun p => .writeDst p.1 p.2 := by
  rw [Nat.add_assoc, access_phaseB, phaseB_averaging hav, pairs_get_odd]

/-- Settles O14: access by number, phase A by its grid and phase B by the destination positions. -/
theorem accessSequence_numbered : Obligations.AccessSequence := by
  unfold Obligations.AccessSequence
  intro b l T c W H F
  have hpos : ∀ n, n < W * H → (positions l)[n]? = some (n / W, n % W) := fun n hn =>
    positions_get l (by rwa [Nat.mul_comm])
  refine ⟨fun n hn => ?_, fun n hn hav => ?_, fun n hn hav => ⟨?_, ?_⟩, ?_⟩
  · refine (access_phaseA b l hn).trans ?_
    rw [neg_add_eq_sub, neg_add_eq_sub]
    rfl
  · exact (access_write_plain b hav n).trans (by rw [hpos n hn]; rfl)
  · exact (access_read_averaging b hav n).trans (by rw [hpos n hn]; rfl)
  · exact (access_write_averaging b hav n).trans (by rw [hpos n hn]; rfl)
  · rw [accessSequence_length, accessCount]
    cases l.avg <;> rfl

/-! ### Each position once -/

/-- A grid listed row by row has no entry twice when its entries differ. -/
theorem grid_nodup {α : Type} (n m : Nat) {f : Nat → Nat → α} (hf : ∀ i j i' j', f i j = f i' j' → i = i' ∧ j = j') :
    ((List.range n).flatMap fun i => (List.range m).map (f i)).Nodup := by
  rw [List.nodup_flatMap]
  refine ⟨fun i _ => List.nodup_range.map fun j j' h => (hf i j i j' h).2, List.nodup_range.imp fun hne a ha ha' => ?_⟩
  obtain ⟨j, -, rfl⟩ := List.mem_map.mp ha
  obtain ⟨j', -, h⟩ := List.mem_map.mp ha'
  exact hne (hf _ _ _ _ h.symm).1

theorem positions_nodup (l : Latch) : (positions l).Nodup :=
  grid_nodup _ _ fun _ _ _ _ h => Prod.mk.inj h

theorem phaseA_nodup (b : Build) (l : Latch) : (phaseA b l).Nodup := by
  rw [phaseA_eq]
  refine grid_nodup _ _ fun i j i' j' h => ?_
  obtain ⟨hi, hj⟩ := Access.readSrc.inj h
  omega

theorem positionAccesses_nodup (averaging : Bool) (y x : Nat) : (positionAccesses averaging y x).Nodup := by
  cases averaging <;> simp [positionAccesses]

/-- The accesses at one destination position are at no other. -/
theorem positionAccesses_disjoint {averaging : Bool} {p q : Nat × Nat} (h : p ≠ q) :
    (positionAccesses averaging p.1 p.2).Disjoint (positionAccesses averaging q.1 q.2) := by
  rw [ne_comm, ne_eq, Prod.ext_iff] at h
  cases averaging <;> simpa [positionAccesses] using h

theorem phaseB_nodup (l : Latch) : (phaseB l).Nodup := by
  rw [phaseB_eq, List.nodup_flatMap]
  exact ⟨fun p _ => positionAccesses_nodup l.avg p.1 p.2, (positions_nodup l).imp positionAccesses_disjoint⟩

/-- No access is done twice: phase A reads the source only, phase B never. -/
theorem accessSequence_nodup (b : Build) (l : Latch) : (accessSequence b l).Nodup := by
  refine (phaseA_nodup b l).append (phaseB_nodup l) fun a hA hB => ?_
  obtain ⟨i, j, -, -, rfl⟩ := (mem_phaseA b l a).mp hA
  simp [mem_phaseB] at hB

/-- The source reads of an operation are phase A's: the footprint (20_memory.md R56). -/
theorem readSrc_mem_accessSequence (b : Build) (l : Latch) (r col : Int) :
    .readSrc r col ∈ accessSequence b l ↔
      ∃ i j : Nat, i < footRows b l ∧ j < footCols b l ∧ r = i - centre b l.fam ∧ col = j - centre b l.fam := by
  simp [accessSequence, mem_phaseA, mem_phaseB, neg_add_eq_sub]

/-- The destination writes of an operation are phase B's: every destination position (20_memory.md R57). -/
theorem writeDst_mem_accessSequence (b : Build) (l : Latch) (y x : Nat) :
    .writeDst y x ∈ accessSequence b l ↔ y < blockHeight l.geom ∧ x < blockWidth l.geom := by
  simp [accessSequence, mem_phaseA, mem_phaseB]

/-- The destination reads of an operation are phase B's, when averaging (20_memory.md R57). -/
theorem readDst_mem_accessSequence (b : Build) (l : Latch) (y x : Nat) :
    .readDst y x ∈ accessSequence b l ↔ l.avg = true ∧ y < blockHeight l.geom ∧ x < blockWidth l.geom := by
  simp [accessSequence, mem_phaseA, mem_phaseB, and_left_comm, and_comm]

/-- An averaging read is followed at once by the write of its position (20_memory.md R60). -/
theorem access_after_readDst {b : Build} {l : Latch} {n y x : Nat}
    (h : (accessSequence b l)[n]? = some (.readDst y x)) : (accessSequence b l)[n + 1]? = some (.writeDst y x) := by
  obtain ⟨-, r, c, hr⟩ | ⟨hk, hav, heven, -⟩ | ⟨-, -, y', x', hw⟩ := access_cases h
  · cases hr
  · obtain ⟨j, rfl⟩ : ∃ j, n = footCount b l + 2 * j := ⟨(n - footCount b l) / 2, by omega⟩
    rw [access_read_averaging b hav, Option.map_eq_some_iff] at h
    obtain ⟨p, hp, heq⟩ := h
    cases heq
    rw [access_write_averaging b hav, hp]
    rfl
  · cases hw

/-- Settles O15: no access is done twice, and each kind of access is done at exactly its positions. -/
theorem eachPositionOnce : Obligations.EachPositionOnce := by
  unfold Obligations.EachPositionOnce
  intro b l
  refine ⟨accessSequence_nodup b l, fun r col => ?_, writeDst_mem_accessSequence b l, readDst_mem_accessSequence b l,
    fun n y x => access_after_readDst⟩
  have htaps := tapCount_pos b l.fam
  rw [readSrc_mem_accessSequence, footRows, footCols]
  constructor
  · rintro ⟨i, j, hi, hj, rfl, rfl⟩
    omega
  · intro h
    exact ⟨(r + centre b l.fam).toNat, (col + centre b l.fam).toNat, by omega⟩

end Sys2Proof.Machine

/-! The command word: what the decoder answers, the round trip with the encoder, and the opcode map (30_encoding.md R69 to
R79). -/

namespace Sys2Proof

open Sys2Proof.Machine

/-! ### The decoder by the word's fields -/

/-- Everything the decoder can answer (30_encoding.md R76, R79). -/
theorem decodeWord_cases (ap : Bool) (w : Word) :
    (w = 0 ∧ decodeWord ap w = .legal .nop) ∨
    (w ≠ 0 ∧ fieldOpc w ≠ 1 ∧ decodeWord ap w = .illegal .reservedOpc) ∨
    (fieldOpc w = 1 ∧ fieldRsv w ≠ 0 ∧ decodeWord ap w = .illegal .reservedBits) ∨
    (fieldOpc w = 1 ∧ fieldRsv w = 0 ∧
      predictRow (familyOf (fieldFam w)) (fieldAvg w) (geometryOf (fieldSz w)) = none ∧
      decodeWord ap w = .illegal .averagingSize) ∨
    (fieldOpc w = 1 ∧ fieldRsv w = 0 ∧
      ∃ row, predictRow (familyOf (fieldFam w)) (fieldAvg w) (geometryOf (fieldSz w)) = some row ∧
        ((fieldAvg w = true ∧ ap = false ∧ decodeWord ap w = .illegal .averagingAbsent) ∨
          ((fieldAvg w = true → ap = true) ∧
            decodeWord ap w = .legal (row (fieldXph w) (fieldYph w))))) := by
  by_cases hw : w = 0
  · exact .inl ⟨hw, if_pos hw⟩
  by_cases hopc : fieldOpc w ≠ 1
  · exact .inr (.inl ⟨hw, hopc, by rw [decodeWord, if_neg hw, if_pos hopc]⟩)
  by_cases hrsv : fieldRsv w ≠ 0
  · exact .inr (.inr (.inl ⟨not_not.mp hopc, hrsv, by rw [decodeWord, if_neg hw, if_neg hopc, if_pos hrsv]⟩))
  refine .inr (.inr (.inr ?_))
  rw [decodeWord, if_neg hw, if_neg hopc, if_neg hrsv]
  cases predictRow (familyOf (fieldFam w)) (fieldAvg w) (geometryOf (fieldSz w)) with
  | none => exact .inl ⟨not_not.mp hopc, not_not.mp hrsv, rfl, rfl⟩
  | some row =>
    refine .inr ⟨not_not.mp hopc, not_not.mp hrsv, row, rfl, ?_⟩
    cases fieldAvg w <;> cases ap <;> simp

/-- A word with these fields is the row's command, in a build that has it (30_encoding.md R76). -/
theorem decodeWord_of_row {ap : Bool} {w : Word} {row : Phase → Phase → Instr} (hopc : fieldOpc w = 1)
    (hrsv : fieldRsv w = 0)
    (hrow : predictRow (familyOf (fieldFam w)) (fieldAvg w) (geometryOf (fieldSz w)) = some row)
    (hav : fieldAvg w = true → ap = true) : decodeWord ap w = .legal (row (fieldXph w) (fieldYph w)) := by
  rcases decodeWord_cases ap w with ⟨rfl, -⟩ | ⟨-, hne, -⟩ | ⟨-, hne, -⟩ | ⟨-, -, hnone, -⟩ |
    ⟨-, -, row', hrow', ⟨ha, hap, -⟩ | ⟨-, hdec⟩⟩
  · cases hopc
  · exact absurd hopc hne
  · exact absurd hrsv hne
  · cases hrow.symm.trans hnone
  · cases hap.symm.trans (hav ha)
  · cases hrow.symm.trans hrow'
    exact hdec

/-- A row of the opcode map makes commands with the row's parts. -/
theorem predictParts_of_row {f : Family} {a : Bool} {g : Geometry} {row : Phase → Phase → Instr}
    (h : predictRow f a g = some row) (x y : Phase) : predictParts (row x y) = some (f, a, g, x, y) := by
  cases f <;> cases a <;> cases g <;> cases h <;> rfl

/-- A command with parts is made by the row of its parts. -/
theorem predictRow_of_parts {i : Instr} {f a g x y} (h : predictParts i = some (f, a, g, x, y)) :
    ∃ row, predictRow f a g = some row ∧ i = row x y := by
  cases i <;> cases h <;> exact ⟨_, rfl, rfl⟩

/-- The word of a prediction command shows `OPC` 1 and `RSV` 0, and its fields select the command's row
(30_encoding.md R69, R78). -/
theorem encode_fields {i : Instr} {f a g x y} (h : predictParts i = some (f, a, g, x, y)) :
    fieldOpc (encode i) = 1 ∧ fieldRsv (encode i) = 0 ∧ fieldAvg (encode i) = a ∧
      ∃ row, predictRow (familyOf (fieldFam (encode i))) (fieldAvg (encode i)) (geometryOf (fieldSz (encode i)))
        = some row ∧ i = row (fieldXph (encode i)) (fieldYph (encode i)) := by
  obtain ⟨row, hrow, hi⟩ := predictRow_of_parts h
  obtain ⟨rfl, rfl, rfl, rfl, rfl⟩ := parts_fields h
  have hword := encode_predictRow_toNat hrow (fieldXph (encode i)) (fieldYph (encode i))
  rw [← hi, fields_toNat] at hword
  have hlt := (fieldRsv (encode i)).isLt
  refine ⟨BitVec.eq_of_toNat_eq ?_, BitVec.eq_of_toNat_eq ?_, rfl, row, hrow, hi⟩ <;>
    simp only [BitVec.reduceToNat] <;> omega

/-- Decoding a command's word gives the command back, in a build that has it (30_encoding.md R76, R78). -/
theorem decodeWord_encode {ap : Bool} {i : Instr} (h : wellFormed ap i = true) : decodeWord ap (encode i) = .legal i := by
  by_cases hn : i = .nop
  · subst hn
    rfl
  · obtain ⟨f, a, g, x, y, hp⟩ := predictParts_some hn
    obtain ⟨hopc, hrsv, havg, row, hrow, hi⟩ := encode_fields hp
    rw [wellFormed_parts ap hp] at h
    rw [decodeWord_of_row hopc hrsv hrow (by rw [havg]; rintro rfl; exact h), ← hi]

/-- The build has every command it decodes (00_scope.md R8, 30_encoding.md R76). -/
theorem wellFormed_of_decodeWord {ap : Bool} {w : Word} {i : Instr} (h : decodeWord ap w = .legal i) :
    wellFormed ap i = true := by
  rcases decodeWord_cases ap w with ⟨-, hdec⟩ | ⟨-, -, hdec⟩ | ⟨-, -, hdec⟩ | ⟨-, -, -, hdec⟩ |
    ⟨-, -, row, hrow, ⟨-, -, hdec⟩ | ⟨hav, hdec⟩⟩ <;> cases hdec.symm.trans h
  · rfl
  · rw [wellFormed_parts ap (predictParts_of_row hrow _ _)]
    cases havg : fieldAvg w
    · rfl
    · exact hav havg

/-- Settles O1: the word shows the command's own fields, so the decoder finds the command's row. -/
theorem decodeOfEncode : Obligations.DecodeOfEncode := by
  unfold Obligations.DecodeOfEncode
  exact fun _ _ => decodeWord_encode

/-- Settles O2: a legal word is the sum of its fields, and so is the word of the row they select. -/
theorem encodeOfDecode : Obligations.EncodeOfDecode := by
  unfold Obligations.EncodeOfDecode
  exact fun _ _ _ h => ⟨encode_of_decodeWord h, wellFormed_of_decodeWord h⟩

end Sys2Proof

/-! The opcode map as rows of mask and match, and the classes of illegal words (30_encoding.md R78, R79). -/

namespace Sys2Proof

open Sys2Proof.Machine

/-! ### The opcode map (30_encoding.md R78) -/

/-- The opcode map has a row for every command. -/
theorem rowOf_every (i : Instr) : Laws.RowOf.Statement i :=
  match i with
  | .sixtap4x4 x y => Laws.RowOf.sixtap4x4 x y
  | .sixtap8x4 x y => Laws.RowOf.sixtap8x4 x y
  | .sixtap8x8 x y => Laws.RowOf.sixtap8x8 x y
  | .sixtap16x16 x y => Laws.RowOf.sixtap16x16 x y
  | .sixtapAvg8x8 x y => Laws.RowOf.sixtapAvg8x8 x y
  | .sixtapAvg16x16 x y => Laws.RowOf.sixtapAvg16x16 x y
  | .bilin4x4 x y => Laws.RowOf.bilin4x4 x y
  | .bilin8x4 x y => Laws.RowOf.bilin8x4 x y
  | .bilin8x8 x y => Laws.RowOf.bilin8x8 x y
  | .bilin16x16 x y => Laws.RowOf.bilin16x16 x y
  | .bilinAvg8x8 x y => Laws.RowOf.bilinAvg8x8 x y
  | .bilinAvg16x16 x y => Laws.RowOf.bilinAvg16x16 x y
  | .nop => Laws.RowOf.nop

/-- The row of `nop`, or a row whose mask fixes every field but the phases and whose match value shows the fields of the
commands with the row's mnemonic. -/
theorem opcodeRow_cases {row : OpcodeRow} (h : row ∈ opcodeRows) :
    row = ⟨"nop", 0xFFFFFFFF, 0, false⟩ ∨
    (row.mask = 0xFFFFFC0F ∧ fieldOpc row.pattern = 1 ∧ fieldRsv row.pattern = 0 ∧
      fieldAvg row.pattern = row.averaging ∧
      ∃ make, predictRow (familyOf (fieldFam row.pattern)) (fieldAvg row.pattern) (geometryOf (fieldSz row.pattern))
        = some make ∧ ∀ x y, (make x y).mnemonic = row.mnemonic) := by
  simp only [opcodeRows, List.cons_append, List.nil_append, List.mem_cons, List.not_mem_nil, or_false] at h
  rcases h with rfl | rfl | rfl | rfl | rfl | rfl | rfl | rfl | rfl | rfl | rfl | rfl | rfl
  on_goal 13 => exact .inl rfl
  all_goals exact .inr ⟨rfl, rfl, rfl, rfl, _, rfl, fun _ _ => rfl⟩

/-- Two rows that agree where both masks look are one row. -/
theorem opcodeRows_apart : ∀ row ∈ opcodeRows, ∀ row' ∈ opcodeRows,
    row.pattern &&& row'.mask = row'.pattern &&& row.mask → row = row' := by
  decide

theorem opcodeRows_mnemonic_inj : ∀ row ∈ opcodeRows, ∀ row' ∈ opcodeRows,
    row.mnemonic = row'.mnemonic → row = row' := by
  decide

theorem opcodeRow_matches_iff (row : OpcodeRow) (w : Word) : row.matches w = true ↔ w &&& row.mask = row.pattern := by
  rw [OpcodeRow.matches, beq_iff_eq]

/-- No word matches two rows: it would show both match values where both masks look. -/
theorem row_unique {w : Word} {row row' : OpcodeRow} (hrow : row ∈ opcodeRows) (hrow' : row' ∈ opcodeRows)
    (h : row.matches w = true) (h' : row'.matches w = true) : row = row' := by
  rw [opcodeRow_matches_iff] at h h'
  apply opcodeRows_apart row hrow row' hrow'
  rw [← h, ← h', BitVec.and_assoc, BitVec.and_assoc, BitVec.and_comm row.mask]

/-- A word decoded to a command with a row's mnemonic matches the row, and the build has the row. -/
theorem matches_of_decodeWord {ap : Bool} {w : Word} {i : Instr} {row : OpcodeRow} (hrow : row ∈ opcodeRows)
    (h : decodeWord ap w = .legal i) (hm : i.mnemonic = row.mnemonic) :
    row.matches w = true ∧ (row.averaging = true → ap = true) := by
  obtain ⟨row', hrow', hm', hav', hw⟩ := rowOf_every i
  obtain rfl := opcodeRows_mnemonic_inj row' hrow' row hrow (hm'.trans hm)
  have hwf := wellFormed_of_decodeWord h
  rw [encode_of_decodeWord h] at hw
  refine ⟨hw, fun hav => ?_⟩
  rw [wellFormed, ← hav', hav] at hwf
  exact hwf

/-- A word that matches a row of the build decodes to a command with the row's mnemonic. -/
theorem decodeWord_of_matches {ap : Bool} {w : Word} {row : OpcodeRow} (hrow : row ∈ opcodeRows)
    (h : row.matches w = true) (hav : row.averaging = true → ap = true) :
    ∃ i, decodeWord ap w = .legal i ∧ i.mnemonic = row.mnemonic := by
  rw [opcodeRow_matches_iff] at h
  obtain rfl | ⟨hmask, hopc, hrsv, havg, make, hmake, hname⟩ := opcodeRow_cases hrow
  · have hw : w = 0 := (BitVec.and_allOnes (x := w)).symm.trans h
    exact ⟨.nop, if_pos hw, rfl⟩
  · rw [hmask] at h
    obtain ⟨ho, hr, hs, hf, ha⟩ := fixed_fields h
    refine ⟨_, decodeWord_of_row (ho.trans hopc) (hr.trans hrsv) (by rwa [hs, hf, ha]) ?_, hname _ _⟩
    rw [ha, havg]
    exact hav

/-- Settles O3: a command's word matches the one row with its mnemonic, and a row's mask keeps every field that decoding
looks at. -/
theorem opcodeMapDecides : Obligations.OpcodeMapDecides := by
  unfold Obligations.OpcodeMapDecides
  refine ⟨fun a w row hrow => ⟨?_, fun h => decodeWord_of_matches hrow h.1 h.2⟩,
    fun w row hrow row' hrow' => row_unique hrow hrow'⟩
  rintro ⟨i, h, hm⟩
  exact matches_of_decodeWord hrow h hm

/-! ### The classes of illegal words (30_encoding.md R79) -/

/-- The fields of a word as digits of its number (30_encoding.md R69). -/
theorem fieldOpc_toNat (w : Word) : (fieldOpc w).toNat = w.toNat / 2 ^ 28 := by
  have := (fieldOpc w).isLt
  simp only [fieldOpc, BitVec.extractLsb'_toNat, Nat.shiftRight_eq_div_pow]
  have := w.isLt
  omega

theorem fieldRsv_toNat (w : Word) : (fieldRsv w).toNat = w.toNat / 2 ^ 10 % 2 ^ 18 := by
  rw [fieldRsv, BitVec.extractLsb'_toNat, Nat.shiftRight_eq_div_pow]

theorem fieldOpc_eq_one (w : Word) : fieldOpc w = 1 ↔ w.toNat / 2 ^ 28 = 1 := by
  rw [← BitVec.toNat_inj, fieldOpc_toNat]
  rfl

theorem fieldRsv_eq_zero (w : Word) : fieldRsv w = 0 ↔ w.toNat / 2 ^ 10 % 2 ^ 18 = 0 := by
  rw [← BitVec.toNat_inj, fieldRsv_toNat]
  rfl

/-- `AVG`, `FAM` and `SZ` are the low four bits (30_encoding.md R69). -/
theorem lowDigit (w : Word) :
    w.toNat % 16 = (fieldSz w).toNat + 4 * (fieldFam w).toNat + 8 * (fieldAvg w).toNat := by
  have hw := fields_toNat w
  have hsz := (fieldSz w).isLt
  have hfam := (fieldFam w).toNat_le
  have havg := (fieldAvg w).toNat_le
  omega

/-- The map has no row with these fields just when they ask for averaging at 4x4 or 8x4 (30_encoding.md R79 (d)). -/
theorem predictRow_isNone : ∀ (fam avg : Bool) (sz : BitVec 2),
    (predictRow (familyOf fam) avg (geometryOf sz)).isNone = true ↔
      sz.toNat + 4 * fam.toNat + 8 * avg.toNat ∈ [8, 9, 12, 13] := by
  decide

/-- The map has an averaging row with these fields (30_encoding.md R79 (e)). -/
theorem predictRow_averaging : ∀ (fam avg : Bool) (sz : BitVec 2),
    (avg = true ∧ (predictRow (familyOf fam) avg (geometryOf sz)).isNone = false) ↔
      sz.toNat + 4 * fam.toNat + 8 * avg.toNat ∈ [10, 11, 14, 15] := by
  decide

/-- The four classes by the word's fields (30_encoding.md R79). -/
theorem decodeWord_illegal_iff (ap : Bool) (w : Word) :
    (decodeWord ap w = .illegal .reservedOpc ↔ w ≠ 0 ∧ fieldOpc w ≠ 1) ∧
    (decodeWord ap w = .illegal .reservedBits ↔ fieldOpc w = 1 ∧ fieldRsv w ≠ 0) ∧
    (decodeWord ap w = .illegal .averagingSize ↔ (fieldOpc w = 1 ∧ fieldRsv w = 0) ∧
      (predictRow (familyOf (fieldFam w)) (fieldAvg w) (geometryOf (fieldSz w))).isNone = true) ∧
    (decodeWord ap w = .illegal .averagingAbsent ↔ (fieldOpc w = 1 ∧ fieldRsv w = 0) ∧
      (fieldAvg w = true ∧
        (predictRow (familyOf (fieldFam w)) (fieldAvg w) (geometryOf (fieldSz w))).isNone = false) ∧ ap = false) := by
  rcases decodeWord_cases ap w with ⟨rfl, hdec⟩ | ⟨hw, hopc, hdec⟩ | ⟨hopc, hrsv, hdec⟩ | ⟨hopc, hrsv, hrow, hdec⟩ |
    ⟨hopc, hrsv, row, hrow, ⟨hav, rfl, hdec⟩ | ⟨hav, hdec⟩⟩ <;> rw [hdec]
  · have hopc : fieldOpc 0 ≠ 1 := by decide
    simp_all
  all_goals simp_all

/-- An illegal word written to `CMD` of an idle engine is error code 1 and nothing else (45_control.md R122). -/
theorem hostWrite_illegal {s : State} {w : Word} {why : Illegal} (h : decodeWord s.build.avgPresent w = .illegal why)
    (hb : s.status.busy = false) :
    hostWrite 0x010 32 w s = .next (raise .illegalCommand (respond .written s)) := by
  calc hostWrite 0x010 32 w s
    _ = writeCmd w (respond .written s) := rfl
    _ = .next (issueIllegal (respond .written s)) := by rw [writeCmd, respond_build, h]
    _ = .next (raise .illegalCommand (respond .written s)) := by
      rw [issueIllegal_idle (s := respond .written s) hb]

/-- Settles O4: each class by the word's fields, the fields as digits of the word, and the write of an illegal word. -/
theorem illegalWordClasses : Obligations.IllegalWordClasses := by
  unfold Obligations.IllegalWordClasses
  refine ⟨fun a w => ?_, fun s w why h hb => hostWrite_illegal h hb⟩
  obtain ⟨hopc, hrsv, hsize, habsent⟩ := decodeWord_illegal_iff a w
  have hdigits : (fieldOpc w = 1 ∧ fieldRsv w = 0) ↔ w.toNat / 2 ^ 10 = 2 ^ 18 := by
    rw [fieldOpc_eq_one, fieldRsv_eq_zero]
    omega
  rw [hdigits] at hsize habsent
  rw [predictRow_isNone, ← lowDigit] at hsize
  rw [predictRow_averaging, ← lowDigit] at habsent
  simp only [ne_eq, fieldOpc_eq_one, fieldRsv_eq_zero] at hopc hrsv
  exact ⟨hopc, hrsv, hsize, habsent⟩

end Sys2Proof

/-! The assembler: which lines it takes, the word of a line, and the pseudo-instructions (30_encoding.md R81, R82). -/

namespace Sys2Proof

open Sys2Proof.Machine

/-- The geometry named by a size is the one with that width and height (30_encoding.md R71, R81). -/
theorem geometryNamed_eq_some {w h : Nat} {g : Geometry} :
    geometryNamed w h = some g ↔ (w, h) = (blockWidth g, blockHeight g) := by
  constructor
  · intro hg
    unfold geometryNamed at hg
    split_ifs at hg with h4 h84 h8 h16 <;> cases hg
    · rw [h4.1, h4.2]; rfl
    · rw [h84.1, h84.2]; rfl
    · rw [h8.1, h8.2]; rfl
    · rw [h16.1, h16.2]; rfl
  · intro hg
    cases hg
    cases g <;> rfl

theorem phaseNamed_eq_some {n : Nat} {p : Phase} : phaseNamed n = some p ↔ n = p.toNat := by
  unfold phaseNamed
  constructor
  · intro hp
    split_ifs at hp with hn
    cases hp
    exact (Nat.mod_eq_of_lt hn).symm
  · rintro rfl
    rw [if_pos p.isLt, BitVec.ofNat_toNat, BitVec.setWidth_eq]

/-- Everything a command line can name: a size of the map, two phases and a row (30_encoding.md R81). -/
theorem commandNamed_eq_some {fam : Family} {averaging : Bool} {w h x y : Nat} {i : Instr} :
    commandNamed fam averaging w h x y = some i ↔ ∃ g p q row, (w, h) = (blockWidth g, blockHeight g) ∧
      x = p.toNat ∧ y = q.toNat ∧ predictRow fam averaging g = some row ∧ row p q = i := by
  simp only [commandNamed, Option.bind_eq_bind, Option.pure_def, Option.bind_eq_some_iff, geometryNamed_eq_some,
    phaseNamed_eq_some, Option.some.injEq, exists_and_left]

/-- The sizes that have a row in a family and variant (30_encoding.md R73). -/
theorem exists_row_iff (fam : Family) (averaging : Bool) (w h : Nat) :
    (∃ g row, (w, h) = (blockWidth g, blockHeight g) ∧ predictRow fam averaging g = some row) ↔
      (w, h) = (8, 8) ∨ (w, h) = (16, 16) ∨ (averaging = false ∧ ((w, h) = (4, 4) ∨ (w, h) = (8, 4))) := by
  constructor
  · rintro ⟨g, row, hwh, hrow⟩
    rw [hwh]
    cases g
    case g8x8 => exact .inl rfl
    case g16x16 => exact .inr (.inl rfl)
    all_goals cases averaging
    case g4x4.false => exact .inr (.inr ⟨rfl, .inl rfl⟩)
    case g8x4.false => exact .inr (.inr ⟨rfl, .inr rfl⟩)
    all_goals cases fam <;> cases hrow
  · rintro (hwh | hwh | ⟨rfl, hwh | hwh⟩)
    · exact ⟨.g8x8, by cases fam <;> cases averaging <;> exact ⟨_, hwh, rfl⟩⟩
    · exact ⟨.g16x16, by cases fam <;> cases averaging <;> exact ⟨_, hwh, rfl⟩⟩
    · exact ⟨.g4x4, by cases fam <;> exact ⟨_, hwh, rfl⟩⟩
    · exact ⟨.g8x4, by cases fam <;> exact ⟨_, hwh, rfl⟩⟩

/-- The `SZ` field of a geometry (30_encoding.md R71). -/
theorem exists_sizeField (g : Geometry) : ∃ sz : BitVec 2, geometryOf sz = g ∧
    (if (blockWidth g, blockHeight g) = (4, 4) then 0 else if (blockWidth g, blockHeight g) = (8, 4) then 1
      else if (blockWidth g, blockHeight g) = (8, 8) then 2 else 3) = sz.toNat := by
  cases g
  · exact ⟨0, rfl, rfl⟩
  · exact ⟨1, rfl, rfl⟩
  · exact ⟨2, rfl, rfl⟩
  · exact ⟨3, rfl, rfl⟩

/-- The `FAM` bit of a family (30_encoding.md R72). -/
theorem exists_familyBit (fam : Family) : ∃ bit, familyOf bit = fam ∧ (if fam = .bilin then 4 else 0) = 4 * bit.toNat := by
  cases fam
  · exact ⟨false, rfl, rfl⟩
  · exact ⟨true, rfl, rfl⟩

/-- The word of a row's command is the sum of its fields (30_encoding.md R81). -/
theorem encode_row {fam averaging : Bool} {sz : BitVec 2} {row : Phase → Phase → Instr}
    (hrow : predictRow (familyOf fam) averaging (geometryOf sz) = some row) (p q : Phase) :
    encode (row p q) = BitVec.ofNat 32 (0x10000000 + sz.toNat + 4 * fam.toNat + (if averaging = true then 8 else 0)
      + 16 * p.toNat + 128 * q.toNat) := by
  have hav : (if averaging = true then 8 else 0) = 8 * averaging.toNat := by cases averaging <;> rfl
  have hlt := (encode (row p q)).isLt
  apply BitVec.eq_of_toNat_eq
  rw [encode_predictRow_toNat hrow] at hlt ⊢
  rw [BitVec.toNat_ofNat, hav]
  omega

/-- Settles O6: a line that names a command is a size with a row and two phases; its word is the row's. -/
theorem assemblerWords : Obligations.AssemblerWords := by
  unfold Obligations.AssemblerWords
  refine ⟨fun fam averaging w h x y => ?_, rfl⟩
  show (commandNamed fam averaging w h x y).map encode = _
  split
  next hline =>
    obtain ⟨hx, hy, hsize⟩ := hline
    obtain ⟨g, row, hwh, hrow⟩ := (exists_row_iff fam averaging w h).mpr hsize
    obtain ⟨p, rfl⟩ : ∃ p : Phase, x = p.toNat := ⟨⟨x, hx⟩, rfl⟩
    obtain ⟨q, rfl⟩ : ∃ q : Phase, y = q.toNat := ⟨⟨y, hy⟩, rfl⟩
    rw [commandNamed_eq_some.mpr ⟨g, p, q, row, hwh, rfl, rfl, hrow, rfl⟩, Option.map_some, hwh]
    obtain ⟨sz, rfl, hsz⟩ := exists_sizeField g
    obtain ⟨bit, rfl, hbit⟩ := exists_familyBit fam
    rw [hsz, hbit, encode_row hrow]
  next hline =>
    rw [Option.map_eq_none_iff, Option.eq_none_iff_forall_ne_some]
    intro i hi
    obtain ⟨g, p, q, row, hwh, rfl, rfl, hrow, -⟩ := commandNamed_eq_some.mp hi
    exact hline ⟨p.isLt, q.isLt, (exists_row_iff fam averaging w h).mp ⟨g, row, hwh, hrow⟩⟩

/-- Settles O5: each legal word is the word of its command; the two illegal ones are decoded field by field. -/
theorem specWordsDecode : Obligations.SpecWordsDecode := by
  unfold Obligations.SpecWordsDecode
  exact ⟨decodeWord_encode (i := .sixtap4x4 4 4) rfl, decodeWord_encode (i := .sixtap8x4 3 5) rfl,
    decodeWord_encode (i := .sixtap8x8 2 0) rfl, decodeWord_encode (i := .sixtapAvg16x16 2 6) rfl,
    decodeWord_encode (i := .sixtapAvg8x8 1 7) rfl, decodeWord_encode (i := .bilin8x8 0 7) rfl,
    decodeWord_encode (i := .bilinAvg16x16 4 4) rfl, decodeWord_encode (i := .nop) rfl, rfl, rfl⟩

/-- Settles O7: each line stands for a command line with its phases filled in. -/
theorem pseudoInstructions : Obligations.PseudoInstructions := by
  unfold Obligations.PseudoInstructions
  exact ⟨rfl, rfl, rfl, rfl, rfl, rfl, fun _ _ _ _ => rfl, fun _ _ _ _ => rfl⟩

end Sys2Proof

/-! Host byte accesses to pixel memory, on a coherent platform and on another (20_memory.md R55, R64, R66). -/

namespace Sys2Proof.Machine

/-! ### A byte load and a byte store -/

theorem hostMemRead_inBlock {s : State} {a : Word} (h : inBlock s.build a = true) :
    hostMemRead a s = respond .busError s := if_pos h

theorem hostMemRead_seen {s : State} {a : Word} (h : inBlock s.build a = false) (hs : hostSees s a = true) :
    hostMemRead a s = respond (.byte (memRead s.mem a)) s := by
  rw [hostMemRead, h, hs]
  rfl

theorem hostMemRead_unseen {s : State} {a : Word} (h : inBlock s.build a = false) (hs : hostSees s a = false) :
    hostMemRead a s = respond (.byte (drawByte s).1) (drawByte s).2 := by
  rw [hostMemRead, h, hs]
  rfl

theorem hostMemWrite_inBlock {s : State} {a : Word} (v : Byte) (h : inBlock s.build a = true) :
    hostMemWrite a v s = respond .busError s := if_pos h

/-- On a coherent platform a store is at once in pixel memory (20_memory.md R66). -/
theorem hostMemWrite_coherent {s : State} {a : Word} (v : Byte) (h : inBlock s.build a = false)
    (hc : s.build.hostCoherent = true) :
    hostMemWrite a v s = respond .written { s with mem := memWrite s.mem a v } := by
  rw [hostMemWrite, h, hc]
  rfl

/-- On another platform a store waits (20_memory.md R66). -/
theorem hostMemWrite_incoherent {s : State} {a : Word} (v : Byte) (h : inBlock s.build a = false)
    (hc : s.build.hostCoherent = false) :
    hostMemWrite a v s = respond .written { s with unseen := s.unseen ++ [(a, v)] } := by
  rw [hostMemWrite, h, hc]
  rfl

/-- Publishing a store that waits puts its byte in pixel memory. -/
theorem publish_mem {n : Nat} {s : State} {a : Word} {v : Byte} (h : s.unseen[n]? = some (a, v)) :
    (publish n s).mem = memWrite s.mem a v := by
  rw [publish, h]

/-! ### The two kinds of platform -/

/-- A load after a store on a coherent platform answers the byte stored. -/
theorem hostMemRead_after_write {s : State} {a : Word} (v : Byte) (h : inBlock s.build a = false)
    (hc : s.build.hostCoherent = true) (hm : memoryWf s.mem = true) :
    (hostMemRead a (hostMemWrite a v s)).response = some (.byte v) := by
  rw [hostMemWrite_coherent v h hc, hostMemRead_seen]
  · exact congrArg (some ∘ Response.byte) (memRead_memWrite_same a v hm)
  · exact h
  · exact hostSees_coherent a hc

/-- A load after the platform's maintenance of its range answers what the engine has left there (20_memory.md R64
(d)). -/
theorem hostMemRead_maintained {s : State} {a lo hi : Word} (h : inBlock s.build a = false)
    (hl : lo.toNat ≤ a.toNat) (hh : a.toNat ≤ hi.toNat) (hu : ∀ w ∈ s.unseen, w.1 ≠ a) :
    hostMemRead a (maintain lo hi s) = respond (.byte (memRead s.mem a)) (maintain lo hi s) :=
  hostMemRead_seen h (hostSees_maintain s hl hh hu)

/-- A store is in pixel memory once the platform has published it, the last of those that wait (20_memory.md R64 (b)). -/
theorem memRead_published {s : State} {a : Word} (v : Byte) (h : inBlock s.build a = false)
    (hc : s.build.hostCoherent = false) (hm : memoryWf s.mem = true) :
    memRead (publish s.unseen.length (hostMemWrite a v s)).mem a = v := by
  have hlast : (hostMemWrite a v s).unseen[s.unseen.length]? = some (a, v) := by
    rw [hostMemWrite_incoherent v h hc]
    exact List.getElem?_concat_length
  rw [publish_mem hlast, hostMemWrite_incoherent v h hc]
  exact memRead_memWrite_same a v hm

/-- Settles O49: a load and a store in the register block, on a coherent platform and on another. -/
theorem hostBytes : Obligations.HostBytes := by
  unfold Obligations.HostBytes
  intro s a v
  refine ⟨fun h => ⟨hostMemRead_inBlock h, hostMemWrite_inBlock v h⟩, fun h hc => ⟨?_, fun a' ha => ?_, fun hm => ?_⟩,
    fun h hc => ⟨fun hs => ?_, hostMemRead_seen h, fun lo hi hl hh hu => ?_, ?_, memRead_published v h hc⟩⟩
  · exact hostMemRead_seen h (hostSees_coherent a hc)
  · rw [hostMemWrite_coherent v h hc]
    exact memRead_memWrite_ne s.mem v ha
  · refine ⟨?_, hostMemRead_after_write v h hc hm⟩
    rw [hostMemWrite_coherent v h hc]
    exact memRead_memWrite_same a v hm
  · exact ⟨_, hostMemRead_unseen h hs⟩
  · exact ⟨maintain lo hi s, rfl, rfl, hostMemRead_maintained h hl hh hu⟩
  · rw [hostMemWrite_incoherent v h hc]
    rfl

end Sys2Proof.Machine

/-! A whole operation: its acceptance, its accesses one after the other, its completion (45_control.md R120, R124,
R125). -/

namespace Sys2Proof.Machine

/-- The state after acceptance of the command word `w` (45_control.md R120). -/
def accepted (s : State) (w : Word) : State :=
  accept (familyOf (fieldFam w)) (fieldAvg w) (geometryOf (fieldSz w)) (fieldXph w) (fieldYph w) w s

/-- An idle engine accepts every prediction command of its build (45_control.md R119, R120). -/
theorem exec_accepted {i : Instr} {s : State} (hi : i ≠ .nop) (hw : wellFormed s.build.avgPresent i = true)
    (hb : s.status.busy = false) : exec i s = .next (accepted s (encode i)) := by
  obtain ⟨f, a, g, x, y, hp⟩ := predictParts_some hi
  have hexec : exec i s = issue f a g x y (encode i) s := by rw [exec_eq, hp]
  rw [wellFormed_parts _ hp] at hw
  obtain ⟨hbusy, -⟩ | ⟨-, ha, hno, -⟩ | ⟨-, -, h⟩ := issue_cases f a g x y (encode i) s
  · rw [hb] at hbusy
    cases hbusy
  · rw [ha, hno] at hw
    cases hw
  · obtain ⟨rfl, rfl, rfl, rfl, rfl⟩ := parts_fields hp
    exact hexec.trans h

/-- A freshly accepted operation has done no access. -/
theorem progress_accepted (s : State) (w : Word) : progress (accepted s w) 0 = accepted s w :=
  progress_zero (accepted s w) rfl rfl rfl rfl

theorem turns_of_quiet {s : State} (h : quiet s = true) : s.turns = [] := by
  rw [quiet, Bool.and_eq_true] at h
  exact List.isEmpty_iff.mp h.2

/-- With no turn listed and every access admitted, an operation that has done none of its accesses does them all and
completes (45_control.md R124, R125). -/
theorem run_completes {t : State} (hb : t.status.busy = true) (hq : t.turns = [])
    (hd : allAdmitted t.build t.latch = true) :
    Sys2Proof.core.run (accessCount t.build t.latch + 1) (progress t 0)
      = .next (completionStep (progress t (accessCount t.build t.latch))) := by
  rw [run_progress hb hq 1 (Nat.le_refl _) fun a ha => List.all_eq_true.mp hd a (List.mem_of_mem_take ha)]
  exact core_run_next 0 ((step_busy (s := progress t _) hq hb).trans (engineStep_complete hb rfl))

/-- Settles O23: acceptance, the run of all accesses, and the memory that the last of them leaves. -/
theorem operationCompletes : Obligations.OperationCompletes := by
  unfold Obligations.OperationCompletes
  intro i s hi hw hb hq hd
  have hrun := run_completes (t := accepted s (encode i)) rfl (turns_of_quiet hq) hd
  rw [progress_accepted] at hrun
  exact ⟨_, _, exec_accepted hi hw hb, hrun, memoryAfter_all s.build (latchOf s (encode i)) s.mem, rfl, rfl, rfl, rfl,
    rfl, rfl, rfl, rfl, rfl⟩

end Sys2Proof.Machine

/-! The filter datapath on integers: rounding, ranges, the identity phases, flat sources and the window an output pixel
reads (40_filter_datapath.md R84 to R99). -/

namespace Sys2Proof.Machine

/-! ### Rounding, averaging and the accumulator -/

/-- No bilinear tap is negative (10_state.md R43, R45). -/
theorem tap_bilin_nonneg (b : Build) (p : Phase) (k : Nat) : 0 ≤ tap b .bilin p k := by
  have hp := p.isLt
  rw [tap, bilinCoef]
  split
  · omega
  · split <;> omega

/-- A negative sum rounds to 0 or below, by floor and by truncation (40_filter_datapath.md R84). -/
theorem clamp8_round_negative {a : Int} (ha : a < 0) : clamp8 (round7 a) = 0 ∧ clamp8 ((a + 64).tdiv 128) = 0 := by
  have hfloor : round7 a ≤ 0 := by rw [round7_eq]; omega
  have htrunc : (a + 64).tdiv 128 ≤ 0 := by
    rw [Int.tdiv_eq_ediv]
    split
    · omega
    · rw [Int.sign_eq_one_of_pos (by decide)]; omega
  rw [clamp8, clamp8]
  omega

/-- Settles O29: `Round7` is floor division, and no term of a bilinear sum of pixels is negative. -/
theorem roundSeven : Obligations.RoundSeven := by
  unfold Obligations.RoundSeven
  refine ⟨fun a => ?_, by decide, by decide, by decide, by decide, fun a => clamp8_round_negative, fun b p src hsrc => ?_⟩
  · rw [round7_eq]
    omega
  · exact sumTo_nonneg fun k _ => Int.mul_nonneg (tap_bilin_nonneg b p k) (hsrc k)

/-- The average of two pixels is a pixel (40_filter_datapath.md R94). -/
theorem average_range {v d : Int} (hv : 0 ≤ v ∧ v ≤ 255) (hd : 0 ≤ d ∧ d ≤ 255) :
    0 ≤ average v d ∧ average v d ≤ 255 := by
  rw [average_eq]
  omega

/-- The average is half the sum, an exact half rounded up (40_filter_datapath.md R94). -/
theorem average_rounds (v d : Int) : v + d ≤ 2 * average v d ∧ 2 * average v d ≤ v + d + 1 := by
  rw [average_eq]
  omega

/-- Settles O32: averaging is floor division by 2. -/
theorem averagingStep : Obligations.AveragingStep := by
  unfold Obligations.AveragingStep
  refine ⟨fun v d hv hv' hd hd' => ?_, by decide, by decide, by decide, by decide⟩
  obtain ⟨h0, h1⟩ := average_range ⟨hv, hv'⟩ ⟨hd, hd'⟩
  exact ⟨h0, h1, average_rounds v d⟩

/-- Every tap fits 16 bits, two's complement (10_state.md R41 (a), R43). -/
theorem tap_range (b : Build) (fam : Family) (p : Phase) (k : Nat) :
    -(2 ^ 15) ≤ tap b fam p k ∧ tap b fam p k < 2 ^ 15 := by
  cases fam with
  | sixtap => exact ⟨BitVec.le_toInt _, BitVec.toInt_lt⟩
  | bilin =>
    have hp := p.isLt
    rw [tap, bilinCoef]
    split
    · omega
    · split <;> omega

theorem tapCount_le (b : Build) (fam : Family) : tapCount b fam ≤ 10 := by
  have hr := radius_le b.extend
  cases fam <;> rw [tapCount] <;> omega

theorem sumTo_const (n : Nat) (c : Int) : sumTo n (fun _ => c) = n * c := by
  induction n with
  | zero => simp [sumTo]
  | succ n ih => rw [sumTo, ih]; push_cast; ring

/-- A tap times a pixel is at most `2^15 * 255` in size. -/
theorem tap_mul_pixel_range (b : Build) (fam : Family) (p : Phase) (k : Nat) {v : Int} (h0 : 0 ≤ v) (h1 : v ≤ 255) :
    -(2 ^ 15 * 255) ≤ tap b fam p k * v ∧ tap b fam p k * v ≤ 2 ^ 15 * 255 := by
  obtain ⟨hlo, hhi⟩ := tap_range b fam p k
  constructor <;> nlinarith

/-- Settles O31: at most ten terms, each at most `2^15 * 255` in size. -/
theorem accumulatorFits : Obligations.AccumulatorFits := by
  unfold Obligations.AccumulatorFits
  intro b fam p src hsrc
  have hterm := fun k => tap_mul_pixel_range b fam p k (hsrc k).1 (hsrc k).2
  have hlo := sumTo_le (n := tapCount b fam) fun k _ => (hterm k).1
  have hhi := sumTo_le (n := tapCount b fam) fun k _ => (hterm k).2
  rw [sumTo_const] at hlo hhi
  have hn := tapCount_le b fam
  constructor <;> omega

/-! ### Ranges -/

/-- An output pixel of pixels is a pixel (40_filter_datapath.md R92, R93). -/
theorem predictPixel_range (b : Build) (fam : Family) (p q : Phase) {src : Int → Int → Int}
    (h : ∀ r c, 0 ≤ src r c ∧ src r c ≤ 255) (y x : Nat) :
    0 ≤ predictPixel b fam p q src y x ∧ predictPixel b fam p q src y x ≤ 255 :=
  vValue_range b fam q (hValue_range b fam p h) y x

/-- Settles O30: both passes give pixels, and a byte holds a pixel. -/
theorem valuesArePixels : Obligations.ValuesArePixels := by
  unfold Obligations.ValuesArePixels
  intro b fam p q src hsrc i j
  obtain ⟨h0, h1⟩ := hValue_range b fam p hsrc i j
  obtain ⟨h0', h1'⟩ := predictPixel_range b fam p q hsrc i j
  exact ⟨h0, h1, toByte_toNat h0 h1, h0', h1', toByte_toNat h0' h1'⟩

/-! ### The identity phases and flat sources -/

/-- At phase 0 a pass gives back the value under the centre tap (40_filter_datapath.md R96). -/
theorem stage_phase0 {b : Build} (hb : b.legal = true) (fam : Family) {f : Nat → Int}
    (h0 : 0 ≤ f (centre b fam)) (h1 : f (centre b fam) ≤ 255) :
    stage fam (sumTo (tapCount b fam) fun k => tap b fam 0 k * f k) = f (centre b fam) := by
  have hsum : sumTo (tapCount b fam) (fun k => tap b fam 0 k * f k)
      = tap b fam 0 (centre b fam) * f (centre b fam) :=
    sumTo_single (centre_lt b fam) fun k hk hne => by rw [tap_phase0 hb fam hk, if_neg hne, Int.zero_mul]
  rw [hsum, tap_phase0 hb fam (centre_lt b fam), if_pos rfl, stage_unity fam h0 h1]

/-- The horizontal pass at phase 0 gives the source back, from row `-c` on. -/
theorem hValue_phase0 {b : Build} (hb : b.legal = true) (fam : Family) {src : Int → Int → Int}
    (h : ∀ r c, 0 ≤ src r c ∧ src r c ≤ 255) (i j : Nat) :
    hValue b fam 0 src i j = src (i - centre b fam) j := by
  have hs := stage_phase0 hb fam (f := fun k => src (i - centre b fam) (j + k - centre b fam)) (h _ _).1 (h _ _).2
  rwa [Int.add_sub_cancel] at hs

/-- The vertical pass at phase 0 gives the intermediate row under the centre tap. -/
theorem vValue_phase0 {b : Build} (hb : b.legal = true) (fam : Family) {buf : Nat → Nat → Int}
    (h : ∀ i j, 0 ≤ buf i j ∧ buf i j ≤ 255) (y x : Nat) :
    vValue b fam 0 buf y x = buf (y + centre b fam) x :=
  stage_phase0 hb fam (f := fun k => buf (y + k) x) (h _ _).1 (h _ _).2

section Identity

variable {b : Build} (hb : b.legal = true) (fam : Family) {src : Int → Int → Int}
  (h : ∀ r c, 0 ≤ src r c ∧ src r c ≤ 255)
include hb h

/-- At phase `(p, 0)` the result is the horizontal pass alone. -/
theorem predictPixel_vphase0 (p : Phase) (y x : Nat) :
    predictPixel b fam p 0 src y x = hValue b fam p src (y + centre b fam) x :=
  vValue_phase0 hb fam (hValue_range b fam p h) y x

/-- At phase `(0, q)` the result is the vertical pass of the unfiltered rows. -/
theorem predictPixel_hphase0 (q : Phase) (y x : Nat) :
    predictPixel b fam 0 q src y x = vValue b fam q (fun i j => src ((i : Int) - centre b fam) j) y x :=
  vValue_congr fun _ _ => hValue_phase0 hb fam h _ _

/-- At phase `(0, 0)` the result is the source pixel. -/
theorem predictPixel_phase00 (y x : Nat) : predictPixel b fam 0 0 src y x = src y x := by
  rw [predictPixel_vphase0 hb fam h, hValue_phase0 hb fam h, Nat.cast_add, Int.add_sub_cancel]

end Identity

/-- The byte written holds the output value: the pixel, or its average with the destination byte
(40_filter_datapath.md R95, R98). -/
theorem outputOf_toNat (b : Build) (l : Latch) {src : Int → Int → Int} (h : ∀ r c, 0 ≤ src r c ∧ src r c ≤ 255)
    (p : Nat × Nat) (old : Byte) :
    ((outputOf b l src p old).toNat : Int) =
      if l.avg then average (predictPixel b l.fam l.xph l.yph src p.1 p.2) old.toNat
      else predictPixel b l.fam l.xph l.yph src p.1 p.2 := by
  have hpixel := predictPixel_range b l.fam l.xph l.yph h p.1 p.2
  obtain ⟨h0, h1⟩ := average_range hpixel (byte_range old)
  rw [outputOf]
  split
  · exact toByte_toNat h0 h1
  · exact toByte_toNat hpixel.1 hpixel.2

/-- Settles O33: phase 0 of either pass picks the value under the centre tap. -/
theorem identityPhases : Obligations.IdentityPhases := by
  unfold Obligations.IdentityPhases
  intro b fam src hb hsrc y x
  refine ⟨predictPixel_phase00 hb fam hsrc y x, fun p => predictPixel_vphase0 hb fam hsrc p y x,
    fun q => predictPixel_hphase0 hb fam hsrc q y x, fun l old hfam hx hy => ?_⟩
  rw [outputOf_toNat b l hsrc, hfam, hx, hy, predictPixel_phase00 hb fam hsrc y x]

/-- A pass over one value gives that value: the taps of a phase sum to 128 (40_filter_datapath.md R97). -/
theorem stage_flat {b : Build} (hb : b.legal = true) (fam : Family) (p : Phase) {v : Int} (h0 : 0 ≤ v) (h1 : v ≤ 255) :
    stage fam (sumTo (tapCount b fam) fun k => tap b fam p k * v) = v := by
  rw [sumTo_mul_right, tap_sum hb, stage_unity fam h0 h1]

/-- Settles O34: both passes give a flat source back. -/
theorem flatStaysFlat : Obligations.FlatStaysFlat := by
  unfold Obligations.FlatStaysFlat
  intro b fam p q v hb h0 h1 y x
  have hrow : ∀ i j, hValue b fam p (fun _ _ => v) i j = v := fun _ _ => stage_flat hb fam p h0 h1
  calc predictPixel b fam p q (fun _ _ => v) y x
      = vValue b fam q (fun _ _ => v) y x := vValue_congr fun k _ => hrow (y + k) x
    _ = v := stage_flat hb fam q h0 h1

/-! ### The window of an output pixel -/

/-- The output pixel at `(y, x)` reads source rows `y - c` to `y + T - 1 - c` and columns `x - c` to `x + T - 1 - c`
(40_filter_datapath.md R99). -/
theorem predictPixel_congr {b : Build} {fam : Family} {p q : Phase} {src src' : Int → Int → Int} {y x : Nat}
    (h : ∀ r col : Int,
      (y : Int) - centre b fam ≤ r → r ≤ (y : Int) + tapCount b fam - 1 - centre b fam →
      (x : Int) - centre b fam ≤ col → col ≤ (x : Int) + tapCount b fam - 1 - centre b fam →
      src r col = src' r col) :
    predictPixel b fam p q src y x = predictPixel b fam p q src' y x := by
  refine vValue_congr fun k hk => hValue_congr fun k' hk' => h _ _ ?_ ?_ ?_ ?_ <;> omega

/-- Settles O35: the two passes together read the window. -/
theorem windowLocality : Obligations.WindowLocality := by
  unfold Obligations.WindowLocality
  exact fun b fam p q src src' y x h => predictPixel_congr h

end Sys2Proof.Machine

/-! What an operation leaves at one address: the stores there, in order, from the source bytes that its footprint reads.
From it, what operations that keep out of each other's way leave one after the other, and a 16x16 operation as the
operations on its sub-blocks (40_filter_datapath.md R99). -/

namespace Sys2Proof.Machine

/-! ### The stores at one address -/

/-- The destination positions stored at an address, in the order of the stores. -/
def hits (l : Latch) (a : Word) : List (Nat × Nat) := (positions l).filter fun p => destAddr l p = a

theorem mem_hits {l : Latch} {a : Word} {p : Nat × Nat} : p ∈ hits l a ↔ p ∈ positions l ∧ destAddr l p = a := by
  rw [hits, List.mem_filter, decide_eq_true_eq]

theorem storePosition_wf (b : Build) (l : Latch) (src : Int → Int → Int) (p : Nat × Nat) {m : List Host.Cell}
    (hm : memoryWf m = true) : memoryWf (storePosition b l src m p) = true :=
  memWrite_wf _ _ hm

theorem storePositions_wf (b : Build) (l : Latch) (src : Int → Int → Int) (ps : List (Nat × Nat)) {m : List Host.Cell}
    (hm : memoryWf m = true) : memoryWf (ps.foldl (storePosition b l src) m) = true := by
  induction ps generalizing m with
  | nil => exact hm
  | cons p ps ih => exact ih (storePosition_wf b l src p hm)

theorem operationMemory_wf (b : Build) (l : Latch) {m : List Host.Cell} (hm : memoryWf m = true) :
    memoryWf (operationMemory b l m) = true :=
  storePositions_wf b l _ _ hm

/-- A byte after stores at a list of positions: only those at its address matter, each to the byte the one before it
left. -/
theorem memRead_storePositions (b : Build) (l : Latch) (src : Int → Int → Int) (ps : List (Nat × Nat))
    {m : List Host.Cell} (hm : memoryWf m = true) (a : Word) :
    memRead (ps.foldl (storePosition b l src) m) a
      = (ps.filter fun p => destAddr l p = a).foldl (fun v p => outputOf b l src p v) (memRead m a) := by
  induction ps generalizing m with
  | nil => rfl
  | cons p ps ih =>
    rw [List.foldl_cons, ih (storePosition_wf b l src p hm), storePosition]
    by_cases ha : destAddr l p = a
    · rw [List.filter_cons_of_pos (by simpa using ha), List.foldl_cons, ha, memRead_memWrite_same a _ hm]
    · rw [List.filter_cons_of_neg (by simpa using ha), memRead_memWrite_ne m _ (Ne.symm ha)]

theorem memRead_operationMemory (b : Build) (l : Latch) {m : List Host.Cell} (hm : memoryWf m = true) (a : Word) :
    memRead (operationMemory b l m) a
      = (hits l a).foldl (fun v p => outputOf b l (sourceByte m l) p v) (memRead m a) :=
  memRead_storePositions b l _ _ hm a

/-- An operation leaves every byte outside its destination as it was (20_memory.md R57). -/
theorem memRead_operationMemory_ne {b : Build} {l : Latch} {m : List Host.Cell} {a : Word} (hm : memoryWf m = true)
    (ha : ∀ p ∈ positions l, destAddr l p ≠ a) : memRead (operationMemory b l m) a = memRead m a := by
  have hnone : hits l a = [] := List.filter_eq_nil_iff.mpr fun p hp => by simpa using ha p hp
  rw [memRead_operationMemory b l hm, hnone, List.foldl_nil]

/-! ### Which bytes an operation reads -/

/-- The source window of a destination position lies in the footprint (20_memory.md R56). -/
theorem window_in_footprint {b : Build} {l : Latch} {p : Nat × Nat} (hp : p ∈ positions l) {r col : Int}
    (hr : (p.1 : Int) - centre b l.fam ≤ r) (hr' : r ≤ (p.1 : Int) + tapCount b l.fam - 1 - centre b l.fam)
    (hc : (p.2 : Int) - centre b l.fam ≤ col) (hc' : col ≤ (p.2 : Int) + tapCount b l.fam - 1 - centre b l.fam) :
    .readSrc r col ∈ phaseA b l := by
  obtain ⟨hy, hx⟩ := (mem_positions l p.1 p.2).mp hp
  refine (mem_phaseA b l _).mpr ⟨(r + centre b l.fam).toNat, (col + centre b l.fam).toNat, ?_, ?_, ?_⟩
  · rw [footRows]; omega
  · rw [footCols]; omega
  · rw [Access.readSrc.injEq]; omega

/-- An output byte depends on the source samples of the footprint only. -/
theorem outputOf_congr {b : Build} {l : Latch} {src src' : Int → Int → Int} {p : Nat × Nat} (hp : p ∈ positions l)
    (h : ∀ r col, .readSrc r col ∈ phaseA b l → src r col = src' r col) (old : Byte) :
    outputOf b l src p old = outputOf b l src' p old := by
  have hpixel : predictPixel b l.fam l.xph l.yph src p.1 p.2 = predictPixel b l.fam l.xph l.yph src' p.1 p.2 :=
    predictPixel_congr fun r col hr hr' hc hc' => h r col (window_in_footprint hp hr hr' hc hc')
  rw [outputOf, outputOf, hpixel]

/-- What an operation leaves at an address depends on the bytes of its footprint and the byte at that address only. -/
theorem memRead_operationMemory_congr {b : Build} {l : Latch} {m m' : List Host.Cell} {a : Word}
    (hm : memoryWf m = true) (hm' : memoryWf m' = true)
    (hfoot : ∀ acc ∈ phaseA b l, memRead m (accessAddr l acc) = memRead m' (accessAddr l acc))
    (hold : memRead m a = memRead m' a) :
    memRead (operationMemory b l m) a = memRead (operationMemory b l m') a := by
  rw [memRead_operationMemory b l hm, memRead_operationMemory b l hm', hold]
  refine List.foldl_ext _ _ _ fun old p hp => outputOf_congr (mem_hits.mp hp).1 (fun r col hmem => ?_) old
  exact congrArg (fun v : Byte => (v.toNat : Int)) (hfoot _ hmem)

/-! ### Operations one after the other -/

/-- No destination byte of the one operation lies in the footprint or the destination of the other. -/
def KeepsOutOf (b : Build) (one later : Latch) : Prop :=
  ∀ p ∈ positions one,
    (∀ a ∈ phaseA b later, destAddr one p ≠ accessAddr later a) ∧
    (∀ q ∈ positions later, destAddr one p ≠ destAddr later q)

/-- No address is a destination byte of both operations. -/
def StoresApart (one other : Latch) : Prop :=
  ∀ p ∈ positions one, ∀ q ∈ positions other, destAddr one p ≠ destAddr other q

theorem StoresApart.symm {one other : Latch} (h : StoresApart one other) : StoresApart other one :=
  fun q hq p hp => (h p hp q hq).symm

theorem KeepsOutOf.storesApart {b : Build} {one later : Latch} (h : KeepsOutOf b one later) : StoresApart one later :=
  fun p hp => (h p hp).2

/-- Pixel memory after several operations, one after the other. -/
def operationsMemory (b : Build) (ls : List Latch) (m : List Host.Cell) : List Host.Cell :=
  ls.foldl (fun m' l => operationMemory b l m') m

theorem memRead_operationsMemory_ne {b : Build} {ls : List Latch} {m : List Host.Cell} {a : Word}
    (hm : memoryWf m = true) (ha : ∀ l ∈ ls, ∀ p ∈ positions l, destAddr l p ≠ a) :
    memRead (operationsMemory b ls m) a = memRead m a := by
  induction ls generalizing m with
  | nil => rfl
  | cons l ls ih =>
    obtain ⟨hl, hls⟩ := List.forall_mem_cons.mp ha
    exact (ih (operationMemory_wf b l hm) hls).trans (memRead_operationMemory_ne hm hl)

/-- Operations that keep out of the later ones leave at each destination byte what its own operation alone leaves. -/
theorem memRead_operationsMemory {b : Build} {ls : List Latch} {m : List Host.Cell} (hm : memoryWf m = true)
    (hls : ls.Pairwise (KeepsOutOf b)) {l : Latch} (hl : l ∈ ls) {p : Nat × Nat} (hp : p ∈ positions l) :
    memRead (operationsMemory b ls m) (destAddr l p) = memRead (operationMemory b l m) (destAddr l p) := by
  induction ls generalizing m with
  | nil => cases hl
  | cons first rest ih =>
    obtain ⟨hfirst, hrest⟩ := List.pairwise_cons.mp hls
    have hwf := operationMemory_wf b first hm
    obtain rfl | hmem := List.mem_cons.mp hl
    · exact memRead_operationsMemory_ne hwf fun later hlater q hq => ((hfirst later hlater p hp).2 q hq).symm
    · refine (ih hwf hrest hmem).trans (memRead_operationMemory_congr hwf hm (fun acc hacc => ?_) ?_)
      · exact memRead_operationMemory_ne hm fun q hq => (hfirst l hmem q hq).1 acc hacc
      · exact memRead_operationMemory_ne hm fun q hq => (hfirst l hmem q hq).2 p hp

/-! ### Sub-blocks -/

/-- Addresses in a block whose base is an address of another with the same stride (20_memory.md R51). -/
theorem blockAddr_blockAddr (base : Word) (stride r c r' c' : Int) :
    blockAddr (blockAddr base stride r c) stride r' c' = blockAddr base stride (r + r') (c + c') := by
  have h : ((blockAddr (blockAddr base stride r c) stride r' c').toNat : Int)
      = (blockAddr base stride (r + r') (c + c')).toNat := by
    rw [blockAddr_toNat, blockAddr_toNat, blockAddr_toNat, Int.add_mul]
    omega
  exact BitVec.eq_of_toNat_eq (Int.ofNat.inj h)

/-- Position `p` of the sub-block at sub-block row `ij.1` and column `ij.2`, as a position of the whole block. -/
def placeAt (g : Geometry) (ij p : Nat × Nat) : Nat × Nat :=
  (ij.1 * blockHeight g + p.1, ij.2 * blockWidth g + p.2)

theorem destAddr_subBlock (l : Latch) (g : Geometry) (ij p : Nat × Nat) :
    destAddr (subBlock l g ij.1 ij.2) p = destAddr l (placeAt g ij p) := by
  rw [destAddr, destAddr, placeAt, Nat.cast_add, Nat.cast_add]
  exact blockAddr_blockAddr l.db (s32 l.ds) _ _ _ _

theorem sourceByte_subBlock (m : List Host.Cell) (l : Latch) (g : Geometry) (i j : Nat) (r c : Int) :
    sourceByte m (subBlock l g i j) r c
      = sourceByte m l ((i * blockHeight g : Nat) + r) ((j * blockWidth g : Nat) + c) :=
  congrArg (fun a => ((memRead m a).toNat : Int)) (blockAddr_blockAddr l.sb (s32 l.ss) _ _ r c)

/-- The horizontal pass commutes with moving the source. -/
theorem hValue_shift (b : Build) (fam : Family) (p : Phase) (src : Int → Int → Int) (r c i j : Nat) :
    hValue b fam p src (r + i) (c + j) = hValue b fam p (fun y x => src (r + y) (c + x)) i j := by
  rw [hValue, hValue]
  refine congrArg (stage fam) (sumTo_congr fun k _ => ?_)
  push_cast
  ring_nf

/-- So do both passes together. -/
theorem predictPixel_shift (b : Build) (fam : Family) (p q : Phase) (src : Int → Int → Int) (r c y x : Nat) :
    predictPixel b fam p q src (r + y) (c + x) = predictPixel b fam p q (fun y' x' => src (r + y') (c + x')) y x := by
  rw [predictPixel, predictPixel, vValue, vValue]
  refine congrArg (stage fam) (sumTo_congr fun k _ => ?_)
  rw [Nat.add_assoc, hValue_shift]

/-- A sub-block's output byte is the whole block's at the same place. -/
theorem outputOf_subBlock (b : Build) (l : Latch) (g : Geometry) (ij : Nat × Nat) (m : List Host.Cell) (p : Nat × Nat)
    (old : Byte) :
    outputOf b (subBlock l g ij.1 ij.2) (sourceByte m (subBlock l g ij.1 ij.2)) p old
      = outputOf b l (sourceByte m l) (placeAt g ij p) old := by
  have hsrc : sourceByte m (subBlock l g ij.1 ij.2)
      = fun r c => sourceByte m l ((ij.1 * blockHeight g : Nat) + r) ((ij.2 * blockWidth g : Nat) + c) :=
    funext fun r => funext fun c => sourceByte_subBlock m l g ij.1 ij.2 r c
  rw [outputOf, outputOf, placeAt, predictPixel_shift, hsrc]
  rfl

/-! ### The positions of a sub-block -/

/-- The numbers of an interval, among those below `n`. -/
theorem range_filter_interval {n lo len : Nat} (hn : lo + len ≤ n) :
    ((List.range n).filter fun k => lo ≤ k ∧ k < lo + len) = (List.range len).map (lo + ·) := by
  obtain ⟨rest, rfl⟩ := Nat.exists_eq_add_of_le hn
  have hbefore : ((List.range lo).filter fun k => lo ≤ k ∧ k < lo + len) = [] :=
    List.filter_eq_nil_iff.mpr fun k hk => by
      have hlt := List.mem_range.mp hk
      rw [decide_eq_true_eq]
      omega
  have hinside : ((List.range len).map (lo + ·)).filter (fun k => lo ≤ k ∧ k < lo + len)
      = (List.range len).map (lo + ·) :=
    List.filter_eq_self.mpr (by simp)
  have hafter : ((List.range rest).map (lo + len + ·)).filter (fun k => lo ≤ k ∧ k < lo + len) = [] :=
    List.filter_eq_nil_iff.mpr (by simp)
  rw [List.range_add, List.filter_append, hafter, List.append_nil, List.range_add, List.filter_append, hbefore, hinside,
    List.nil_append]

/-- The numbers of one run of length `h`, among runs of that length. -/
theorem range_filter_run {n h i : Nat} (hh : 0 < h) (hn : i * h + h ≤ n) :
    ((List.range n).filter fun k => k / h = i) = (List.range h).map (i * h + ·) := by
  rw [← range_filter_interval hn]
  refine List.filter_congr fun k _ => ?_
  rw [decide_eq_decide, Nat.div_eq_iff hh]
  omega

/-- Choosing rows and columns of a grid listed row by row. -/
theorem grid_filter (ys xs : List Nat) (f g : Nat → Bool) :
    (ys.flatMap fun y => xs.map fun x => (y, x)).filter (fun p => f p.1 && g p.2)
      = (ys.filter f).flatMap fun y => (xs.filter g).map fun x => (y, x) := by
  induction ys with
  | nil => rfl
  | cons y ys ih =>
    rw [List.flatMap_cons, List.filter_append, ih, List.filter_map, List.filter_cons]
    cases hy : f y <;> simp [hy, Function.comp_def]

/-- The sub-block of geometry `g` that a position of a block lies in, by row and column. -/
def blockOf (g : Geometry) (p : Nat × Nat) : Nat × Nat := (p.1 / blockHeight g, p.2 / blockWidth g)

/-- The sub-blocks of geometry `g` of a 16x16 block, by row and column. -/
def blockIndices (g : Geometry) : List (Nat × Nat) :=
  (List.range (16 / blockHeight g)).flatMap fun i => (List.range (16 / blockWidth g)).map fun j => (i, j)

theorem mem_blockIndices (g : Geometry) (ij : Nat × Nat) :
    ij ∈ blockIndices g ↔ ij.1 < 16 / blockHeight g ∧ ij.2 < 16 / blockWidth g := by
  simp [blockIndices, Prod.ext_iff]

theorem subBlocks_eq (l : Latch) (g : Geometry) :
    subBlocks l g = (blockIndices g).map fun ij => subBlock l g ij.1 ij.2 := by
  simp only [subBlocks, blockIndices, List.map_flatMap, List.map_map, Function.comp_def]

theorem blockHeight_pos (g : Geometry) : 0 < blockHeight g := by cases g <;> decide

theorem blockWidth_pos (g : Geometry) : 0 < blockWidth g := by cases g <;> decide

section Block

variable {l : Latch} (hl : l.geom = .g16x16) {g : Geometry}
include hl

/-- The positions of a 16x16 block in one sub-block are the sub-block's own, in its own order. -/
theorem positions_filter_block {ij : Nat × Nat} (hij : ij ∈ blockIndices g) :
    ((positions l).filter fun p => blockOf g p = ij) = (positions (subBlock l g ij.1 ij.2)).map (placeAt g ij) := by
  obtain ⟨hi, hj⟩ := (mem_blockIndices g ij).mp hij
  have hrows : ij.1 * blockHeight g + blockHeight g ≤ blockHeight .g16x16 := by
    rw [← Nat.succ_mul]
    exact Nat.mul_le_of_le_div _ _ _ hi
  have hcols : ij.2 * blockWidth g + blockWidth g ≤ blockWidth .g16x16 := by
    rw [← Nat.succ_mul]
    exact Nat.mul_le_of_le_div _ _ _ hj
  have hsplit : ∀ p : Nat × Nat, decide (blockOf g p = ij)
      = (decide (p.1 / blockHeight g = ij.1) && decide (p.2 / blockWidth g = ij.2)) := fun p => by
    simp only [blockOf, Prod.ext_iff, Bool.decide_and]
  simp only [hsplit]
  rw [positions, hl, grid_filter _ _ (fun y => y / blockHeight g = ij.1) fun x => x / blockWidth g = ij.2,
    range_filter_run (blockHeight_pos g) hrows, range_filter_run (blockWidth_pos g) hcols]
  simp only [positions, subBlock, List.flatMap_map, List.map_flatMap, List.map_map, Function.comp_def, placeAt]

/-- Every position of a 16x16 block lies in one of its sub-blocks. -/
theorem blockOf_mem {p : Nat × Nat} (hp : p ∈ positions l) : blockOf g p ∈ blockIndices g := by
  obtain ⟨hy, hx⟩ := (mem_positions l p.1 p.2).mp hp
  rw [hl] at hy hx
  rw [mem_blockIndices, blockOf]
  cases g <;> simp only [blockHeight, blockWidth] at * <;> omega

/-- A position of a 16x16 block is a position of its sub-block. -/
theorem exists_placeAt {p : Nat × Nat} (hp : p ∈ positions l) :
    ∃ q ∈ positions (subBlock l g (blockOf g p).1 (blockOf g p).2), placeAt g (blockOf g p) q = p := by
  have hmem : p ∈ (positions l).filter fun q => blockOf g q = blockOf g p := by
    rw [List.mem_filter]
    exact ⟨hp, decide_eq_true rfl⟩
  rw [positions_filter_block hl (blockOf_mem hl hp)] at hmem
  exact List.mem_map.mp hmem

/-- A position of a sub-block is a position of the 16x16 block. -/
theorem placeAt_mem {ij : Nat × Nat} (hij : ij ∈ blockIndices g) {q : Nat × Nat}
    (hq : q ∈ positions (subBlock l g ij.1 ij.2)) : placeAt g ij q ∈ positions l := by
  have hplaced := List.mem_map_of_mem (f := placeAt g ij) hq
  rw [← positions_filter_block hl hij] at hplaced
  exact List.mem_of_mem_filter hplaced

/-- When every store at an address is in one sub-block, that sub-block's stores there are the whole block's. -/
theorem hits_subBlock {ij : Nat × Nat} (hij : ij ∈ blockIndices g) {a : Word} (h : ∀ p ∈ hits l a, blockOf g p = ij) :
    hits l a = (hits (subBlock l g ij.1 ij.2) a).map (placeAt g ij) := by
  calc hits l a
      = (hits l a).filter fun p => blockOf g p = ij :=
        (List.filter_eq_self.mpr fun p hp => decide_eq_true (h p hp)).symm
    _ = ((positions l).filter fun p => blockOf g p = ij).filter fun p => destAddr l p = a := List.filter_comm ..
    _ = ((positions (subBlock l g ij.1 ij.2)).map (placeAt g ij)).filter fun p => destAddr l p = a := by
        rw [positions_filter_block hl hij]
    _ = (hits (subBlock l g ij.1 ij.2) a).map (placeAt g ij) := by
        rw [List.filter_map, hits]
        simp only [Function.comp_def, destAddr_subBlock]

/-- When every store at an address is in one sub-block, that sub-block's operation leaves there what the whole block's
does. -/
theorem memRead_subBlock (b : Build) {m : List Host.Cell} (hm : memoryWf m = true) {ij : Nat × Nat}
    (hij : ij ∈ blockIndices g) {a : Word} (h : ∀ p ∈ hits l a, blockOf g p = ij) :
    memRead (operationMemory b l m) a = memRead (operationMemory b (subBlock l g ij.1 ij.2) m) a := by
  rw [memRead_operationMemory b l hm, memRead_operationMemory b _ hm, hits_subBlock hl hij h, List.foldl_map]
  simp only [outputOf_subBlock]

/-- When the sub-blocks keep out of the later ones, positions stored at one address are in one sub-block. -/
theorem blockOf_eq_of_destAddr_eq {b : Build} (hpw : (subBlocks l g).Pairwise (KeepsOutOf b)) {p q : Nat × Nat}
    (hp : p ∈ positions l) (hq : q ∈ positions l) (h : destAddr l p = destAddr l q) : blockOf g p = blockOf g q := by
  by_contra hne
  rw [subBlocks_eq, List.pairwise_map] at hpw
  have hsymm : Std.Symm fun ij ij' : Nat × Nat => StoresApart (subBlock l g ij.1 ij.2) (subBlock l g ij'.1 ij'.2) :=
    ⟨fun _ _ h => h.symm⟩
  have hapart : StoresApart (subBlock l g (blockOf g p).1 (blockOf g p).2)
      (subBlock l g (blockOf g q).1 (blockOf g q).2) :=
    (hpw.imp KeepsOutOf.storesApart).forall (blockOf_mem hl hp) (blockOf_mem hl hq) hne
  obtain ⟨p', hp', hpp⟩ := exists_placeAt hl (g := g) hp
  obtain ⟨q', hq', hqq⟩ := exists_placeAt hl (g := g) hq
  refine hapart p' hp' q' hq' ?_
  rw [destAddr_subBlock, destAddr_subBlock, hpp, hqq, h]

/-- Sub-blocks that keep out of the later ones leave, one after the other, what the whole block leaves at each of its
destination bytes: the stores there are all in one sub-block. -/
theorem memRead_subBlocks {b : Build} {m : List Host.Cell} (hm : memoryWf m = true)
    (hpw : (subBlocks l g).Pairwise (KeepsOutOf b)) {p : Nat × Nat} (hp : p ∈ positions l) :
    memRead (operationsMemory b (subBlocks l g) m) (destAddr l p) = memRead (operationMemory b l m) (destAddr l p) := by
  have hij := blockOf_mem hl (g := g) hp
  have hmem : subBlock l g (blockOf g p).1 (blockOf g p).2 ∈ subBlocks l g := by
    rw [subBlocks_eq]
    exact List.mem_map_of_mem (f := fun ij : Nat × Nat => subBlock l g ij.1 ij.2) hij
  obtain ⟨q, hq, hqp⟩ := exists_placeAt hl (g := g) hp
  have hrun := memRead_operationsMemory hm hpw hmem hq
  rw [destAddr_subBlock, hqp] at hrun
  refine hrun.trans (memRead_subBlock hl b hm hij fun p' hp' => ?_).symm
  obtain ⟨hp', hd⟩ := mem_hits.mp hp'
  exact blockOf_eq_of_destAddr_eq hl hpw hp' hp hd

/-- Sub-blocks leave every byte outside the whole block's destination as it was. -/
theorem memRead_subBlocks_ne {b : Build} {m : List Host.Cell} {a : Word} (hm : memoryWf m = true)
    (ha : ∀ p ∈ positions l, destAddr l p ≠ a) : memRead (operationsMemory b (subBlocks l g) m) a = memRead m a := by
  refine memRead_operationsMemory_ne hm fun l' hl' q hq => ?_
  rw [subBlocks_eq] at hl'
  obtain ⟨ij, hij, rfl⟩ := List.mem_map.mp hl'
  rw [destAddr_subBlock]
  exact ha _ (placeAt_mem hl hij hq)

end Block

/-- Settles O28: a byte the whole block stores at is left alike by its sub-blocks, and every other byte is left alone by
both. -/
theorem subBlockDecomposition : Obligations.SubBlockDecomposition := by
  unfold Obligations.SubBlockDecomposition
  intro b l g m hm hl hpw a
  by_cases ha : ∃ p ∈ positions l, destAddr l p = a
  · obtain ⟨p, hp, rfl⟩ := ha
    exact (memRead_subBlocks hl hm hpw hp).symm
  · push Not at ha
    exact (memRead_operationMemory_ne hm ha).trans (memRead_subBlocks_ne hl hm ha).symm

end Sys2Proof.Machine

/-! A command's own step: turned away, accepted or `nop`, as a meaning and as a write of `CMD` (45_control.md R119 to
R123). -/

namespace Sys2Proof.Machine

/-! ### The meaning of a command -/

/-- A prediction command is turned away while an operation runs (45_control.md R123). -/
theorem exec_busy {i : Instr} {s : State} (hi : i ≠ .nop) (hb : s.status.busy = true) :
    exec i s = .next (raise .commandWhileBusy s) := by
  obtain ⟨f, a, g, x, y, hp⟩ := predictParts_some hi
  rw [exec_eq, hp]
  exact if_pos hb

/-- An idle engine turns away a command that its build does not have (41_sixtap.md R105, 42_bilinear.md R112). -/
theorem exec_absent {i : Instr} {s : State} (hi : i ≠ .nop) (hb : s.status.busy = false)
    (hw : wellFormed s.build.avgPresent i = false) : exec i s = .next (raise .illegalCommand s) := by
  obtain ⟨f, a, g, x, y, hp⟩ := predictParts_some hi
  have hexec : exec i s = issue f a g x y (encode i) s := by rw [exec_eq, hp]
  have habsent : (a && !s.build.avgPresent) = true := by
    rw [wellFormed_parts _ hp] at hw
    simpa using hw
  rw [hexec, issue, hb, habsent]
  rfl

/-- Everything a command's own step can do (45_control.md R119). -/
theorem exec_cases (i : Instr) (s : State) :
    exec i s = .next s ∨
    (s.status.busy = true ∧ exec i s = .next (raise .commandWhileBusy s)) ∨
    (s.status.busy = false ∧ exec i s = .next (raise .illegalCommand s)) ∨
    (s.status.busy = false ∧ exec i s = .next (accepted s (encode i))) := by
  by_cases hi : i = .nop
  · subst hi
    exact .inl rfl
  cases hb : s.status.busy with
  | true => exact .inr (.inl ⟨rfl, exec_busy hi hb⟩)
  | false =>
    cases hw : wellFormed s.build.avgPresent i with
    | false => exact .inr (.inr (.inl ⟨rfl, exec_absent hi hb hw⟩))
    | true => exact .inr (.inr (.inr ⟨rfl, exec_accepted hi hw hb⟩))

/-- Settles O10: the accepted state, written out. -/
theorem predictAccepted : Obligations.PredictAccepted := by
  unfold Obligations.PredictAccepted
  exact fun i s => exec_accepted

/-- Settles O12: the two ways in which a command is turned away. -/
theorem commandTurnedAway : Obligations.CommandTurnedAway := by
  unfold Obligations.CommandTurnedAway
  exact fun i s hi => ⟨exec_busy hi, exec_absent hi⟩

/-- Settles O13: none of the four things that a command's step can do touches more than the frame allows. -/
theorem commandFrame : Obligations.CommandFrame := by
  unfold Obligations.CommandFrame
  intro i s t h
  obtain he | ⟨-, he⟩ | ⟨hidle, he⟩ | ⟨hidle, he⟩ := exec_cases i s <;>
    rw [he] at h <;> cases h <;>
    refine ⟨rfl, rfl, rfl, rfl, rfl, rfl, rfl, rfl, rfl, rfl, rfl, rfl, rfl, fun _ => rfl, fun hb => ?_⟩
  · exact ⟨rfl, rfl, rfl, rfl, hb, rfl⟩
  · exact ⟨rfl, rfl, rfl, rfl, hb, rfl⟩
  · simp [hidle] at hb
  · simp [hidle] at hb

/-- Settles O11: the meaning of `nop` is its argument. -/
theorem nopChangesNothing : Obligations.NopChangesNothing := by
  unfold Obligations.NopChangesNothing
  exact fun s => rfl

/-! ### A write of `CMD` -/

theorem writeCmd_legal {v : Word} {s : State} {i : Instr} (h : decodeWord s.build.avgPresent v = .legal i) :
    writeCmd v s = exec i s := by
  rw [writeCmd, h]

theorem writeCmd_zero (s : State) : writeCmd 0 s = .next s := rfl

/-- Busy comes before legality: any word but 0 is turned away while an operation runs (60_exceptions.md R141). -/
theorem writeCmd_busy {v : Word} {s : State} (hv : v ≠ 0) (hb : s.status.busy = true) :
    writeCmd v s = .next (raise .commandWhileBusy s) := by
  unfold writeCmd
  cases hd : decodeWord s.build.avgPresent v with
  | illegal why => exact congrArg Host.Outcome.next (if_pos hb)
  | legal i => exact exec_busy (fun hn => hv (decode_nop (hn ▸ hd))) hb

/-- An idle engine turns away a word that is neither 0 nor a prediction command of its build (45_control.md R122). -/
theorem writeCmd_illegal {v : Word} {s : State} (hv : v ≠ 0) (hb : s.status.busy = false)
    (hp : isPredict s.build.avgPresent v = false) : writeCmd v s = .next (raise .illegalCommand s) := by
  unfold writeCmd
  cases hd : decodeWord s.build.avgPresent v with
  | illegal why => exact congrArg Host.Outcome.next (issueIllegal_idle hb)
  | legal i =>
    have hpred : isPredict s.build.avgPresent v = true :=
      (isPredict_iff _ v).mpr ⟨i, fun hn => hv (decode_nop (hn ▸ hd)), hd⟩
    simp [hp] at hpred

/-- An idle engine accepts a prediction command's word (45_control.md R120). -/
theorem writeCmd_predict {v : Word} {s : State} (hb : s.status.busy = false)
    (hp : isPredict s.build.avgPresent v = true) : writeCmd v s = .next (accepted s v) := by
  obtain ⟨i, hi, hd⟩ := (isPredict_iff _ v).mp hp
  rw [writeCmd_legal hd, exec_accepted hi (wellFormed_of_decodeWord hd) hb, encode_of_decodeWord hd]

/-- Settles O9: the four outcomes of a write of `CMD`, in the order of the checks. -/
theorem commandWriteOrder : Obligations.CommandWriteOrder := by
  unfold Obligations.CommandWriteOrder
  intro s v
  have hcmd : hostWrite 0x010 32 v s = writeCmd v (respond .written s) := rfl
  rw [hcmd]
  by_cases hv : v = 0
  · rw [if_pos hv, hv]
    exact writeCmd_zero _
  rw [if_neg hv]
  by_cases hb : s.status.busy = true
  · rw [if_pos hb]
    exact writeCmd_busy hv hb
  rw [if_neg hb]
  rw [Bool.not_eq_true] at hb
  by_cases hp : isPredict s.build.avgPresent v = false
  · rw [if_pos hp]
    exact writeCmd_illegal (s := respond .written s) hv hb hp
  rw [if_neg hp]
  rw [Bool.not_eq_false] at hp
  exact writeCmd_predict (s := respond .written s) hb hp

end Sys2Proof.Machine

/-! The host's turn and its register accesses (45_control.md R114 to R118, R127). -/

namespace Sys2Proof.Machine

/-! ### Whose turn it is -/

theorem step_listed {s : State} {tn : Turn} {rest : List Turn} (h : s.turns = tn :: rest) :
    step s = takeTurn tn { s with turns := rest } := by
  rw [step, advance, h]

/-- With no turn listed, the host moves while the engine is idle. -/
theorem step_idle {s : State} (h : s.turns = []) (hb : s.status.busy = false) : step s = hostTurn s := by
  rw [step, advance, h, hb]
  rfl

theorem hostTurn_cons {s : State} {h : HostStep} {rest : List HostStep} (hs : s.host = h :: rest) :
    hostTurn s = hostStep h { s with host := rest } := by
  rw [hostTurn, hs]

/-- Settles O8: the host's turn takes its next step, and a write at 0x010 is a write of `CMD`. -/
theorem stepRunsCommand : Obligations.StepRunsCommand := by
  unfold Obligations.StepRunsCommand
  intro s off width v rest turns hturn hhost
  have hstep : step s = hostTurn { s with turns := turns } := by
    obtain hlisted | ⟨hnone, rfl, hb⟩ := hturn
    · exact step_listed hlisted
    · rw [step_idle hnone hb, ← hnone]
  have hwrite : step s = hostWrite off width v { s with turns := turns, host := rest } :=
    hstep.trans (hostTurn_cons (s := { s with turns := turns }) hhost)
  refine ⟨hwrite, ?_⟩
  rintro i rfl rfl hd
  exact hwrite.trans (writeCmd_legal (s := respond .written { s with turns := turns, host := rest }) hd)

/-! ### Reads -/

/-- A read does not depend on what is outside the engine. -/
theorem hostRead_outside (off : BitVec 12) (width : Nat) (s : State) (r : Option Response) (h : List HostStep)
    (tn : List Turn) (un : List (Word × Byte)) (fc : Nat) :
    hostRead off width (s.outside r h tn un fc) = hostRead off width s := by
  have hreg : readReg (s.outside r h tn un fc) (regAt off) = readReg s (regAt off) := by
    cases regAt off <;> rfl
  rw [hostRead, hostRead, hreg]

/-- Settles O37: a read's answer goes to `response` and the rest of the state stays. -/
theorem readChangesNothing : Obligations.ReadChangesNothing := by
  unfold Obligations.ReadChangesNothing
  intro s off width rest turns hturns hhost
  calc step s
    _ = hostTurn { s with turns := turns } := step_listed hturns
    _ = hostStep (.rd off width) (s.outside s.response rest turns s.unseen s.freeCount) := hostTurn_cons hhost
    _ = .next (respond (hostRead off width s) { s with turns := turns, host := rest }) := by
      rw [hostStep, hostRead_outside]
      rfl

/-! ### Writes -/

/-- An aligned write is a write of the register that the offset names (45_control.md R115). -/
theorem hostWrite_aligned {off : BitVec 12} {r : Reg} (h : off.toNat % 4 = 0) (hr : regAt off = r) (v : Word)
    (s : State) : hostWrite off 32 v s = writeReg r v (respond .written s) := by
  rw [hostWrite, badAccess_aligned h, hr]
  rfl

/-- Settles O42: such an offset names no register that takes a write. -/
theorem ignoredWrites : Obligations.IgnoredWrites := by
  unfold Obligations.IgnoredWrites
  intro s off v halign hoff
  rw [hostWrite_aligned halign rfl, writeReg_readOnly hoff]
  rfl

/-- Settles O44: the two bits of `v` are the two enables, which a read and IRQ show. -/
theorem ctrlWrite : Obligations.CtrlWrite := by
  unfold Obligations.CtrlWrite
  intro s v
  refine ⟨Ctrl.ofWord v, hostWrite_aligned rfl rfl v s, ?_, rfl⟩
  rw [hostRead_aligned rfl rfl]
  exact congrArg Response.data (ctrl_word_ofWord v)

/-- The bits of `STATUS` that a write of `v` clears (45_control.md R117). -/
def clearMask (v : Word) : Word :=
  (if v.getLsbD 1 then 0x00000002#32 else 0) ||| (if v.getLsbD 2 then 0x000000F4#32 else 0)

theorem status_word_cleared (st : Status) (v : Word) : (st.cleared v).word = st.word &&& ~~~clearMask v := by
  obtain ⟨busy, done, err, errCode⟩ := st
  simp only [Status.cleared, clearMask]
  generalize v.getLsbD 1 = clearDone, v.getLsbD 2 = clearErr
  revert busy done err errCode clearDone clearErr
  decide

/-- Settles O45: the write clears the bits of its mask. -/
theorem statusWrite : Obligations.StatusWrite := by
  unfold Obligations.StatusWrite
  exact fun s v => ⟨s.status.cleared v, hostWrite_aligned rfl rfl v s, status_word_cleared s.status v⟩

/-- Settles O46: each offset names its operand register. -/
theorem operandWrite : Obligations.OperandWrite := by
  unfold Obligations.OperandWrite
  exact fun s v => ⟨hostWrite_aligned rfl rfl v s, hostWrite_aligned rfl rfl v s, hostWrite_aligned rfl rfl v s,
    hostWrite_aligned rfl rfl v s⟩

end Sys2Proof.Machine

/-! The engine's step: what it writes, what it leaves, that a legal state has one, and that a running operation ends
(45_control.md R124, R125). -/

namespace Sys2Proof.Machine

/-! ### What the step writes -/

/-- Settles O18: the access is performed; a footprint read may fill `I` besides. -/
theorem admittedAccess : Obligations.AdmittedAccess := by
  unfold Obligations.AdmittedAccess
  intro s a hb ha hd
  rw [engineStep_admitted hb ha hd]
  cases a with
  | readSrc r c =>
    refine congrArg Host.Outcome.next ?_
    refine State.ext rfl rfl rfl rfl rfl rfl rfl rfl rfl rfl ?_ rfl rfl rfl rfl rfl rfl rfl rfl
    exact performAccess_readSrc_inter r c s
  | readDst y x => rfl
  | writeDst y x => rfl

/-- Settles O20: completion, and the line as a function of `CTRL` and the new `STATUS`. -/
theorem completion : Obligations.Completion := by
  unfold Obligations.Completion
  intro s hb hk
  refine ⟨engineStep_complete hb hk, fun hie => ?_⟩
  simp [irq, hie]

/-- What the engine's step leaves: the build, the host's registers, what is outside the engine, and the latch but `L.K`. -/
structure EngineKeeps (s t : State) : Prop where
  build : t.build = s.build
  ctrl : t.ctrl = s.ctrl
  srcBase : t.srcBase = s.srcBase
  srcStride : t.srcStride = s.srcStride
  dstBase : t.dstBase = s.dstBase
  dstStride : t.dstStride = s.dstStride
  unseen : t.unseen = s.unseen
  response : t.response = s.response
  host : t.host = s.host
  turns : t.turns = s.turns
  freeCount : t.freeCount = s.freeCount
  latch : { t.latch with k := s.latch.k } = s.latch

theorem performAccess_keeps (a : Access) (s : State) : EngineKeeps s (performAccess a s) := by
  cases a <;> constructor <;> rfl

theorem engineStep_keeps {s t : State} (h : engineStep s = .next t) : EngineKeeps s t := by
  obtain ⟨-, he⟩ | ⟨-, a, -, -, he⟩ | ⟨-, a, -, -, he⟩ | ⟨-, -, -, he⟩ | ⟨-, -, -, he⟩ := engineStep_cases s <;>
    rw [he] at h <;> cases h
  · constructor <;> rfl
  · exact performAccess_keeps a s
  · constructor <;> rfl
  · constructor <;> rfl

/-- Only a write access writes pixel memory and the host's view. -/
theorem engineStep_stores {s t : State} (h : engineStep s = .next t) :
    (t.mem = s.mem ∧ t.view = s.view) ∨
    ∃ y x, (accessSequence s.build s.latch)[s.latch.k]? = some (.writeDst y x) ∧ t = performAccess (.writeDst y x) s := by
  obtain ⟨-, he⟩ | ⟨-, a, ha, -, he⟩ | ⟨-, a, -, -, he⟩ | ⟨-, -, -, he⟩ | ⟨-, -, -, he⟩ := engineStep_cases s <;>
    rw [he] at h <;> cases h
  · exact .inl ⟨rfl, rfl⟩
  · cases a with
    | readSrc r c => exact .inl ⟨rfl, rfl⟩
    | readDst y x => exact .inl ⟨rfl, rfl⟩
    | writeDst y x => exact .inr ⟨y, x, ha, rfl⟩
  · exact .inl ⟨rfl, rfl⟩
  · exact .inl ⟨rfl, rfl⟩

theorem hostSees_congr {s t : State} (hb : t.build = s.build) (hu : t.unseen = s.unseen) (hv : t.view = s.view)
    (a : Word) : hostSees t a = hostSees s a := by
  rw [hostSees, hostSees, hb, hu, hv]

/-- A byte that the engine's step does not store reads as before, and shows to the host as before. -/
theorem engineStep_byte_ne {s t : State} (h : engineStep s = .next t) {a : Word}
    (ha : ∀ y x, (accessSequence s.build s.latch)[s.latch.k]? = some (.writeDst y x) →
      a ≠ accessAddr s.latch (.writeDst y x)) :
    memRead t.mem a = memRead s.mem a ∧ hostSees t a = hostSees s a := by
  obtain ⟨hmem, hview⟩ | ⟨y, x, haccess, rfl⟩ := engineStep_stores h
  · have hkeeps := engineStep_keeps h
    exact ⟨by rw [hmem], hostSees_congr hkeeps.build hkeeps.unseen hview a⟩
  · have hne := ha y x haccess
    exact ⟨memRead_memWrite_ne s.mem (outputByte s y x) hne, hostSees_storeOutput_ne s (outputByte s y x) hne⟩

/-- The byte that an output write stores shows to the host at once only on a coherent platform (20_memory.md R66). -/
theorem hostSees_storeOutput (s : State) (a : Word) (v : Byte) :
    hostSees (storeOutput a v s) a = s.build.hostCoherent := by
  cases hc : s.build.hostCoherent
  · exact hostSees_storeOutput_same a v hc
  · exact hostSees_coherent (s := storeOutput a v s) a hc

/-- Settles O21: the step's frame field by field, the bytes it does not store, and the byte it stores. -/
theorem engineStepFrame : Obligations.EngineStepFrame := by
  unfold Obligations.EngineStepFrame
  intro s t h
  have hk := engineStep_keeps h
  refine ⟨hk.build, hk.ctrl, hk.srcBase, hk.srcStride, hk.dstBase, hk.dstStride, hk.unseen, hk.response, hk.host,
    hk.turns, hk.freeCount, hk.latch, fun a => engineStep_byte_ne h,
    fun hnone => ?_, fun y x hb ha hd => ?_⟩
  · obtain ⟨-, hview⟩ | ⟨y, x, ha, -⟩ := engineStep_stores h
    · exact hview
    · exact absurd ha (hnone y x)
  · rw [engineStep_admitted hb ha hd] at h
    cases h
    exact ⟨memRead_memWrite_same _ _, hostSees_storeOutput s _ (outputByte s y x)⟩

/-! ### The step is there -/

/-- With the progress index in range the engine has a step (45_control.md R124, R125). -/
theorem engineStep_answers {s : State} (h : progressLegal s = true) : ∃ t, engineStep s = .next t := by
  obtain ⟨-, he⟩ | ⟨-, a, -, -, he⟩ | ⟨-, a, -, -, he⟩ | ⟨-, -, -, he⟩ | ⟨hb, hnone, hk, -⟩ := engineStep_cases s
  · exact ⟨_, he⟩
  · exact ⟨_, he⟩
  · exact ⟨_, he⟩
  · exact ⟨_, he⟩
  · have hle := ((progressLegal_iff s).mp h hb).1
    rw [List.getElem?_eq_none_iff, accessSequence_length] at hnone
    exact absurd (Nat.le_antisymm hle hnone) hk

theorem takeTurn_answers {s : State} (h : progressLegal s = true) (tn : Turn) : ∃ t, takeTurn tn s = .next t := by
  cases tn with
  | host => exact hostTurn_total s
  | engine => exact engineStep_answers h
  | reset => exact ⟨_, rfl⟩
  | publish n => exact ⟨_, rfl⟩
  | maintain lo hi => exact ⟨_, rfl⟩

/-- Settles O55: every agent's turn answers, and only the engine's needs the invariant. -/
theorem legalStatesStep : Obligations.LegalStatesStep := by
  unfold Obligations.LegalStatesStep
  intro s h
  obtain ⟨-, -, -, -, hp⟩ := (machineLegal_iff s).mp h
  cases hturns : s.turns with
  | cons tn rest =>
    rw [step_listed hturns]
    exact takeTurn_answers (s := { s with turns := rest }) hp tn
  | nil =>
    cases hb : s.status.busy with
    | true =>
      rw [step_busy hturns hb]
      exact engineStep_answers hp
    | false =>
      rw [step_idle hturns hb]
      exact hostTurn_total s

/-! ### The operation ends -/

/-- An access leaves the number of accesses of its operation. -/
theorem performAccess_accessCount (a : Access) (s : State) :
    accessCount (performAccess a s).build (performAccess a s).latch = accessCount s.build s.latch := by
  rw [performAccess_build, performAccess_latch]
  rfl

/-- With no turn listed and `d` accesses to go, an operation ends within `d + 1` steps: by a refused access, or by
completion after the last. -/
theorem run_ends {s : State} {d : Nat} (hb : s.status.busy = true) (hq : s.turns = [])
    (hd : s.latch.k + d = accessCount s.build s.latch) :
    ∃ n u, n ≤ d + 1 ∧ Sys2Proof.core.run n s = .next u ∧ u.status.busy = false ∧ u.status.done = true := by
  induction d generalizing s with
  | zero =>
    have hstep := (step_busy hq hb).trans (engineStep_complete hb hd)
    exact ⟨1, _, Nat.le_refl 1, core_run_next 0 hstep, rfl, rfl⟩
  | succ d ih =>
    have hlt : s.latch.k < (accessSequence s.build s.latch).length := by
      rw [accessSequence_length]
      omega
    have ha := List.getElem?_eq_getElem hlt
    generalize (accessSequence s.build s.latch)[s.latch.k] = a at ha
    cases hadm : admitted s.build (accessAddr s.latch a) (accessKind a) with
    | false =>
      have hstep := (step_busy hq hb).trans (engineStep_refused hb ha hadm)
      exact ⟨1, _, by omega, core_run_next 0 hstep, rfl, rfl⟩
    | true =>
      have hb' : (performAccess a s).status.busy = true := by rwa [performAccess_status]
      have hq' : (performAccess a s).turns = [] := (performAccess_keeps a s).turns.trans hq
      have hd' : (performAccess a s).latch.k + d = accessCount (performAccess a s).build (performAccess a s).latch := by
        rw [performAccess_accessCount, performAccess_latch]
        exact (Nat.succ_add_eq_add_succ _ d).trans hd
      obtain ⟨n, u, hn, hrun, hidle, hdone⟩ := ih hb' hq' hd'
      have hnext := core_run_next n ((step_busy hq hb).trans (engineStep_admitted hb ha hadm))
      exact ⟨n + 1, u, by omega, hnext.trans hrun, hidle, hdone⟩

/-- Settles O26: each step is one access nearer to the end. -/
theorem operationEnds : Obligations.OperationEnds := by
  unfold Obligations.OperationEnds
  exact fun s hb hq hk => run_ends hb (turns_of_quiet hq) (Nat.add_sub_cancel' hk)

end Sys2Proof.Machine

/-! What an operation leaves in memory when its destination addresses are distinct (45_control.md R131). -/

namespace Sys2Proof.Machine

/-- With distinct destination addresses, each is stored at once. -/
theorem hits_destAddr {l : Latch} (h : ∀ p ∈ positions l, ∀ q ∈ positions l, destAddr l p = destAddr l q → p = q)
    {p : Nat × Nat} (hp : p ∈ positions l) : hits l (destAddr l p) = [p] := by
  have hmem : ∀ q, q ∈ hits l (destAddr l p) ↔ q ∈ [p] := by
    intro q
    rw [mem_hits, List.mem_singleton]
    constructor
    · exact fun ⟨hq, heq⟩ => h q hq p hp heq
    · rintro rfl
      exact ⟨hp, rfl⟩
  exact List.perm_singleton.mp
    ((List.perm_ext_iff_of_nodup ((positions_nodup l).filter _) (List.nodup_singleton p)).mpr hmem)

/-- Settles O27: one store at each destination address, and none elsewhere. -/
theorem destinationBytes : Obligations.DestinationBytes := by
  unfold Obligations.DestinationBytes
  intro b l m hm hdistinct
  refine ⟨fun p hp => ?_, fun a ha => memRead_operationMemory_ne hm fun p hp => (ha p hp).symm⟩
  rw [memRead_operationMemory b l hm, hits_destAddr hdistinct hp, List.foldl_cons, List.foldl_nil]

end Sys2Proof.Machine

/-! Exceptions: a refused access and the operation that it ends, register accesses of a bad form, and the interrupt line
(60_exceptions.md R135, R137, R139, R140, R144). -/

namespace Sys2Proof.Machine

/-! ### Bus errors -/

/-- Settles O19: the recorded code, then the end of the operation, leave one `STATUS` whatever it was before. -/
theorem refusedAccess : Obligations.RefusedAccess := by
  unfold Obligations.RefusedAccess
  exact fun s a hb ha hd => engineStep_refused hb ha hd

/-- With no turn listed and access number `n` the first that is not admitted, an operation that has done none of its
accesses does those before it and ends with its bus error (60_exceptions.md R144). -/
theorem run_refused {t : State} {n : Nat} {a : Access} (hb : t.status.busy = true) (hq : t.turns = [])
    (ha : (accessSequence t.build t.latch)[n]? = some a)
    (hd : admitted t.build (accessAddr t.latch a) (accessKind a) = false)
    (hbefore : ∀ a' ∈ (accessSequence t.build t.latch).take n,
      admitted t.build (accessAddr t.latch a') (accessKind a') = true) :
    Sys2Proof.core.run (n + 1) (progress t 0) = .next (raise (.busError (accessAddr t.latch a)) (progress t n)) := by
  have hn : n ≤ accessCount t.build t.latch := by
    rw [← accessSequence_length]
    exact Nat.le_of_lt (List.getElem?_eq_some_iff.mp ha).1
  rw [run_progress hb hq 1 hn hbefore]
  exact core_run_next 0 ((step_busy (s := progress t n) hq hb).trans (engineStep_refused (s := progress t n) hb ha hd))

/-- Settles O24: acceptance, the run of the accesses before the refused one, and its bus error, which leaves the memory
that they left. -/
theorem busErrorPrecise : Obligations.BusErrorPrecise := by
  unfold Obligations.BusErrorPrecise
  intro i s n a hi hw hb hq ha hd hbefore
  have hrun := run_refused (t := accepted s (encode i)) rfl (turns_of_quiet hq) ha hd hbefore
  rw [progress_accepted] at hrun
  exact ⟨_, _, exec_accepted hi hw hb, hrun, rfl,
    fun hn => memoryAfter_phaseA s.build (latchOf s (encode i)) s.mem (Nat.le_of_lt hn), rfl, rfl⟩

/-! ### Register accesses of a bad form -/

theorem badAccess_iff (off : BitVec 12) (width : Nat) :
    badAccess off width = true ↔ width ≠ 32 ∨ off.toNat % 4 ≠ 0 := by
  simp [badAccess]

/-- Settles O43: both kinds of access test their form before anything else. -/
theorem badAccessRefused : Obligations.BadAccessRefused := by
  unfold Obligations.BadAccessRefused
  intro s off width v hform
  have hbad := (badAccess_iff off width).mpr hform
  exact ⟨if_pos hbad, if_pos hbad⟩

/-! ### The interrupt line -/

/-- The level of the line (60_exceptions.md R139). -/
theorem irq_iff (s : State) :
    irq s = true ↔ (s.ctrl.ieDone = true ∧ s.status.done = true) ∨ (s.ctrl.ieErr = true ∧ s.status.err = true) := by
  simp [irq]

/-- With neither DONE nor ERR to show, the line is low whatever `CTRL` enables. -/
theorem irq_low {s : State} (hdone : s.status.done = false) (herr : s.status.err = false) : irq s = false := by
  simp [irq, hdone, herr]

/-- The acknowledgement of both bits lowers the line (60_exceptions.md R140). -/
theorem irq_acknowledge {v : Word} (s : State) (h1 : v.getLsbD 1 = true) (h2 : v.getLsbD 2 = true) :
    irq (acknowledge v s) = false := by
  apply irq_low <;> simp [Status.cleared, h1, h2]

/-- An idle engine that is busy after a command has accepted it. -/
theorem exec_starts {i : Instr} {s t : State} (hb : s.status.busy = false) (h : exec i s = .next t)
    (ht : t.status.busy = true) : t = accepted s (encode i) := by
  obtain he | ⟨-, he⟩ | ⟨-, he⟩ | ⟨-, he⟩ := exec_cases i s <;> rw [he] at h <;> cases h
  · simp [hb] at ht
  · simp [hb] at ht
  · simp [hb] at ht
  · rfl

/-- Settles O48: the level; `STATUS` after the acknowledgement and after acceptance shows neither bit; and the level again
with the written enables. -/
theorem interruptLine : Obligations.InterruptLine := by
  unfold Obligations.InterruptLine
  refine fun s => ⟨irq_iff s, fun t v h h1 h2 => ?_, fun t i hb h ht => ?_, fun t v h => ?_⟩
  · rw [hostWrite_aligned (r := .status) rfl rfl] at h
    cases h
    exact irq_acknowledge (respond .written s) h1 h2
  · rw [exec_starts hb h ht]
    exact irq_low rfl rfl
  · rw [hostWrite_aligned (r := .ctrl) rfl rfl] at h
    cases h
    exact irq_iff { respond .written s with ctrl := Ctrl.ofWord v }

end Sys2Proof.Machine

/-! Reset: what a reset turn leaves, in whatever state it finds the machine, and where it cuts an operation short
(70_reset_and_hazards.md R153 to R155). -/

namespace Sys2Proof.Machine

/-! ### A reset turn -/

/-- Settles O50: a listed reset is the next step, and what is outside the engine goes on. -/
theorem resetTurn : Obligations.ResetTurn := by
  unfold Obligations.ResetTurn
  exact fun s turns h => step_listed h

/-- Settles O51: the words of the named registers, at the values of the reset state. -/
theorem resetValues : Obligations.ResetValues := by
  unfold Obligations.ResetValues
  intro b
  obtain ⟨hid, hctrl, hstatus, hcmd, hsrcBase, hsrcStride, hdstBase, hdstStride, herrAddr⟩ :=
    namedRegistersRead (State.resetOf b)
  refine ⟨hid, ?_, irq_low rfl rfl⟩
  simp only [List.forall_mem_cons]
  exact ⟨hctrl, hstatus, hcmd, hsrcBase, hsrcStride, hdstBase, hdstStride, herrAddr, List.forall_mem_nil _⟩

/-! ### A reset inside an operation -/

/-- The turn put first in a state's list is the one taken. -/
theorem step_turns_cons (tn : Turn) (rest : List Turn) (s : State) :
    step { s with turns := tn :: rest } = takeTurn tn { s with turns := rest } :=
  step_listed rfl

/-- With `n` engine turns listed before others and the first `n` accesses admitted, the first `n` steps are those
accesses, and the other turns come next (45_control.md R124). -/
theorem run_progress_listed {t : State} (hb : t.status.busy = true) {n : Nat} (m : Nat) (rest : List Turn)
    (hn : n ≤ accessCount t.build t.latch)
    (hd : ∀ a ∈ (accessSequence t.build t.latch).take n,
      admitted t.build (accessAddr t.latch a) (accessKind a) = true) :
    Sys2Proof.core.run (n + m) { progress t 0 with turns := List.replicate n .engine ++ rest }
      = Sys2Proof.core.run m { progress t n with turns := rest } := by
  induction n generalizing m rest with
  | zero => rw [Nat.zero_add, List.replicate_zero, List.nil_append]
  | succ n ih =>
    have hlt : n < (accessSequence t.build t.latch).length := by rwa [accessSequence_length]
    have hnext : step { progress t n with turns := .engine :: rest }
        = .next { progress t (n + 1) with turns := rest } := by
      rw [step_turns_cons, takeTurn]
      refine progress_step { t with turns := rest } hb (List.getElem?_eq_getElem hlt) (hd _ ?_)
      rw [List.mem_take_iff_getElem]
      exact ⟨n, by omega, rfl⟩
    rw [Nat.add_right_comm, Nat.add_assoc, List.replicate_succ', List.append_assoc, List.singleton_append,
      ih (m + 1) (.engine :: rest) (by omega) fun a ha => hd a (List.take_subset_take_left _ (Nat.le_succ n) ha)]
    exact core_run_next m hnext

/-- A reset listed after `n` engine turns finds the operation with its first `n` accesses done (70_reset_and_hazards.md
R155). -/
theorem run_reset {t : State} (hb : t.status.busy = true) {n : Nat} (hn : n ≤ accessCount t.build t.latch)
    (hd : ∀ a ∈ (accessSequence t.build t.latch).take n,
      admitted t.build (accessAddr t.latch a) (accessKind a) = true) :
    Sys2Proof.core.run (n + 1) { progress t 0 with turns := List.replicate n .engine ++ [.reset] }
      = .next (resetEngine { progress t n with turns := [] }) := by
  rw [run_progress_listed hb 1 [.reset] hn hd]
  exact core_run_next 0 (step_turns_cons .reset [] _)

theorem host_of_quiet {s : State} (h : quiet s = true) : s.host = [] := by
  rw [quiet, Bool.and_eq_true] at h
  exact List.isEmpty_iff.mp h.1

/-- Settles O25: acceptance, the run of the first `n` accesses, and the reset, which keeps the memory that they left. -/
theorem resetCutsShort : Obligations.ResetCutsShort := by
  unfold Obligations.ResetCutsShort
  intro i s n hi hw hb hq hd hn
  have hrun := run_reset (t := accepted s (encode i)) rfl hn fun a ha =>
    List.all_eq_true.mp hd a (List.mem_of_mem_take ha)
  rw [progress_accepted] at hrun
  refine ⟨_, exec_accepted hi hw hb, hrun.trans ?_⟩
  have hhost : (accepted s (encode i)).host = [] := host_of_quiet hq
  simp only [resetEngine, progress, hhost]
  rfl

end Sys2Proof.Machine
